-- ==== Sys2Proof/Word.lean ====
section
/-! DEFINITION. The word types and the plainest arithmetic of the spec's notation (00_scope.md R20 to R22). -/

namespace Sys2Proof

/-- A 32-bit register value (10_state.md R32 to R34, R40). -/
abbrev Word := BitVec 32

/-- One byte of IN or OUT, or of the host's byte view of BS (20_memory.md R80). -/
abbrev Byte := BitVec 8

/-- A bit sequence in stream order (00_scope.md R22). -/
abbrev Bits := List Bool

/-- `bitlen(v)`: the number of binary digits of `v`, and 0 for 0 (00_scope.md R22). -/
def bitlen (v : Nat) : Nat := if v = 0 then 0 else Nat.log2 v + 1

/-- The ceiling of `a / 2` (the `⌈(8 + OW)/2⌉` of 00_scope.md R15). -/
def ceilHalf (a : Nat) : Nat := (a + 1) / 2

/-- The most stream bits one input byte can cost when the offset field has `ow` bits:
`max(9, ⌈(8 + OW)/2⌉)` (00_scope.md R15, 43_encoder.md R209). -/
def bitsPerByte (ow : Nat) : Nat := max 9 (ceilHalf (8 + ow))

end Sys2Proof
end

