-- ==== Sys2Proof/Config.lean ====
section
/-! DEFINITION. What an implementation fixes: the OPEN parameters of 00_scope.md section 3, which the model takes
as data (log 1), and the free values the spec calls UNSPECIFIED (00_scope.md R24, log 3), which have no body. -/

namespace Sys2Proof

/-- `MATCH_SCOPE` (00_scope.md R16): whether a candidate match must lie before the cursor or may run past it. -/
inductive Scope where
  | window
  | overlap
  deriving DecidableEq, Repr

/-- The OPEN parameters of one build (00_scope.md R10 to R16; 20_memory.md R93 for the platform's bases). -/
structure Params where
  /-- `W_MAX`: the largest window size (R10). -/
  wMax : Nat
  /-- `LA_MAX`: the largest lookahead cap (R11). -/
  laMax : Nat
  /-- `LEN_W`: the width of the length datapath (R12). -/
  lenW : Nat
  /-- `IN_CAP`: bytes of IN (R13). -/
  inCap : Nat
  /-- `OUT_CAP`: bytes of OUT (R14). -/
  outCap : Nat
  /-- `BS_CAP`: bits of BS (R15). -/
  bsCap : Nat
  /-- `MATCH_SCOPE` (R16). -/
  scope : Scope
  /-- `BASE_REG`, `BASE_IN`, `BASE_BS`, `BASE_OUT`: where the platform puts the storages; no rule reads them (R93). -/
  baseReg : Nat
  baseIn : Nat
  baseBs : Nat
  baseOut : Nat
  deriving DecidableEq, Repr

/-- A set of parameter values is well-formed when rules R10 to R16 hold together (00_scope.md R18). -/
def Params.wf (p : Params) : Bool :=
  decide (1 ≤ p.wMax) && decide (p.wMax ≤ 2 ^ 32 - 1) &&
  decide (2 ≤ p.laMax) && decide (p.laMax ≤ 2 ^ p.lenW - 1) &&
  decide (21 ≤ p.lenW) && decide (p.lenW ≤ 31) &&
  decide (p.inCap ≤ 2 ^ 32 - 1) && decide (p.outCap ≤ 2 ^ 32 - 1) &&
  decide (p.bsCap % 8 = 0) && decide (p.bsCap ≤ 2 ^ 32 - 8) &&
  decide (p.inCap * bitsPerByte (bitlen (p.wMax - 1)) ≤ p.bsCap)

/-- The reference profile REF of the test vectors (92_eei_decisions.md D41): example values, not the hardware's.
DESIGN CHOICE (log 1), unsafe only for a statement about `State.reset` itself: the build of `State.reset`. -/
def Params.ref : Params where
  wMax := 4096
  laMax := 256
  lenW := 21
  inCap := 4096
  outCap := 4096
  bsCap := 40960
  scope := .window
  baseReg := 0
  baseIn := 0
  baseBs := 0
  baseOut := 0

/-! The free values (log 3). The first argument is the draw (`State.draws`), the second says which value of it. -/

/-- The byte an IN index that nothing has written reads as (10_state.md R56). -/
opaque Config.freeIn : Nat → Nat → Byte

/-- The byte an OUT index that nothing has written reads as (10_state.md R56, 60_exceptions.md R310). -/
opaque Config.freeOut : Nat → Nat → Byte

/-- The bit a BS index that nothing has written reads as (10_state.md R56). -/
opaque Config.freeBit : Nat → Nat → Bool

/-- The byte a host read returns from a buffer the running command writes (20_memory.md R96). -/
opaque Config.freeHostRead : Nat → Nat → Byte

/-- What a datapath register holds after the RESET action (10_state.md R56, 70_reset_and_hazards.md R330). -/
opaque Config.freeWord : Nat → Nat → Word

end Sys2Proof
end

