-- ==== Sys2Proof/Syntax.lean ====
section
/-! DEFINITION. The instruction set: one constructor for each row of spec/opcode_table.json (00_scope.md R1: the
host's commands, the two stream tokens, the sub-blocks' operations, and the host's actions). -/

namespace Sys2Proof

/-- The operations of the block. Values and widths are naturals (00_scope.md R20); what the block holds or the host
sends as a word is a bit vector. -/
inductive Instr where
  /-- NOP: CMD word with OPCODE 0 (45_host_interface.md R261). -/
  | nop
  /-- ENCODE: CMD word with OPCODE 1 (R262). -/
  | encode
  /-- DECODE: CMD word with OPCODE 2 (R263). -/
  | decode
  /-- RESERVED_CMD: CMD word with OPCODE 3 to 15 (R264). -/
  | reservedCmd (op : BitVec 4)
  /-- LIT: stream token `0bbbbbbbb` (44_decoder.md R235). -/
  | lit (b : Byte)
  /-- MATCH: stream token `1 o^OW VLC` (R236). `pad` is the number of one-bits before the zero-bit of a length code
  of value 1: 0 for the canonical `0`, 1 to 3 for `10`, `110`, `1110` (30_encoding.md R118); 0 for any other length. -/
  | matchTok (off len pad : Nat)
  /-- BS_APPEND_BIT, internal code 0x0 (42_bitstream.md R181). -/
  | bsAppendBit (b : Bool)
  /-- BS_APPEND_UINT, internal code 0x1 (R182). -/
  | bsAppendUint (v w : Nat)
  /-- BS_APPEND_BITS, internal code 0x2 (R183). -/
  | bsAppendBits (s : Bits)
  /-- BS_READ_BIT, internal code 0x4 (R184). -/
  | bsReadBit
  /-- BS_READ_UINT, internal code 0x5 (R185). -/
  | bsReadUint (w : Nat)
  /-- BS_AT_END, internal code 0x6 (R186). -/
  | bsAtEnd
  /-- VLC_ENCODE, internal code 0x8 (41_length_codec.md R161). -/
  | vlcEncode (n : Nat)
  /-- VLC_DECODE, internal code 0x9 (R165). -/
  | vlcDecode
  /-- FIND_LONGEST_MATCH, internal code 0xC (40_matcher.md R143). -/
  | findLongestMatch
  /-- REG_READ: a 32-bit host read of REG byte offset `a` (45_host_interface.md R266). -/
  | regRead (a : BitVec 8)
  /-- REG_WRITE: a 32-bit host write of `v` to REG byte offset `a` (R267). -/
  | regWrite (a : BitVec 8) (v : Word)
  /-- IN_READ: a host byte read of `IN[i]` (R268). -/
  | inRead (i : Nat)
  /-- IN_WRITE: a host byte write of `b` to `IN[i]` (R268). -/
  | inWrite (i : Nat) (b : Byte)
  /-- BS_READ_BYTE: a host read of BS byte `j` (R269). -/
  | bsReadByte (j : Nat)
  /-- BS_WRITE_BYTE: a host write of `b` to BS byte `j` (R270). -/
  | bsWriteByte (j : Nat) (b : Byte)
  /-- OUT_READ: a host byte read of `OUT[i]` (R271). -/
  | outRead (i : Nat)
  /-- OUT_WRITE: a host byte write to `OUT[i]` (R272). -/
  | outWrite (i : Nat) (b : Byte)
  /-- RESET: assertion of the reset input (70_reset_and_hazards.md R330). -/
  | reset
  deriving DecidableEq, Repr

end Sys2Proof
end

