-- ==== Sys2Proof/WellFormed.lean ====
section
/-! DEFINITION. Which terms are instructions of a build whose length datapath is `lenW` bits wide, under a
configuration whose offset field is `ow` bits wide. -/

namespace Sys2Proof

/-- The operand checks, each from the rule that gives the operand's range: OPCODE 3 to 15 is reserved (30_encoding.md
R126); an offset fills `ow` bits, a length `lenW` bits and is at least 1 (R113, R114, 41_length_codec.md R160, R164);
only a length of 1 has a non-canonical code (30_encoding.md R118); a field width is at most 32 (42_bitstream.md R182,
R185); a register offset is a multiple of 4 (20_memory.md R89), and a write to offset 0 is a command, not REG_WRITE. -/
def Instr.wf (lenW ow : Nat) : Instr → Bool
  | .nop => true
  | .encode => true
  | .decode => true
  | .reservedCmd op => decide (3 ≤ op.toNat)
  | .lit _ => true
  | .matchTok off len pad =>
      decide (off < 2 ^ ow) && decide (1 ≤ len) && decide (len < 2 ^ lenW) &&
      decide (pad ≤ 3) && (decide (pad = 0) || decide (len = 1))
  | .bsAppendBit _ => true
  | .bsAppendUint _ w => decide (w ≤ 32)
  | .bsAppendBits _ => true
  | .bsReadBit => true
  | .bsReadUint w => decide (w ≤ 32)
  | .bsAtEnd => true
  | .vlcEncode n => decide (1 ≤ n) && decide (n < 2 ^ lenW)
  | .vlcDecode => true
  | .findLongestMatch => true
  | .regRead a => decide (a.toNat % 4 = 0)
  | .regWrite a _ => decide (a.toNat % 4 = 0) && decide (a ≠ 0)
  | .inRead _ => true
  | .inWrite _ _ => true
  | .bsReadByte _ => true
  | .bsWriteByte _ _ => true
  | .outRead _ => true
  | .outWrite _ _ => true
  | .reset => true

end Sys2Proof
end

