-- ==== Sys2Proof/Decode.lean ====
section
/-! DEFINITION. The decoder of each of the block's encodings (30_encoding.md: stream tokens, CMD words, internal
codes; the host's actions have no bit pattern), total, rejecting by name, and after it the encoder. -/

namespace Sys2Proof

/-! ## Bit sequences (00_scope.md R22) -/

/-- `bin(v, w)`: the low `w` bits of `v`, most significant first. -/
def bin (v : Nat) : Nat → Bits
  | 0 => []
  | w + 1 => v.testBit w :: bin v w

/-- `val(s)`: the number whose most-significant-first binary form is `s`. -/
def val (s : Bits) : Nat := s.foldl (fun acc b => 2 * acc + b.toNat) 0

/-- `tail(v)`: the binary form of `v ≥ 1` without its leading 1. -/
def tailBits (v : Nat) : Bits := bin (v % 2 ^ (bitlen v - 1)) (bitlen v - 1)

/-! ## The length code (30_encoding.md R115, R116, R118) -/

/-- `VLC(n)`: one zero-bit for 1; else `clen + 2` one-bits, a zero-bit, `tail(blen)`, `tail(n)`
(41_length_codec.md R161). -/
def vlc (n : Nat) : Bits :=
  if n = 1 then [false]
  else
    List.replicate (bitlen (bitlen n) + 2) true ++ false :: (tailBits (bitlen n) ++ tailBits n)

/-- The length code of `len`; a length of 1 is written with `pad` one-bits before its zero-bit, of which only
`pad = 0` is canonical (30_encoding.md R118). -/
def lenCode (len pad : Nat) : Bits :=
  if len = 1 then List.replicate pad true ++ [false] else vlc len

/-- `U_MAX = bitlen(LEN_W) + 2`: the longest unary prefix a decoder accepts (41_length_codec.md R165). -/
def uMax (lenW : Nat) : Nat := bitlen lenW + 2

/-! ## Readers of a bit sequence -/

/-- Why bits are no instruction. -/
inductive DecodeError where
  /-- A bit the token needs lies past the end of the stream (60_exceptions.md R303). -/
  | truncated
  /-- The length code's value does not fit `LEN_W` bits (60_exceptions.md R307). -/
  | lengthOverflow
  /-- An internal operation code the spec leaves unused (30_encoding.md R128). -/
  | unusedCode (code : BitVec 4)
  /-- An operation that is no action of the host stands in the host's program. -/
  | notHostAction
  deriving DecidableEq, Repr

/-- A value read from the head of a bit sequence with the number of bits read and the bits left, or the reason none
was read with the number of bits read until then. -/
inductive Parsed (α : Type) where
  | ok (v : α) (used : Nat) (rest : Bits)
  | err (e : DecodeError) (used : Nat)
  deriving DecidableEq, Repr

/-- Reads `w` bits most significant first behind the value `acc`, if there are so many (42_bitstream.md R185). -/
def readUint : Nat → Nat → Bits → Option (Nat × Bits)
  | 0, acc, bs => some (acc, bs)
  | _ + 1, _, [] => none
  | w + 1, acc, b :: bs => readUint w (2 * acc + b.toNat) bs

/-- The unary prefix of a length code after `u` one-bits: counts one-bits to the first zero-bit; the one-bit that
makes more than `umax` of them is LENGTH_OVERFLOW (41_length_codec.md R165, the loop). -/
def readUnary (umax : Nat) : Nat → Bits → Parsed Nat
  | u, [] => .err .truncated u
  | u, false :: bs => .ok u (u + 1) bs
  | u, true :: bs => if umax < u + 1 then .err .lengthOverflow (u + 1) else readUnary umax (u + 1) bs

/-- What follows a unary prefix of `u ≥ 3` one-bits (41_length_codec.md R165 after the loop): `clen − 1` bits of
`blen`, the test against LEN_W, `blen − 1` bits of the value. `used` bits were read before. -/
def readLengthTail (lenW u used : Nat) (bs : Bits) : Parsed (Nat × Nat) :=
  match readUint (u - 3) 1 bs with
  | none => .err .truncated (used + bs.length)
  | some (blen, bs') =>
    if lenW < blen then .err .lengthOverflow (used + (u - 3))
    else
      match readUint (blen - 1) 1 bs' with
      | none => .err .truncated (used + (u - 3) + bs'.length)
      | some (n, rest) => .ok (n, if u ≤ 3 then u else 0) (used + (u - 3) + (blen - 1)) rest

/-- VLC_DECODE on a bit sequence (41_length_codec.md R165): the length and the `pad` of its code. -/
def readLength (lenW : Nat) (bs : Bits) : Parsed (Nat × Nat) :=
  match readUnary (uMax lenW) 0 bs with
  | .err e used => .err e used
  | .ok u used rest => if u ≤ 2 then .ok (1, u) used rest else readLengthTail lenW u used rest

/-- The LIT token behind its flag bit (30_encoding.md R112, 44_decoder.md R235). -/
def readLit (bs : Bits) : Parsed Instr :=
  match readUint 8 0 bs with
  | none => .err .truncated 1
  | some (v, rest) => .ok (.lit (BitVec.ofNat 8 v)) 9 rest

/-- The MATCH token behind its flag bit (30_encoding.md R113, 44_decoder.md R236). -/
def readMatch (lenW ow : Nat) (bs : Bits) : Parsed Instr :=
  match readUint ow 0 bs with
  | none => .err .truncated 1
  | some (off, bs') =>
    match readLength lenW bs' with
    | .err e used => .err e (1 + ow + used)
    | .ok (len, pad) used rest => .ok (.matchTok off len pad) (1 + ow + used) rest

/-- One token from the head of a stream: the flag bit selects LIT or MATCH (30_encoding.md R111 to R113). -/
def decodeToken (lenW ow : Nat) : Bits → Parsed Instr
  | [] => .err .truncated 0
  | false :: bs => readLit bs
  | true :: bs => readMatch lenW ow bs

/-! ## CMD words, internal codes, host actions -/

/-- The command of a CMD word: OPCODE is bits [3:0], bits [31:4] are ignored (30_encoding.md R125, R126). -/
def decodeCmd (v : Word) : Instr :=
  let op := v.extractLsb' 0 4
  if op = 0 then .nop
  else if op = 1 then .encode
  else if op = 2 then .decode
  else .reservedCmd op

/-- A sub-block operation as it is presented: the 4-bit code of 30_encoding.md R128 and its operand lines. The spec
gives the code alone; the lines beside it are the model's (log 7). -/
structure UnitWord where
  code : BitVec 4
  /-- `b` of BS_APPEND_BIT. -/
  bit : Bool := false
  /-- `v` of BS_APPEND_UINT. -/
  value : Nat := 0
  /-- `w` of BS_APPEND_UINT and BS_READ_UINT. -/
  width : Nat := 0
  /-- `s` of BS_APPEND_BITS. -/
  seq : Bits := []
  /-- `n` of VLC_ENCODE; the least value of its domain where no line is driven. -/
  len : Nat := 1
  deriving DecidableEq, Repr

/-- The operation of an internal code (30_encoding.md R128); the codes not listed there are unused. -/
def decodeUnit (u : UnitWord) : Except DecodeError Instr :=
  if u.code = 0x0 then .ok (.bsAppendBit u.bit)
  else if u.code = 0x1 then .ok (.bsAppendUint u.value u.width)
  else if u.code = 0x2 then .ok (.bsAppendBits u.seq)
  else if u.code = 0x4 then .ok .bsReadBit
  else if u.code = 0x5 then .ok (.bsReadUint u.width)
  else if u.code = 0x6 then .ok .bsAtEnd
  else if u.code = 0x8 then .ok (.vlcEncode u.len)
  else if u.code = 0x9 then .ok .vlcDecode
  else if u.code = 0xC then .ok .findLongestMatch
  else .error (.unusedCode u.code)

/-- The operation a host step performs: a write to register offset 0 is the command of its word (45_host_interface.md
R260), a command is itself, every other host action is itself; a token or a sub-block operation is no host action
(30_encoding.md R128). -/
def decodeAction (i : Instr) : Except DecodeError Instr :=
  match i with
  | .regWrite a v => if a = 0 then .ok (decodeCmd v) else .ok (.regWrite a v)
  | .nop => .ok .nop
  | .encode => .ok .encode
  | .decode => .ok .decode
  | .reservedCmd op => .ok (.reservedCmd op)
  | .regRead a => .ok (.regRead a)
  | .inRead k => .ok (.inRead k)
  | .inWrite k b => .ok (.inWrite k b)
  | .bsReadByte j => .ok (.bsReadByte j)
  | .bsWriteByte j b => .ok (.bsWriteByte j b)
  | .outRead k => .ok (.outRead k)
  | .outWrite k b => .ok (.outWrite k b)
  | .reset => .ok .reset
  | .lit _ => .error .notHostAction
  | .matchTok _ _ _ => .error .notHostAction
  | .bsAppendBit _ => .error .notHostAction
  | .bsAppendUint _ _ => .error .notHostAction
  | .bsAppendBits _ => .error .notHostAction
  | .bsReadBit => .error .notHostAction
  | .bsReadUint _ => .error .notHostAction
  | .bsAtEnd => .error .notHostAction
  | .vlcEncode _ => .error .notHostAction
  | .vlcDecode => .error .notHostAction
  | .findLongestMatch => .error .notHostAction

/-- An instruction as it reaches the block: a CMD word, the bits at the decoder's read pointer, a sub-block operation,
or a host action, which has no bit pattern (opcode_table.json). -/
inductive Encoding where
  | cmdWord (v : Word)
  | tokenBits (bs : Bits)
  | unitWord (u : UnitWord)
  | hostAction (i : Instr)
  deriving DecidableEq, Repr

/-- The decoder: the instruction an encoding stands for, or the name of the reason it stands for none. -/
def decode (lenW ow : Nat) : Encoding → Except DecodeError Instr
  | .cmdWord v => .ok (decodeCmd v)
  | .tokenBits bs =>
    match decodeToken lenW ow bs with
    | .ok i _ _ => .ok i
    | .err e _ => .error e
  | .unitWord u => decodeUnit u
  | .hostAction i => decodeAction i

/-! ## The encoder, from the same tables -/

/-- The bits of a LIT token (30_encoding.md R112). -/
def encodeLit (b : Byte) : Bits := false :: bin b.toNat 8

/-- The bits of a MATCH token when the offset field is `ow` bits wide (30_encoding.md R113). -/
def encodeMatch (ow off len pad : Nat) : Bits := true :: (bin off ow ++ lenCode len pad)

/-- The encoding of an instruction, when the offset field is `ow` bits wide. -/
def encode (ow : Nat) : Instr → Encoding
  | .nop => .cmdWord 0
  | .encode => .cmdWord 1
  | .decode => .cmdWord 2
  | .reservedCmd op => .cmdWord (op.setWidth 32)
  | .lit b => .tokenBits (encodeLit b)
  | .matchTok off len pad => .tokenBits (encodeMatch ow off len pad)
  | .bsAppendBit b => .unitWord { code := 0x0, bit := b }
  | .bsAppendUint v w => .unitWord { code := 0x1, value := v, width := w }
  | .bsAppendBits s => .unitWord { code := 0x2, seq := s }
  | .bsReadBit => .unitWord { code := 0x4 }
  | .bsReadUint w => .unitWord { code := 0x5, width := w }
  | .bsAtEnd => .unitWord { code := 0x6 }
  | .vlcEncode n => .unitWord { code := 0x8, len := n }
  | .vlcDecode => .unitWord { code := 0x9 }
  | .findLongestMatch => .unitWord { code := 0xC }
  | .regRead a => .hostAction (.regRead a)
  | .regWrite a v => .hostAction (.regWrite a v)
  | .inRead k => .hostAction (.inRead k)
  | .inWrite k b => .hostAction (.inWrite k b)
  | .bsReadByte j => .hostAction (.bsReadByte j)
  | .bsWriteByte j b => .hostAction (.bsWriteByte j b)
  | .outRead k => .hostAction (.outRead k)
  | .outWrite k b => .hostAction (.outWrite k b)
  | .reset => .hostAction .reset

/-! ## Words as opcode_table.json numbers them (log 8) -/

/-- The offset width under which a table word is read as a token: that of the spec's examples, W = 6
(30_encoding.md R113). -/
def tableOffsetWidth : Nat := 3

/-- How many bytes of a table word are laid out as a stream: enough for the longest token (1 + 32 + 42 bits). -/
def tableStreamBytes : Nat := 10

/-- The bytes of a table word, first word at the lowest index, as stream bits (20_memory.md R84: the first stream bit
is the most significant bit of byte 0); the bytes above the table's are zero. -/
def tableStream (w : Nat) : Bits :=
  (List.range tableStreamBytes).flatMap fun j => bin (w / 256 ^ j % 256) 8

/-- How a table word of `nbits` bits (whole bytes) reaches the block: one byte is a 4-bit internal code, two or three
bytes are the head of a stream, four bytes are a CMD word (log 8). -/
def tableEncoding (nbits w : Nat) : Option Encoding :=
  if nbits ≤ 8 then
    if w < 16 then some (.unitWord { code := BitVec.ofNat 4 w }) else none
  else if nbits ≤ 24 then some (.tokenBits (tableStream (w % 2 ^ nbits)))
  else some (.cmdWord (BitVec.ofNat 32 w))

/-- The instruction the decoder reads from a word of opcode_table.json, if it reads one. -/
def decodeTableWord (nbits w : Nat) : Option Instr :=
  match tableEncoding nbits w with
  | none => none
  | some e =>
    match decode Params.ref.lenW tableOffsetWidth e with
    | .ok i => some i
    | .error _ => none

end Sys2Proof
end

