-- ==== Sys2Proof/Machine/State.lean ====
section
/-! DEFINITION. The state of the block (10_state.md), plain data: the core's state machine and datapath registers,
the host-visible registers, the three buffers, the build's parameters, and the model's own fields for the host. -/

namespace Sys2Proof.Machine

/-- The states of `dp.fsm` (10_state.md R31). -/
inductive Fsm where
  | idle
  | eToken
  | dToken
  | dCopy
  deriving DecidableEq, Repr

/-- The two agents (10_state.md R30). -/
inductive Agent where
  | host
  | core
  deriving DecidableEq, Repr

/-- The errors a command can end with (60_exceptions.md R300). -/
inductive ErrCode where
  | invalidConfiguration
  | truncatedStream
  | danglingReference
  | lengthOverflow
  | outputOverflow
  | bufferBound
  | illegalCommand
  deriving DecidableEq, Repr

/-- Where an error is raised (60_exceptions.md R310): at the start of a command (case (a)) or in a core step of
DECODE (case (b)). -/
inductive Origin where
  | encodeStart
  | decodeStart
  | reservedStart
  | decodeStep
  deriving DecidableEq, Repr

/-- The fields of STATUS (10_state.md R42). Its reserved bits read 0 and are never written, so they have no storage. -/
structure Status where
  busy : Bool
  done : Bool
  err : Bool
  errCode : BitVec 4
  deriving DecidableEq, Repr

/-- The core's state machine and its datapath registers (10_state.md R31 to R34). -/
structure Dp where
  fsm : Fsm
  /-- Window size of the running command. -/
  cw : Word
  /-- Lookahead cap of the running command. -/
  cla : Word
  /-- Offset field width `OW`. -/
  cow : BitVec 6
  /-- `MAX_OFFSET`. -/
  cmo : Word
  /-- ENCODE: input length in bytes; DECODE: stream length in bits. -/
  cn : Word
  /-- Encoder cursor. -/
  cur : Word
  /-- Bits appended so far. -/
  wptr : Word
  /-- Index of the next bit to read. -/
  rptr : Word
  /-- Output length so far. -/
  olen : Word
  /-- Index at which the current token began. -/
  tstart : Word
  /-- Offset of the match being copied. -/
  coff : Word
  /-- Bytes of that match still to copy: a register of `LEN_W` bits, in a word whose higher bits no write sets and no
  step reads (log 9). -/
  crem : Word
  deriving DecidableEq, Repr

/-- The host-visible registers that have storage (10_state.md R40 to R50). -/
structure Regs where
  status : Status
  windowSize : Word
  lookaheadCap : Word
  inLen : Word
  bsLen : Word
  outLen : Word
  errBitpos : Word
  errBytepos : Word
  deriving DecidableEq, Repr

/-- What a sub-block operation returned last (10_state.md R35: a transient value; log 7). -/
inductive UnitResult where
  /-- Nothing was returned. -/
  | nothing
  /-- A bit or a truth value (BS_READ_BIT, BS_AT_END). -/
  | bit (b : Bool)
  /-- A natural (BS_READ_UINT, VLC_DECODE). -/
  | num (n : Nat)
  /-- A bit sequence (VLC_ENCODE). -/
  | seq (s : Bits)
  /-- The matcher's triple (FIND_LONGEST_MATCH). -/
  | triple (valid : Bool) (off len : Nat)
  deriving DecidableEq, Repr

/-- The state of the block. -/
structure State where
  /-- The build's parameters, constant (00_scope.md R10 to R16; log 1). -/
  par : Params
  dp : Dp
  reg : Regs
  /-- IN: the cells that hold a value, indices rising (10_state.md R57; log 3). -/
  inb : List Host.Cell
  /-- BS: the bits that hold a value, indices rising (R58; log 3). -/
  bs : List (Nat × Bool)
  /-- OUT: the cells that hold a value, indices rising (R59; log 3). -/
  outb : List Host.Cell
  /-- The host's steps still to come, oldest first (log 5). -/
  hostQ : List Instr
  /-- Whose turn it is, one entry for each step at which both agents can move (log 4). -/
  sched : List Agent
  /-- The value the latest host read returned (log 6). -/
  rdata : Word
  /-- The sub-block operation presented by its internal code, if any (log 7). -/
  unitOp : Option UnitWord
  /-- What the latest sub-block operation returned (log 7). -/
  unitRes : UnitResult
  /-- How many draws of UNSPECIFIED values were made (00_scope.md R24; log 3). -/
  draws : Nat
  deriving DecidableEq, Repr

/-- Model faults: the two of the spec (60_exceptions.md R315). No run from a legal state reaches one. -/
inductive Fault where
  /-- "BS capacity": an append at `dp.wptr ≥ BS_CAP` (42_bitstream.md R181). Raised by BS_APPEND_BIT and what appends
  through it. Safe: the model stops. -/
  | bsCapacity
  /-- "VLC_ENCODE outside domain": `n = 0` or `n ≥ 2^LEN_W` (41_length_codec.md R161). Raised by VLC_ENCODE and by the
  emission of a MATCH token. Safe: the model stops. -/
  | vlcEncodeDomain
  deriving DecidableEq, Repr

/-- What the model gives no meaning. -/
inductive Refusal where
  /-- An instruction without a meaning yet. Raised by exec's arm. Safe: the model stops. -/
  | notModelled (mnemonic : String)
  /-- A build whose parameters break 00_scope.md R10 to R16 (R18: "A model refuses a build whose parameters are not
  well-formed"). Raised by step. Safe. -/
  | illFormedBuild
  /-- A register access at an offset that is no multiple of 4 (20_memory.md R89: "refused by the model"). Raised by
  REG_READ and REG_WRITE. Safe. -/
  | misalignedRegister (a : BitVec 8)
  /-- A host write to IN while ENCODE runs (20_memory.md R96: refused). Raised by IN_WRITE. Safe. -/
  | inWriteWhileEncode
  /-- A host write to BS while a command runs (20_memory.md R96: refused). Raised by BS_WRITE_BYTE. Safe. -/
  | bsWriteWhileBusy
  /-- The host's program or the operation latch holds what is no action of the host or no operation code
  (30_encoding.md R128; log 5, log 7). Raised by step. Safe. -/
  | notAnOperation (e : DecodeError)
  deriving DecidableEq, Repr

/-- The outcome of one instruction or one step. -/
abbrev Result := Host.Outcome State Fault Refusal

/-- STATUS after reset: 0 (10_state.md R56). -/
def Status.zero : Status where
  busy := false
  done := false
  err := false
  errCode := 0

/-- The host-visible registers after reset: all 0 (10_state.md R56). -/
def Regs.zero : Regs where
  status := Status.zero
  windowSize := 0
  lookaheadCap := 0
  inLen := 0
  bsLen := 0
  outLen := 0
  errBitpos := 0
  errBytepos := 0

/-- The machine after reset (10_state.md R56, 70_reset_and_hazards.md R330). The datapath registers, which the spec
leaves UNSPECIFIED, are 0: DESIGN CHOICE (log 2), unsafe. The build is `Params.ref`: DESIGN CHOICE (log 1). The
buffers list nothing: every byte and bit of them is UNSPECIFIED. -/
def State.reset : State where
  par := Params.ref
  dp :=
    { fsm := .idle, cw := 0, cla := 0, cow := 0, cmo := 0, cn := 0, cur := 0, wptr := 0, rptr := 0, olen := 0,
      tstart := 0, coff := 0, crem := 0 }
  reg := Regs.zero
  inb := []
  bs := []
  outb := []
  hostQ := []
  sched := []
  rdata := 0
  unitOp := none
  unitRes := .nothing
  draws := 0

end Sys2Proof.Machine
end

