-- ==== Sys2Proof/Machine/Flags.lean ====
section
/-! DEFINITION. The status flags: the values STATUS takes (10_state.md R42) and the words the host reads. -/

namespace Sys2Proof.Machine

/-- The number of an error code (60_exceptions.md R300). -/
def errNumber : ErrCode → BitVec 4
  | .invalidConfiguration => 1
  | .truncatedStream => 2
  | .danglingReference => 3
  | .lengthOverflow => 4
  | .outputOverflow => 5
  | .bufferBound => 6
  | .illegalCommand => 7

/-- `{BUSY 0, DONE 0, ERR 0, ERR_CODE 0}`: STATUS as a command start clears it (45_host_interface.md R262). -/
def statusCleared : Status := { busy := false, done := false, err := false, errCode := 0 }

/-- STATUS while a command runs (45_host_interface.md R262, R263). -/
def statusRunning : Status := { busy := true, done := false, err := false, errCode := 0 }

/-- STATUS after a success exit (43_encoder.md R212, 44_decoder.md R234). -/
def statusDone : Status := { busy := false, done := true, err := false, errCode := 0 }

/-- STATUS after an error exit (60_exceptions.md R310). -/
def statusError (c : ErrCode) : Status := { busy := false, done := false, err := true, errCode := errNumber c }

/-- The STATUS word: BUSY at bit 0, DONE at bit 1, ERR at bit 2, ERR_CODE at bits [11:8] (10_state.md R42,
45_host_interface.md R266). -/
def statusWord (st : Status) : Word :=
  BitVec.ofNat 32 (st.busy.toNat + 2 * st.done.toNat + 4 * st.err.toNat + 256 * st.errCode.toNat)

/-- The FEATURES word: MATCH_SCOPE at bit 0, LEN_W at bits [12:8] (10_state.md R52). -/
def featuresWord (p : Params) : Word :=
  BitVec.ofNat 32 ((if p.scope = .overlap then 1 else 0) + 256 * p.lenW)

end Sys2Proof.Machine
end

