-- ==== Sys2Proof/Machine/Operands.lean ====
section
/-! DEFINITION. What an operand names: the quantities derived from a configuration (00_scope.md R17) and the register
a REG offset selects (10_state.md R40). -/

namespace Sys2Proof.Machine

/-- `OW = bitlen(W − 1)`, the offset field width (00_scope.md R17). -/
def offsetWidth (w : Nat) : Nat := bitlen (w - 1)

/-- `MAX_OFFSET = min(W, 2^OW − 1)` (00_scope.md R17). -/
def maxOffset (w : Nat) : Nat := min w (2 ^ offsetWidth w - 1)

/-- What a register of `LEN_W` bits keeps of the number `n` (10_state.md R34, 00_scope.md R12; log 9). -/
def lenField (p : Params) (n : Nat) : Word := BitVec.ofNat 32 (n % 2 ^ p.lenW)

/-- What OFFSET_WIDTH reads for a value of WINDOW_SIZE (10_state.md R45). -/
def offsetWidthReg (windowSize : Word) : Word :=
  if windowSize = 0 then 0 else BitVec.ofNat 32 (offsetWidth windowSize.toNat)

/-- The value a host read of REG offset `a` (a multiple of 4) returns (45_host_interface.md R266). -/
def regValue (s : State) (a : BitVec 8) : Word :=
  if a = 0x00 then 0
  else if a = 0x04 then statusWord s.reg.status
  else if a = 0x08 then s.reg.windowSize
  else if a = 0x0C then s.reg.lookaheadCap
  else if a = 0x10 then offsetWidthReg s.reg.windowSize
  else if a = 0x14 then s.reg.inLen
  else if a = 0x18 then s.reg.bsLen
  else if a = 0x1C then s.reg.outLen
  else if a = 0x20 then s.reg.errBitpos
  else if a = 0x24 then s.reg.errBytepos
  else if a = 0x28 then BitVec.ofNat 32 s.par.wMax
  else if a = 0x2C then BitVec.ofNat 32 s.par.laMax
  else if a = 0x30 then BitVec.ofNat 32 s.par.inCap
  else if a = 0x34 then BitVec.ofNat 32 s.par.outCap
  else if a = 0x38 then BitVec.ofNat 32 s.par.bsCap
  else if a = 0x3C then featuresWord s.par
  else 0

/-- The registers after a host write of `v` to REG offset `a ≠ 0` (45_host_interface.md R267): the four read-write
registers take the value, every other offset ignores it (10_state.md R53, R54). -/
def regStore (r : Regs) (a : BitVec 8) (v : Word) : Regs :=
  if a = 0x08 then { r with windowSize := v }
  else if a = 0x0C then { r with lookaheadCap := v }
  else if a = 0x14 then { r with inLen := v }
  else if a = 0x18 then { r with bsLen := v }
  else r

end Sys2Proof.Machine
end

