-- ==== Sys2Proof/Machine/Ops.lean ====
section
/-! DEFINITION. The named operations over buffers and registers, and the one error exit (60_exceptions.md R310) that
every error takes. -/

namespace Sys2Proof.Machine

/-! ## Buffers as lists of cells (log 3)

A buffer lists the units that hold a value, indices strictly rising. What an unlisted index reads as is no value here;
`inByte`, `bsBit` and `outByte` give it a free value. -/

/-- The value held at index `a`, if one is. -/
def Memory.get {α : Type} : List (Nat × α) → Nat → Option α
  | [], _ => none
  | (k, v) :: m, a => if a = k then some v else Memory.get m a

/-- `MemWrite(S:a, 1, v)`, keeping the indices rising. -/
def Memory.set {α : Type} : List (Nat × α) → Nat → α → List (Nat × α)
  | [], a, x => [(a, x)]
  | (k, v) :: m, a, x =>
    if a < k then (a, x) :: (k, v) :: m
    else if a = k then (a, x) :: m
    else (k, v) :: Memory.set m a x

/-- `MemWrite(S:a, |xs|, xs)`: consecutive units from index `a`, in order. -/
def Memory.setMany {α : Type} (m : List (Nat × α)) (a : Nat) : List α → List (Nat × α)
  | [] => m
  | x :: xs => Memory.setMany (Memory.set m a x) (a + 1) xs

/-- Every index of `m` is above `a`, and they rise. -/
def Memory.risesFrom {α : Type} (a : Nat) : List (Nat × α) → Bool
  | [] => true
  | (k, _) :: m => decide (a < k) && Memory.risesFrom k m

/-- The canonical form: the indices rise strictly, so a buffer's contents determine its list. -/
def Memory.wf {α : Type} : List (Nat × α) → Bool
  | [] => true
  | (k, _) :: m => Memory.risesFrom k m

/-- Every listed index is below `cap`. -/
def Memory.below {α : Type} (cap : Nat) (m : List (Nat × α)) : Bool := m.all fun c => decide (c.1 < cap)

/-- A draw of UNSPECIFIED values was made (00_scope.md R24; log 3). -/
def tick (s : State) : State := { s with draws := s.draws + 1 }

/-- `IN[i]`: the byte held there, else a free value of the current draw (10_state.md R56, R57). -/
def inByte (s : State) (i : Nat) : Byte := (Memory.get s.inb i).getD (Config.freeIn s.draws i)

/-- `BS[i]` (10_state.md R56, R58). -/
def bsBit (s : State) (i : Nat) : Bool := (Memory.get s.bs i).getD (Config.freeBit s.draws i)

/-- `OUT[i]` (10_state.md R56, R59, 60_exceptions.md R310). -/
def outByte (s : State) (i : Nat) : Byte := (Memory.get s.outb i).getD (Config.freeOut s.draws i)

/-- The eight bits of BS byte `j`, first stream bit first (20_memory.md R84). -/
def bsByteBits (s : State) (j : Nat) : Bits := (List.range 8).map fun k => bsBit s (8 * j + k)

/-- BS byte `j` as the host sees it: `val(BS[8j], …, BS[8j+7])` (20_memory.md R84, 45_host_interface.md R269). -/
def bsByte (s : State) (j : Nat) : Byte := BitVec.ofNat 8 (val (bsByteBits s j))

/-- `OUT[i] ← b`. -/
def writeOut (i : Nat) (b : Byte) (s : State) : State := { s with outb := Memory.set s.outb i b }

/-! ## Sequencing -/

/-- The second operation in the state the first one leaves; a fault or a refusal ends both. -/
def andThen (r : Result) (f : State → Result) : Result :=
  match r with
  | .next s => f s
  | .fault e => .fault e
  | .refused e => .refused e

/-! ## The error exit -/

/-- `raise Error(CODE)` (60_exceptions.md R310, 00_scope.md R24): the one way an error ends a command. In a core step
(case (b)) the error context is recorded; STATUS takes the code; ENCODE clears BS_LEN; DECODE clears OUT_LEN and every
byte of OUT becomes UNSPECIFIED; the core goes to IDLE. There is no return from an error (R312): the next command
start or a reset clears it. -/
def raiseError (o : Origin) (c : ErrCode) (s : State) : State :=
  match o with
  | .encodeStart =>
    { s with
      dp := { s.dp with fsm := .idle }
      reg := { s.reg with status := statusError c, bsLen := 0 } }
  | .decodeStart =>
    { s with
      dp := { s.dp with fsm := .idle }
      reg := { s.reg with status := statusError c, outLen := 0 }
      outb := [] }
  | .reservedStart =>
    { s with
      dp := { s.dp with fsm := .idle }
      reg := { s.reg with status := statusError c } }
  | .decodeStep =>
    { s with
      dp := { s.dp with fsm := .idle }
      reg :=
        { s.reg with
          status := statusError c
          outLen := 0
          errBitpos := s.dp.tstart
          errBytepos := s.dp.olen }
      outb := [] }

/-- The error code of a token that cannot be read (60_exceptions.md R303, R307). The other reasons name no error of
the stream and do not come from a token. -/
def tokenErrCode : DecodeError → ErrCode
  | .truncated => .truncatedStream
  | .lengthOverflow => .lengthOverflow
  | .unusedCode _ => .truncatedStream
  | .notHostAction => .truncatedStream

/-! ## Values returned -/

/-- A host read returns `v` (45_host_interface.md R266 to R271; log 6). -/
def hostReturns (v : Word) (s : State) : State := { s with rdata := v }

/-- A sub-block operation returns `r` (log 7). -/
def unitReturns (r : UnitResult) (s : State) : State := { s with unitRes := r }

end Sys2Proof.Machine
end

