-- ==== Sys2Proof/Machine/BitStream.lean ====
section
/-! DEFINITION. The Bit Stream unit (42_bitstream.md): its writer serves ENCODE, its reader DECODE. -/

namespace Sys2Proof.Machine

/-! ## Writer -/

/-- Appends one bit at `dp.wptr` (42_bitstream.md R181); past BS_CAP it is the model fault "BS capacity" (R315). -/
def appendBit (b : Bool) (s : State) : Result :=
  if s.par.bsCap ≤ s.dp.wptr.toNat then .fault .bsCapacity
  else
    .next
      { s with
        bs := Memory.set s.bs s.dp.wptr.toNat b
        dp := { s.dp with wptr := s.dp.wptr + 1 } }

/-- Appends the bits of a sequence in order (42_bitstream.md R183). -/
def appendBits : Bits → State → Result
  | [], s => .next s
  | b :: bs, s => andThen (appendBit b s) (appendBits bs)

/-- Appends the low `w` bits of `v`, most significant first (42_bitstream.md R182). -/
def appendUint (v w : Nat) (s : State) : Result := appendBits (bin v w) s

/-- BS_APPEND_BIT (42_bitstream.md R181). -/
def execBsAppendBit (b : Bool) (s : State) : Result := appendBit b s

/-- BS_APPEND_UINT (42_bitstream.md R182). -/
def execBsAppendUint (v w : Nat) (s : State) : Result := appendUint v w s

/-- BS_APPEND_BITS (42_bitstream.md R183). -/
def execBsAppendBits (bits : Bits) (s : State) : Result := appendBits bits s

/-! ## Reader -/

/-- The bits `BS[dp.rptr .. dp.cn)`: what the reader can still read (42_bitstream.md R180). -/
def streamBits (s : State) : Bits :=
  (List.range' s.dp.rptr.toNat (s.dp.cn.toNat - s.dp.rptr.toNat)).map (bsBit s)

/-- `dp.rptr ← dp.rptr + n`. -/
def advance (n : Nat) (s : State) : State := { s with dp := { s.dp with rptr := s.dp.rptr + BitVec.ofNat 32 n } }

/-- BS_READ_BIT (42_bitstream.md R184). -/
def execBsReadBit (s : State) : Result :=
  if s.dp.cn.toNat ≤ s.dp.rptr.toNat then .next (raiseError .decodeStep .truncatedStream s)
  else .next (unitReturns (.bit (bsBit s s.dp.rptr.toNat)) (advance 1 (tick s)))

/-- BS_READ_UINT (42_bitstream.md R185): all `w` bits, or TRUNCATED_STREAM before any is read; `w = 0` never raises. -/
def execBsReadUint (w : Nat) (s : State) : Result :=
  if w ≠ 0 ∧ s.dp.cn.toNat < s.dp.rptr.toNat + w then .next (raiseError .decodeStep .truncatedStream s)
  else
    .next
      (unitReturns (.num (val ((List.range' s.dp.rptr.toNat w).map (bsBit s)))) (advance w (tick s)))

/-- BS_AT_END (42_bitstream.md R186). -/
def atEnd (s : State) : Bool := decide (s.dp.rptr = s.dp.cn)

/-- BS_AT_END as an operation: it returns `dp.rptr = dp.cn` and writes nothing. -/
def execBsAtEnd (s : State) : Result := .next (unitReturns (.bit (atEnd s)) s)

end Sys2Proof.Machine
end

