-- ==== Sys2Proof/Machine/Tokens.lean ====
section
/-! DEFINITION. The stream's instructions LIT and MATCH (44_decoder.md R235, R236), each from its flag bit at
`dp.rptr` on. The step reads their operands from the stream; a token the stream cuts short raises its error there
already (log 11), and the checks here say the same of a token given directly. -/

namespace Sys2Proof.Machine

/-- `dp.tstart ← dp.rptr`: a token begins (44_decoder.md R233). -/
def markToken (s : State) : State := { s with dp := { s.dp with tstart := s.dp.rptr } }

/-- Bits a decoder reads of a length code before it returns or raises LENGTH_OVERFLOW (41_length_codec.md R165): the
whole code of a length that fits; else the prefix up to the one-bit that is too many, or the prefix and `blen`. -/
def lengthBits (lenW len pad : Nat) : Nat :=
  if len < 2 ^ lenW then (lenCode len pad).length
  else if uMax lenW < bitlen (bitlen len) + 2 then uMax lenW + 1
  else 2 * bitlen (bitlen len) + 2

/-- The literal byte is written and the output grows by one (44_decoder.md R235). -/
def putByte (b : Byte) (s : State) : State :=
  { writeOut s.dp.olen.toNat b s with dp := { s.dp with olen := s.dp.olen + 1 } }

/-- The copy of a match is set up (44_decoder.md R236). -/
def beginCopy (off len : Nat) (s : State) : State :=
  { s with
    dp := { s.dp with coff := BitVec.ofNat 32 off, crem := lenField s.par len, fsm := .dCopy } }

/-- LIT (44_decoder.md R235): TRUNCATED_STREAM if its bits pass the stream's end, OUTPUT_OVERFLOW if OUT is full,
else the byte is appended to OUT. -/
def execLit (b : Byte) (s : State) : Result :=
  if s.dp.cn.toNat < s.dp.rptr.toNat + 9 then
    .next (raiseError .decodeStep .truncatedStream (advance 1 (markToken s)))
  else if s.par.outCap ≤ s.dp.olen.toNat then
    .next (raiseError .decodeStep .outputOverflow (advance 9 (markToken s)))
  else .next (putByte b (advance 9 (markToken s)))

/-- MATCH (44_decoder.md R236), its errors in the rule's order: TRUNCATED_STREAM, LENGTH_OVERFLOW,
DANGLING_REFERENCE, OUTPUT_OVERFLOW; else the copy begins. -/
def execMatch (off len pad : Nat) (s : State) : Result :=
  let need := 1 + s.dp.cow.toNat + lengthBits s.par.lenW len pad
  if s.dp.cn.toNat < s.dp.rptr.toNat + need then
    .next (raiseError .decodeStep .truncatedStream (advance 1 (markToken s)))
  else if 2 ^ s.par.lenW ≤ len then
    .next (raiseError .decodeStep .lengthOverflow (advance need (markToken s)))
  else if off = 0 ∨ s.dp.olen.toNat < off then
    .next (raiseError .decodeStep .danglingReference (advance need (markToken s)))
  else if s.par.outCap < s.dp.olen.toNat + len then
    .next (raiseError .decodeStep .outputOverflow (advance need (markToken s)))
  else .next (beginCopy off len (advance need (markToken s)))

end Sys2Proof.Machine
end

