-- ==== Sys2Proof/Machine/Decoder.lean ====
section
/-! DEFINITION. The Decoder state machine (44_decoder.md): what surrounds the two tokens. -/

namespace Sys2Proof.Machine

/-- The token at the read pointer, read from the bits up to the stream's end (44_decoder.md R233, 30_encoding.md
R119). -/
def fetchToken (s : State) : Parsed Instr := decodeToken s.par.lenW s.dp.cow.toNat (streamBits s)

/-- A token that cannot be read ends DECODE with TRUNCATED_STREAM or LENGTH_OVERFLOW (44_decoder.md R235, R236). -/
def tokenError (e : DecodeError) (used : Nat) (s : State) : State :=
  raiseError .decodeStep (tokenErrCode e) (advance used (markToken s))

/-- DECODE success exit (44_decoder.md R234). -/
def decodeExit (s : State) : State :=
  { s with
    dp := { s.dp with fsm := .idle }
    reg := { s.reg with outLen := s.dp.olen, status := statusDone } }

/-- `dp.crem − 1` in the `LEN_W` bits of the register (10_state.md R34). -/
def copyRest (s : State) : Word := lenField s.par (s.dp.crem - 1).toNat

/-- The core step in state D_COPY: one byte of a match (44_decoder.md R237). -/
def copyStep (s : State) : State :=
  let s' := putByte (outByte s (s.dp.olen.toNat - s.dp.coff.toNat)) (tick s)
  { s' with
    dp :=
      { s'.dp with
        crem := copyRest s
        fsm := if copyRest s = 0 then .dToken else s.dp.fsm } }

end Sys2Proof.Machine
end

