-- ==== Sys2Proof/Machine/Codec.lean ====
section
/-! DEFINITION. The Variable-Length Integer Codec (41_length_codec.md). The code itself is in Decode.lean. -/

namespace Sys2Proof.Machine

/-- The domain of VLC_ENCODE (41_length_codec.md R160). -/
def vlcInDomain (p : Params) (n : Nat) : Bool := decide (1 ≤ n) && decide (n < 2 ^ p.lenW)

/-- VLC_ENCODE (41_length_codec.md R161): the code of `n`, or the model fault outside the domain (R315). -/
def execVlcEncode (n : Nat) (s : State) : Result :=
  if vlcInDomain s.par n then .next (unitReturns (.seq (vlc n)) s) else .fault .vlcEncodeDomain

/-- VLC_DECODE (41_length_codec.md R164, R165): reads a length code from the stream at `dp.rptr`. -/
def execVlcDecode (s : State) : Result :=
  match readLength s.par.lenW (streamBits s) with
  | .ok (n, _) used _ => .next (unitReturns (.num n) (advance used (tick s)))
  | .err e used => .next (raiseError .decodeStep (tokenErrCode e) (advance used (tick s)))

end Sys2Proof.Machine
end

