-- ==== Sys2Proof/Machine/Commands.lean ====
section
/-! DEFINITION. The host's commands (45_host_interface.md R260 to R265). A CMD write while a command runs is ignored
(R265), so each meaning checks `dp.fsm` first. -/

namespace Sys2Proof.Machine

/-- What every command start but NOP does first: STATUS and the error context are cleared (45_host_interface.md R262
to R264). -/
def beginCommand (s : State) : State :=
  { s with reg := { s.reg with status := statusCleared, errBitpos := 0, errBytepos := 0 } }

/-- The configuration is legal: `1 ≤ W ≤ W_MAX` and `2 ≤ LA ≤ LA_MAX` (60_exceptions.md R302). -/
def configLegal (s : State) : Bool :=
  decide (1 ≤ s.reg.windowSize.toNat) && decide (s.reg.windowSize.toNat ≤ s.par.wMax) &&
  decide (2 ≤ s.reg.lookaheadCap.toNat) && decide (s.reg.lookaheadCap.toNat ≤ s.par.laMax)

/-- The configuration snapshot a command takes, with `n` for `dp.cn` (10_state.md R32, 45_host_interface.md R262). -/
def snapshot (n : Word) (s : State) : State :=
  { s with
    dp :=
      { s.dp with
        cw := s.reg.windowSize
        cla := s.reg.lookaheadCap
        cow := BitVec.ofNat 6 (offsetWidth s.reg.windowSize.toNat)
        cmo := BitVec.ofNat 32 (maxOffset s.reg.windowSize.toNat)
        cn := n } }

/-- Acceptance of ENCODE: cursor and write pointer 0, BUSY, E_TOKEN (45_host_interface.md R262). -/
def startEncode (s : State) : State :=
  { s with
    dp := { s.dp with cur := 0, wptr := 0, fsm := .eToken }
    reg := { s.reg with status := statusRunning } }

/-- Acceptance of DECODE: read pointer and output length 0, BUSY, D_TOKEN (45_host_interface.md R263). -/
def startDecode (s : State) : State :=
  { s with
    dp := { s.dp with rptr := 0, olen := 0, fsm := .dToken }
    reg := { s.reg with status := statusRunning } }

/-- `reg.OUT_LEN ← 0` at a DECODE start (45_host_interface.md R263). -/
def clearOutLen (s : State) : State := { s with reg := { s.reg with outLen := 0 } }

/-- NOP (45_host_interface.md R261): nothing happens, busy or not. -/
def execNop (s : State) : Result := .next s

/-- ENCODE start (45_host_interface.md R262). -/
def execEncode (s : State) : Result :=
  if s.dp.fsm ≠ .idle then .next s
  else if configLegal s = false then .next (raiseError .encodeStart .invalidConfiguration (beginCommand s))
  else if s.par.inCap < s.reg.inLen.toNat then .next (raiseError .encodeStart .bufferBound (beginCommand s))
  else .next (startEncode (snapshot s.reg.inLen (beginCommand s)))

/-- DECODE start (45_host_interface.md R263). -/
def execDecode (s : State) : Result :=
  if s.dp.fsm ≠ .idle then .next s
  else if configLegal s = false then
    .next (raiseError .decodeStart .invalidConfiguration (clearOutLen (beginCommand s)))
  else if s.par.bsCap < s.reg.bsLen.toNat then
    .next (raiseError .decodeStart .bufferBound (clearOutLen (beginCommand s)))
  else .next (startDecode (snapshot s.reg.bsLen (clearOutLen (beginCommand s))))

/-- A reserved command: ILLEGAL_COMMAND (45_host_interface.md R264, 60_exceptions.md R308). -/
def execReservedCmd (_op : BitVec 4) (s : State) : Result :=
  if s.dp.fsm ≠ .idle then .next s
  else .next (raiseError .reservedStart .illegalCommand (beginCommand s))

/-- A host write of `v` to CMD (45_host_interface.md R260): dispatch on OPCODE. -/
def cmdWrite (v : Word) (s : State) : Result :=
  let op := v.extractLsb' 0 4
  if op = 0 then execNop s
  else if op = 1 then execEncode s
  else if op = 2 then execDecode s
  else execReservedCmd op s

end Sys2Proof.Machine
end

