-- ==== Sys2Proof/Machine/HostAccess.lean ====
section
/-! DEFINITION. The host's accesses to registers and buffers (45_host_interface.md R266 to R273) under the table of
20_memory.md R96, and the RESET action (70_reset_and_hazards.md R330). -/

namespace Sys2Proof.Machine

/-- DECODE runs (10_state.md R31). -/
def decoding (s : State) : Bool := decide (s.dp.fsm = .dToken) || decide (s.dp.fsm = .dCopy)

/-- REG_READ (45_host_interface.md R266); an offset that is no multiple of 4 is refused (20_memory.md R89). -/
def execRegRead (a : BitVec 8) (s : State) : Result :=
  if a.toNat % 4 ≠ 0 then .refused (.misalignedRegister a)
  else .next (hostReturns (regValue s a) s)

/-- REG_WRITE (45_host_interface.md R267); offset 0 is the command register (R260). -/
def execRegWrite (a : BitVec 8) (v : Word) (s : State) : Result :=
  if a.toNat % 4 ≠ 0 then .refused (.misalignedRegister a)
  else if a = 0 then cmdWrite v s
  else .next { s with reg := regStore s.reg a v }

/-- IN_READ (45_host_interface.md R268, R273). -/
def execInRead (i : Nat) (s : State) : Result :=
  if s.par.inCap ≤ i then .next (hostReturns 0 s)
  else .next (hostReturns ((inByte s i).setWidth 32) (tick s))

/-- IN_WRITE (45_host_interface.md R268, R273): ignored out of range, refused while ENCODE runs (20_memory.md R96). -/
def execInWrite (i : Nat) (b : Byte) (s : State) : Result :=
  if s.par.inCap ≤ i then .next s
  else if s.dp.fsm = .eToken then .refused .inWriteWhileEncode
  else .next { s with inb := Memory.set s.inb i b }

/-- BS_READ_BYTE (45_host_interface.md R269, R273): UNSPECIFIED while ENCODE runs (20_memory.md R96). -/
def execBsReadByte (j : Nat) (s : State) : Result :=
  if s.par.bsCap / 8 ≤ j then .next (hostReturns 0 s)
  else if s.dp.fsm = .eToken then .next (hostReturns ((Config.freeHostRead s.draws j).setWidth 32) (tick s))
  else .next (hostReturns ((bsByte s j).setWidth 32) (tick s))

/-- BS_WRITE_BYTE (45_host_interface.md R270, R273): ignored out of range, refused while a command runs
(20_memory.md R96). -/
def execBsWriteByte (j : Nat) (b : Byte) (s : State) : Result :=
  if s.par.bsCap / 8 ≤ j then .next s
  else if s.dp.fsm ≠ .idle then .refused .bsWriteWhileBusy
  else .next { s with bs := Memory.setMany s.bs (8 * j) (bin b.toNat 8) }

/-- OUT_READ (45_host_interface.md R271, R273): UNSPECIFIED while DECODE runs (20_memory.md R96). -/
def execOutRead (i : Nat) (s : State) : Result :=
  if s.par.outCap ≤ i then .next (hostReturns 0 s)
  else if decoding s then .next (hostReturns ((Config.freeHostRead s.draws i).setWidth 32) (tick s))
  else .next (hostReturns ((outByte s i).setWidth 32) (tick s))

/-- OUT_WRITE (45_host_interface.md R272, R273): ignored. -/
def execOutWrite (_i : Nat) (_b : Byte) (s : State) : Result := .next s

/-- The datapath after the RESET action: IDLE, every register UNSPECIFIED, each within its width (10_state.md R56,
R32 to R34). -/
def freeDp (p : Params) (draw : Nat) : Dp where
  fsm := .idle
  cw := Config.freeWord draw 0
  cla := Config.freeWord draw 1
  cow := (Config.freeWord draw 2).setWidth 6
  cmo := Config.freeWord draw 3
  cn := Config.freeWord draw 4
  cur := Config.freeWord draw 5
  wptr := Config.freeWord draw 6
  rptr := Config.freeWord draw 7
  olen := Config.freeWord draw 8
  tstart := Config.freeWord draw 9
  coff := Config.freeWord draw 10
  crem := lenField p (Config.freeWord draw 11).toNat

/-- RESET (70_reset_and_hazards.md R330, R331): IDLE, every host register at its reset value, every datapath register
UNSPECIFIED, every buffer UNSPECIFIED. The build and the host's side are untouched (log 14). -/
def execReset (s : State) : Result :=
  .next
    { tick s with
      dp := freeDp s.par s.draws
      reg := Regs.zero
      inb := []
      bs := []
      outb := [] }

end Sys2Proof.Machine
end

