-- ==== Sys2Proof/Machine/Matcher.lean ====
section
/-! DEFINITION. The Sliding-Window Matcher (40_matcher.md): the rule's own definition, by direct search. -/

namespace Sys2Proof.Machine

/-- The first window position, `ws = c − min(c, MO)` (40_matcher.md R141). -/
def windowStart (s : State) : Nat := s.dp.cur.toNat - min s.dp.cur.toNat s.dp.cmo.toNat

/-- The longest candidate, `Lmax = min(LA, N − c)` (40_matcher.md R141). -/
def maxLength (s : State) : Nat := min s.dp.cla.toNat (s.dp.cn.toNat - s.dp.cur.toNat)

/-- `occ(L, p)`: the lookahead's first `len` bytes occur at window position `p` (40_matcher.md R142). -/
def occurs (s : State) (len p : Nat) : Bool :=
  decide (windowStart s ≤ p) && decide (p < s.dp.cur.toNat) && decide (1 ≤ len) && decide (len ≤ maxLength s) &&
  (decide (s.par.scope = .overlap) || decide (p + len ≤ s.dp.cur.toNat)) &&
  (List.range len).all fun i => decide (inByte s (p + i) = inByte s (s.dp.cur.toNat + i))

/-- The greatest number below `n` with the property `f`, if there is one. -/
def greatestBelow (f : Nat → Bool) : Nat → Option Nat
  | 0 => none
  | n + 1 => if f n then some n else greatestBelow f n

/-- The nearest (greatest) position at which the prefix of length `len` occurs (40_matcher.md R143, `pbest`). -/
def nearestPos (s : State) (len : Nat) : Option Nat := greatestBelow (occurs s len) s.dp.cur.toNat

/-- The longest length that occurs (40_matcher.md R143, `Lbest`). -/
def longestLength (s : State) : Option Nat :=
  greatestBelow (fun len => (nearestPos s len).isSome) (maxLength s + 1)

/-- The matcher's result `(valid, offset, length)` (40_matcher.md R143). -/
def findMatch (s : State) : Bool × Nat × Nat :=
  match longestLength s with
  | none => (false, 0, 0)
  | some len =>
    match nearestPos s len with
    | none => (false, 0, 0)
    | some p => (true, s.dp.cur.toNat - p, len)

/-- FIND_LONGEST_MATCH as an operation (40_matcher.md R143): it returns the triple and writes nothing of the block. -/
def execFindLongestMatch (s : State) : Result :=
  .next (unitReturns (.triple (findMatch s).1 (findMatch s).2.1 (findMatch s).2.2) (tick s))

end Sys2Proof.Machine
end

