-- ==== Sys2Proof/Machine/Dispatch.lean ====
section
/-! DEFINITION. One arm for each constructor of Instr: the meaning it calls. -/

namespace Sys2Proof.Machine

def exec (i : Instr) (s : State) : Host.Outcome State Fault Refusal :=
  match i with
  | .nop => Sys2Proof.Machine.execNop s
  | .encode => Sys2Proof.Machine.execEncode s
  | .decode => Sys2Proof.Machine.execDecode s
  | .reservedCmd op => Sys2Proof.Machine.execReservedCmd op s
  | .lit b => Sys2Proof.Machine.execLit b s
  | .matchTok off len pad => Sys2Proof.Machine.execMatch off len pad s
  | .bsAppendBit b => Sys2Proof.Machine.execBsAppendBit b s
  | .bsAppendUint v w => Sys2Proof.Machine.execBsAppendUint v w s
  | .bsAppendBits bits => Sys2Proof.Machine.execBsAppendBits bits s
  | .bsReadBit => Sys2Proof.Machine.execBsReadBit s
  | .bsReadUint w => Sys2Proof.Machine.execBsReadUint w s
  | .bsAtEnd => Sys2Proof.Machine.execBsAtEnd s
  | .vlcEncode n => Sys2Proof.Machine.execVlcEncode n s
  | .vlcDecode => Sys2Proof.Machine.execVlcDecode s
  | .findLongestMatch => Sys2Proof.Machine.execFindLongestMatch s
  | .regRead a => Sys2Proof.Machine.execRegRead a s
  | .regWrite a v => Sys2Proof.Machine.execRegWrite a v s
  | .inRead k => Sys2Proof.Machine.execInRead k s
  | .inWrite k b => Sys2Proof.Machine.execInWrite k b s
  | .bsReadByte j => Sys2Proof.Machine.execBsReadByte j s
  | .bsWriteByte j b => Sys2Proof.Machine.execBsWriteByte j b s
  | .outRead k => Sys2Proof.Machine.execOutRead k s
  | .outWrite k b => Sys2Proof.Machine.execOutWrite k b s
  | .reset => Sys2Proof.Machine.execReset s

end Sys2Proof.Machine
end

