-- ==== Sys2Proof/Machine/Encoder.lean ====
section
/-! DEFINITION. The Encoder state machine (43_encoder.md): the core step in state E_TOKEN. -/

namespace Sys2Proof.Machine

/-- `dp.cur ← dp.cur + n`. -/
def advanceCursor (n : Nat) (s : State) : State :=
  { s with dp := { s.dp with cur := s.dp.cur + BitVec.ofNat 32 n } }

/-- Emit LIT (43_encoder.md R205): flag 0, the byte at the cursor, cursor plus 1. -/
def emitLit (s : State) : Result :=
  andThen (appendBit false s) fun s₁ =>
  andThen (appendUint (inByte s s.dp.cur.toNat).toNat 8 s₁) fun s₂ =>
  .next (advanceCursor 1 s₂)

/-- Emit MATCH (43_encoder.md R204): flag 1, the offset in `dp.cow` bits, the length code, cursor plus the length. A
length outside the codec's domain is the model fault of 41_length_codec.md R161. -/
def emitMatch (off len : Nat) (s : State) : Result :=
  andThen (appendBit true s) fun s₁ =>
  andThen (appendUint off s.dp.cow.toNat s₁) fun s₂ =>
  if vlcInDomain s.par len then
    andThen (appendBits (vlc len) s₂) fun s₃ => .next (advanceCursor len s₃)
  else .fault .vlcEncodeDomain

/-- The zero bits from `n` to the next multiple of 8 (43_encoder.md R212). -/
def padding (n : Nat) : Bits := List.replicate (8 * ((n + 7) / 8) - n) false

/-- ENCODE success exit (43_encoder.md R212). -/
def encodeExit (s : State) : State :=
  { s with
    dp := { s.dp with fsm := .idle }
    reg := { s.reg with bsLen := s.dp.wptr, status := statusDone }
    bs := Memory.setMany s.bs s.dp.wptr.toNat (padding s.dp.wptr.toNat) }

/-- The core step in state E_TOKEN (43_encoder.md R203): the success exit at the end of the input, else one token. -/
def encoderStep (s : State) : Result :=
  if s.dp.cur = s.dp.cn then .next (encodeExit s)
  else
    match findMatch s with
    | (valid, off, len) =>
      andThen (if valid && decide (2 ≤ len) then emitMatch off len s else emitLit s) fun s' => .next (tick s')

end Sys2Proof.Machine
end

