-- ==== Sys2Proof/Machine/Turns.lean ====
section
/-! DEFINITION. Whose turn the next step is (10_state.md R30; log 4), and how a word is put where the next step
fetches it (log 5, log 7, log 8). -/

namespace Sys2Proof.Machine

/-- Both agents can move: a command runs and the host has a step to make. -/
def contested (s : State) : Bool := decide (s.dp.fsm ≠ .idle) && !s.hostQ.isEmpty

/-- The agent that moves: the only one that can, or where both can, the one `sched` names; after `sched` the core, so
that it moves eventually (70_reset_and_hazards.md R341). -/
def nextAgent (s : State) : Agent :=
  if s.hostQ.isEmpty then .core
  else if s.dp.fsm = .idle then .host
  else
    match s.sched with
    | [] => .core
    | a :: _ => a

/-- A contested step uses up the head of `sched`. -/
def takeTurn (s : State) : State := if contested s then { s with sched := s.sched.tail } else s

/-- The host's next steps begin with `i`, and the host moves first. -/
def presentHostStep (i : Instr) (s : State) : State :=
  { s with
    hostQ := i :: s.hostQ
    sched := if s.dp.fsm = .idle then s.sched else .host :: s.sched
    unitOp := none }

/-- The sub-block operation `u` is presented. -/
def presentUnit (u : UnitWord) (s : State) : State := { s with unitOp := some u }

/-- A DECODE is at the first token of the stream `bits`, under the configuration of the spec's examples, W = 6 and
LA = 8 (30_encoding.md R113), and the core moves first. -/
def presentStream (bits : Bits) (s : State) : State :=
  { s with
    dp :=
      { s.dp with
        fsm := .dToken
        cw := 6
        cla := 8
        cow := BitVec.ofNat 6 (offsetWidth 6)
        cmo := BitVec.ofNat 32 (maxOffset 6)
        cn := BitVec.ofNat 32 bits.length
        rptr := 0 }
    reg := { s.reg with status := statusRunning }
    bs := Memory.setMany s.bs 0 bits
    sched := if s.hostQ.isEmpty then s.sched else .core :: s.sched
    unitOp := none }

/-- What stands where the next step fetches it. -/
def present (e : Encoding) (s : State) : State :=
  match e with
  | .cmdWord v => presentHostStep (.regWrite 0 v) s
  | .hostAction i => presentHostStep i s
  | .unitWord u => presentUnit u s
  | .tokenBits bits => presentStream bits s

end Sys2Proof.Machine
end

