-- ==== Sys2Proof/Machine/Step.lean ====
section
/-! DEFINITION. One step of the block: one host step or one core step (92_eei_decisions.md D35; 20_memory.md R97). -/

namespace Sys2Proof.Machine

/-- The core step in state D_TOKEN (44_decoder.md R233): the success exit at the end of the stream, else the token at
the read pointer is read and executed, or its error is raised. -/
def tokenStep (s : State) : Result :=
  if atEnd s then .next (decodeExit s)
  else
    match fetchToken s with
    | .ok i _ _ => exec i (tick s)
    | .err e used => .next (tokenError e used (tick s))

/-- One core step (10_state.md R31): none while IDLE, where the block waits and its state stays (60_exceptions.md
R327; log 5). -/
def coreStep (s : State) : Result :=
  match s.dp.fsm with
  | .idle => .next s
  | .eToken => encoderStep s
  | .dToken => tokenStep s
  | .dCopy => .next (copyStep s)

/-- One host step: the oldest of the host's steps still to come (45_host_interface.md). -/
def hostStep (s : State) : Result :=
  match s.hostQ with
  | [] => .next s
  | a :: rest =>
    match decodeAction a with
    | .ok i => exec i { s with hostQ := rest }
    | .error e => .refused (.notAnOperation e)

/-- One sub-block operation presented by its internal code (30_encoding.md R128; log 7). -/
def unitStep (u : UnitWord) (s : State) : Result :=
  match decodeUnit u with
  | .ok i => exec i { s with unitOp := none }
  | .error e => .refused (.notAnOperation e)

/-- One step. A build that is not well-formed has none (00_scope.md R18). -/
def step (s : State) : Host.Outcome State Fault Refusal :=
  if s.par.wf then
    match s.unitOp with
    | some u => unitStep u s
    | none =>
      match nextAgent s with
      | .host => hostStep (takeTurn s)
      | .core => coreStep (takeTurn s)
  else .refused .illFormedBuild

/-- `s` with the word of opcode_table.json stored where `step` fetches its next instruction: a CMD word as the host's
next step, an internal code as the operation presented, a token as the head of the stream of a running DECODE
(log 5, log 8). A word that is none of these is not stored. -/
def State.withFetchWord (s : State) (nbits w : Nat) : State :=
  match tableEncoding nbits w with
  | some e => present e s
  | none => s

end Sys2Proof.Machine
end

