-- ==== Sys2Proof/Safety.lean ====
section
/-! DEFINITION. What counts as a legal state: the invariant the spec's rules keep between steps (10_state.md R31 to
R34, R42; 43_encoder.md R201, R202, R209; 44_decoder.md R231, R236). -/

namespace Sys2Proof.Machine

/-- A buffer is in canonical form with every index below its capacity (10_state.md R57 to R59). -/
abbrev BufferOk {α : Type} (cap : Nat) (m : List (Nat × α)) : Prop :=
  Memory.wf m = true ∧ Memory.below cap m = true

/-- Every index below `n` holds a value. -/
abbrev Filled {α : Type} (n : Nat) (m : List (Nat × α)) : Prop := ∀ i < n, (Memory.get m i).isSome = true

/-- BUSY is 1 exactly when the core is not IDLE; at most one of BUSY, DONE and ERR is 1; an error code stands exactly
beside ERR, from 1 to 7 (10_state.md R31, R42, 60_exceptions.md R300). -/
abbrev StatusOk (s : State) : Prop :=
  (s.reg.status.busy = true ↔ s.dp.fsm ≠ .idle) ∧
  ¬(s.reg.status.busy = true ∧ s.reg.status.done = true) ∧
  ¬(s.reg.status.busy = true ∧ s.reg.status.err = true) ∧
  ¬(s.reg.status.done = true ∧ s.reg.status.err = true) ∧
  (s.reg.status.err = true ↔ s.reg.status.errCode ≠ 0) ∧
  s.reg.status.errCode.toNat ≤ 7

/-- While a command runs its snapshot is a legal configuration with its derived quantities (43_encoder.md R201,
44_decoder.md R231). -/
abbrev SnapshotOk (s : State) : Prop :=
  s.dp.fsm ≠ .idle →
    1 ≤ s.dp.cw.toNat ∧ s.dp.cw.toNat ≤ s.par.wMax ∧
    2 ≤ s.dp.cla.toNat ∧ s.dp.cla.toNat ≤ s.par.laMax ∧
    s.dp.cow.toNat = offsetWidth s.dp.cw.toNat ∧
    s.dp.cmo.toNat = maxOffset s.dp.cw.toNat

/-- While ENCODE runs the cursor lies in the input, the stream written so far holds values and keeps the bound of
43_encoder.md R209 (R201, R202). -/
abbrev EncoderOk (s : State) : Prop :=
  s.dp.fsm = .eToken →
    s.dp.cur.toNat ≤ s.dp.cn.toNat ∧ s.dp.cn.toNat ≤ s.par.inCap ∧
    s.dp.wptr.toNat ≤ s.dp.cur.toNat * bitsPerByte s.dp.cow.toNat ∧
    Filled s.dp.wptr.toNat s.bs

/-- While DECODE runs the read pointer lies in the stream and the output, whose bytes hold values, in OUT
(10_state.md R34, 44_decoder.md R231). -/
abbrev DecoderOk (s : State) : Prop :=
  (s.dp.fsm = .dToken ∨ s.dp.fsm = .dCopy) →
    s.dp.rptr.toNat ≤ s.dp.cn.toNat ∧ s.dp.cn.toNat ≤ s.par.bsCap ∧
    s.dp.olen.toNat ≤ s.par.outCap ∧ Filled s.dp.olen.toNat s.outb

/-- While a match is copied its source lies in the output and its bytes fit OUT (44_decoder.md R236, R237). -/
abbrev CopyOk (s : State) : Prop :=
  s.dp.fsm = .dCopy →
    1 ≤ s.dp.coff.toNat ∧ s.dp.coff.toNat ≤ s.dp.olen.toNat ∧
    1 ≤ s.dp.crem.toNat ∧
    s.dp.olen.toNat + s.dp.crem.toNat ≤ s.par.outCap

/-- `dp.crem` holds what a register of `LEN_W` bits can (10_state.md R34; log 9), in every state of the core. -/
abbrev CopyCountOk (s : State) : Prop := s.dp.crem.toNat < 2 ^ s.par.lenW

/-- OUT_LEN bytes of OUT hold a result (10_state.md R48). -/
abbrev OutputOk (s : State) : Prop := s.reg.outLen.toNat ≤ s.par.outCap ∧ Filled s.reg.outLen.toNat s.outb

/-- A legal state: a well-formed build, no sub-block operation presented from outside (30_encoding.md R128), buffers in
canonical form, and the parts above. -/
structure Inv (s : State) : Prop where
  build : s.par.wf = true
  latch : s.unitOp = none
  inOk : BufferOk s.par.inCap s.inb
  bsOk : BufferOk s.par.bsCap s.bs
  outOk : BufferOk s.par.outCap s.outb
  status : StatusOk s
  snapshot : SnapshotOk s
  encoder : EncoderOk s
  decoder : DecoderOk s
  copy : CopyOk s
  copyCount : CopyCountOk s
  output : OutputOk s

/-- The core is at the end of a command that succeeded: IDLE, STATUS with DONE alone (43_encoder.md R212, 44_decoder.md
R234). -/
abbrev Succeeded (s : State) : Prop :=
  s.dp.fsm = .idle ∧ s.reg.status = { busy := false, done := true, err := false, errCode := 0 }

/-- A core step of DECODE that began in `s` ended in `t` by the error exit with code `code`, for the token that began
at `start` (60_exceptions.md R310, case (b)): IDLE, ERR with the code, the error context, no output; IN, BS, the
configuration registers, the build and the host's side are as before. -/
abbrev EndsInError (code : BitVec 4) (start : Word) (s t : State) : Prop :=
  t.dp.fsm = .idle ∧
  t.reg =
    { s.reg with
      status := { busy := false, done := false, err := true, errCode := code }
      outLen := 0
      errBitpos := start
      errBytepos := s.dp.olen } ∧
  t.outb = [] ∧ t.inb = s.inb ∧ t.bs = s.bs ∧ t.par = s.par ∧
  t.hostQ = s.hostQ ∧ t.rdata = s.rdata ∧ t.unitOp = s.unitOp

end Sys2Proof.Machine
end

