-- ==== Sys2Proof/Certificates/Slice0/Obligations.lean ====
section
/-! DEFINITION. The statements for the provers. Each says in its docstring which rule of spec/ it formalises; a
statement that rests on a choice of the model says so and names the log entry. -/

open Sys2Proof Sys2Proof.Machine

/-! ## Reset -/

/-- 10_state.md R56: after reset the core is IDLE, every host register reads 0, CAP_* read the build's parameters and
FEATURES the word of R52, and no buffer holds a value. (The datapath registers' values and the build are the model's own:
log 1, log 2; nothing is said of them.) -/
def Obligations.ResetRegistersReadAsSpecified : Prop :=
  State.reset.dp.fsm = .idle ∧
  (∀ a ∈ ([0x00, 0x04, 0x08, 0x0C, 0x10, 0x14, 0x18, 0x1C, 0x20, 0x24] : List (BitVec 8)),
    regValue State.reset a = 0) ∧
  regValue State.reset 0x28 = BitVec.ofNat 32 State.reset.par.wMax ∧
  regValue State.reset 0x2C = BitVec.ofNat 32 State.reset.par.laMax ∧
  regValue State.reset 0x30 = BitVec.ofNat 32 State.reset.par.inCap ∧
  regValue State.reset 0x34 = BitVec.ofNat 32 State.reset.par.outCap ∧
  regValue State.reset 0x38 = BitVec.ofNat 32 State.reset.par.bsCap ∧
  regValue State.reset 0x3C =
    BitVec.ofNat 32 (State.reset.par.lenW * 256 + if State.reset.par.scope = .overlap then 1 else 0) ∧
  State.reset.inb = [] ∧ State.reset.bs = [] ∧ State.reset.outb = []

/-- 70_reset_and_hazards.md R330, R331: RESET, at any time, makes the core IDLE and every host register its reset
value, frees every datapath register (the free values of log 3; the zeros of log 2 are State.reset's alone) and every
buffer, records no error, and leaves the constants as they were. That the build and the host's side (`hostQ`, `sched`,
`rdata`) stay as they are is the model's choice, log 14. -/
def Obligations.ResetAbandonsCommand : Prop :=
  ∀ s : State, ∃ t : State,
    exec .reset s = .next t ∧ t.dp.fsm = .idle ∧
    (∀ a ∈ ([0x00, 0x04, 0x08, 0x0C, 0x10, 0x14, 0x18, 0x1C, 0x20, 0x24] : List (BitVec 8)), regValue t a = 0) ∧
    (∀ a ∈ ([0x28, 0x2C, 0x30, 0x34, 0x38, 0x3C] : List (BitVec 8)), regValue t a = regValue s a) ∧
    t.dp = freeDp s.par s.draws ∧
    t.inb = [] ∧ t.bs = [] ∧ t.outb = [] ∧
    t.par = s.par ∧ t.hostQ = s.hostQ ∧ t.sched = s.sched ∧ t.rdata = s.rdata

/-! ## Commands -/

/-- 45_host_interface.md R261: NOP does nothing. -/
def Obligations.NopChangesNothing : Prop := ∀ s : State, exec .nop s = .next s

/-- 43_encoder.md R201 with the acceptance of 45_host_interface.md R262: under a legal configuration and an input that
fits IN, ENCODE written while IDLE loads the snapshot, clears cursor, write pointer, STATUS and the error context, and
changes nothing else. -/
def Obligations.EncodeStartLoadsSnapshot : Prop :=
  ∀ s : State, s.dp.fsm = .idle →
    1 ≤ s.reg.windowSize.toNat → s.reg.windowSize.toNat ≤ s.par.wMax →
    2 ≤ s.reg.lookaheadCap.toNat → s.reg.lookaheadCap.toNat ≤ s.par.laMax →
    s.reg.inLen.toNat ≤ s.par.inCap →
    ∃ cow : BitVec 6, ∃ cmo : Word,
      cow.toNat = bitlen (s.reg.windowSize.toNat - 1) ∧
      cmo.toNat = min s.reg.windowSize.toNat (2 ^ cow.toNat - 1) ∧
      exec .encode s = .next
        { s with
          dp :=
            { s.dp with
              cw := s.reg.windowSize, cla := s.reg.lookaheadCap, cow := cow, cmo := cmo, cn := s.reg.inLen
              cur := 0, wptr := 0, fsm := .eToken }
          reg :=
            { s.reg with
              status := { busy := true, done := false, err := false, errCode := 0 }
              errBitpos := 0, errBytepos := 0 } }

/-- 44_decoder.md R231 with the acceptance of 45_host_interface.md R263: the same for DECODE and a stream that fits
BS; OUT_LEN is cleared too. -/
def Obligations.DecodeStartLoadsSnapshot : Prop :=
  ∀ s : State, s.dp.fsm = .idle →
    1 ≤ s.reg.windowSize.toNat → s.reg.windowSize.toNat ≤ s.par.wMax →
    2 ≤ s.reg.lookaheadCap.toNat → s.reg.lookaheadCap.toNat ≤ s.par.laMax →
    s.reg.bsLen.toNat ≤ s.par.bsCap →
    ∃ cow : BitVec 6, ∃ cmo : Word,
      cow.toNat = bitlen (s.reg.windowSize.toNat - 1) ∧
      cmo.toNat = min s.reg.windowSize.toNat (2 ^ cow.toNat - 1) ∧
      exec .decode s = .next
        { s with
          dp :=
            { s.dp with
              cw := s.reg.windowSize, cla := s.reg.lookaheadCap, cow := cow, cmo := cmo, cn := s.reg.bsLen
              rptr := 0, olen := 0, fsm := .dToken }
          reg :=
            { s.reg with
              status := { busy := true, done := false, err := false, errCode := 0 }
              outLen := 0, errBitpos := 0, errBytepos := 0 } }

/-- 60_exceptions.md R302, R306: ENCODE and DECODE written while IDLE raise INVALID_CONFIGURATION for a configuration
that is not legal, and, checked after it, BUFFER_BOUND for a length past the capacity. ENCODE then has BS_LEN 0, DECODE
OUT_LEN 0 and no OUT byte that holds a value (R310, case (a)); nothing else changes. -/
def Obligations.CommandStartErrors : Prop :=
  ∀ s : State, s.dp.fsm = .idle →
    let illegal := s.reg.windowSize.toNat < 1 ∨ s.par.wMax < s.reg.windowSize.toNat ∨
      s.reg.lookaheadCap.toNat < 2 ∨ s.par.laMax < s.reg.lookaheadCap.toNat
    let encodeEnds (code : BitVec 4) : State :=
      { s with
        reg :=
          { s.reg with
            status := { busy := false, done := false, err := true, errCode := code }
            bsLen := 0, errBitpos := 0, errBytepos := 0 } }
    let decodeEnds (code : BitVec 4) : State :=
      { s with
        reg :=
          { s.reg with
            status := { busy := false, done := false, err := true, errCode := code }
            outLen := 0, errBitpos := 0, errBytepos := 0 }
        outb := [] }
    (illegal → exec .encode s = .next (encodeEnds 1) ∧ exec .decode s = .next (decodeEnds 1)) ∧
    (¬illegal → s.par.inCap < s.reg.inLen.toNat → exec .encode s = .next (encodeEnds 6)) ∧
    (¬illegal → s.par.bsCap < s.reg.bsLen.toNat → exec .decode s = .next (decodeEnds 6))

/-- 45_host_interface.md R264, 60_exceptions.md R308: a reserved command written while IDLE raises ILLEGAL_COMMAND;
BS_LEN, OUT_LEN and every buffer keep their values. -/
def Obligations.ReservedCommandIsIllegal : Prop :=
  ∀ (s : State) (op : BitVec 4), s.dp.fsm = .idle → 3 ≤ op.toNat →
    exec (.reservedCmd op) s = .next
      { s with
        reg :=
          { s.reg with
            status := { busy := false, done := false, err := true, errCode := 7 }
            errBitpos := 0, errBytepos := 0 } }

/-- 45_host_interface.md R260: a write of `v` to CMD is ignored while a command runs, as is every command; while IDLE
it is the command of `v[3:0]`. -/
def Obligations.CommandWriteDispatch : Prop :=
  ∀ (s : State) (v : Word),
    (s.dp.fsm ≠ .idle →
      exec (.regWrite 0x00 v) s = .next s ∧ exec .nop s = .next s ∧ exec .encode s = .next s ∧
      exec .decode s = .next s ∧ ∀ op, exec (.reservedCmd op) s = .next s) ∧
    (s.dp.fsm = .idle →
      (v.toNat % 16 = 0 → exec (.regWrite 0x00 v) s = exec .nop s) ∧
      (v.toNat % 16 = 1 → exec (.regWrite 0x00 v) s = exec .encode s) ∧
      (v.toNat % 16 = 2 → exec (.regWrite 0x00 v) s = exec .decode s) ∧
      (3 ≤ v.toNat % 16 → exec (.regWrite 0x00 v) s = exec (.reservedCmd (BitVec.ofNat 4 v.toNat)) s))

/-- 30_encoding.md R125, R126: the command of a CMD word is that of its bits [3:0]; bits [31:4] are ignored. -/
def Obligations.CommandWordFields : Prop :=
  ∀ (lenW ow : Nat) (v : Word),
    (v.toNat % 16 = 0 → decode lenW ow (.cmdWord v) = .ok .nop) ∧
    (v.toNat % 16 = 1 → decode lenW ow (.cmdWord v) = .ok .encode) ∧
    (v.toNat % 16 = 2 → decode lenW ow (.cmdWord v) = .ok .decode) ∧
    (3 ≤ v.toNat % 16 → decode lenW ow (.cmdWord v) = .ok (.reservedCmd (BitVec.ofNat 4 v.toNat)))

/-! ## The stream's instructions -/

/-- 44_decoder.md R235: LIT appends its byte to OUT; TRUNCATED_STREAM when the stream ends inside it, OUTPUT_OVERFLOW
when OUT is full. -/
def Obligations.LitAppendsByte : Prop :=
  ∀ (s : State) (b : Byte),
    (s.dp.rptr.toNat + 9 ≤ s.dp.cn.toNat → s.dp.olen.toNat < s.par.outCap →
      exec (.lit b) s = .next
        { s with
          outb := Memory.set s.outb s.dp.olen.toNat b
          dp := { s.dp with tstart := s.dp.rptr, rptr := s.dp.rptr + 9, olen := s.dp.olen + 1 } }) ∧
    (s.dp.cn.toNat < s.dp.rptr.toNat + 9 →
      ∃ t, exec (.lit b) s = .next t ∧ EndsInError 2 s.dp.rptr s t) ∧
    (s.dp.rptr.toNat + 9 ≤ s.dp.cn.toNat → s.par.outCap ≤ s.dp.olen.toNat →
      ∃ t, exec (.lit b) s = .next t ∧ EndsInError 5 s.dp.rptr s t)

/-- 44_decoder.md R236: MATCH sets the copy up and enters D_COPY; its errors in the rule's order are TRUNCATED_STREAM,
LENGTH_OVERFLOW, DANGLING_REFERENCE and OUTPUT_OVERFLOW. `lengthBits` is how many bits of the length code are read. -/
def Obligations.MatchBeginsCopy : Prop :=
  ∀ (s : State) (off len pad : Nat),
    let need := 1 + s.dp.cow.toNat + lengthBits s.par.lenW len pad
    let complete := s.dp.rptr.toNat + need ≤ s.dp.cn.toNat
    (complete → len < 2 ^ s.par.lenW → off ≠ 0 → off ≤ s.dp.olen.toNat →
      s.dp.olen.toNat + len ≤ s.par.outCap →
      exec (.matchTok off len pad) s = .next
        { s with
          dp :=
            { s.dp with
              tstart := s.dp.rptr
              rptr := s.dp.rptr + BitVec.ofNat 32 (1 + s.dp.cow.toNat + (lenCode len pad).length)
              coff := BitVec.ofNat 32 off, crem := BitVec.ofNat 32 len, fsm := .dCopy } }) ∧
    (¬complete → ∃ t, exec (.matchTok off len pad) s = .next t ∧ EndsInError 2 s.dp.rptr s t) ∧
    (complete → 2 ^ s.par.lenW ≤ len →
      ∃ t, exec (.matchTok off len pad) s = .next t ∧ EndsInError 4 s.dp.rptr s t) ∧
    (complete → len < 2 ^ s.par.lenW → (off = 0 ∨ s.dp.olen.toNat < off) →
      ∃ t, exec (.matchTok off len pad) s = .next t ∧ EndsInError 3 s.dp.rptr s t) ∧
    (complete → len < 2 ^ s.par.lenW → off ≠ 0 → off ≤ s.dp.olen.toNat →
      s.par.outCap < s.dp.olen.toNat + len →
      ∃ t, exec (.matchTok off len pad) s = .next t ∧ EndsInError 5 s.dp.rptr s t)

/-- 44_decoder.md R237: the core step in D_COPY copies one byte from `dp.coff` behind the end of the output, takes 1 from
`dp.crem`, a register of `LEN_W` bits (10_state.md R34), and returns to D_TOKEN when it becomes 0. -/
def Obligations.CopyStepCopiesOneByte : Prop :=
  ∀ (s : State) (b : Byte), s.dp.fsm = .dCopy → s.dp.coff.toNat ≤ s.dp.olen.toNat →
    Memory.get s.outb (s.dp.olen.toNat - s.dp.coff.toNat) = some b →
    ∃ rest : Word,
      coreStep s = .next
        { s with
          outb := Memory.set s.outb s.dp.olen.toNat b
          dp :=
            { s.dp with
              olen := s.dp.olen + 1
              crem := rest
              fsm := if rest = 0 then .dToken else .dCopy }
          draws := s.draws + 1 } ∧
      rest.toNat < 2 ^ s.par.lenW ∧
      (1 ≤ s.dp.crem.toNat → s.dp.crem.toNat < 2 ^ s.par.lenW → rest.toNat + 1 = s.dp.crem.toNat)

/-- 44_decoder.md R238: a match of `len` bytes at offset `off`, run from its first copy step to its last, writes
`OUT[s + k] = OUT[s − off + (k mod off)]` and changes no byte before. -/
def Obligations.MatchCopyRepeatsPeriod : Prop :=
  ∀ s : State, Inv s → s.dp.fsm = .dCopy → s.hostQ = [] →
    ∃ t : State,
      Host.Core.run Sys2Proof.core s.dp.crem.toNat s = .next t ∧ t.dp.fsm = .dToken ∧
      t.dp.olen.toNat = s.dp.olen.toNat + s.dp.crem.toNat ∧
      (∀ k < s.dp.crem.toNat,
        Memory.get t.outb (s.dp.olen.toNat + k) =
          Memory.get s.outb (s.dp.olen.toNat - s.dp.coff.toNat + k % s.dp.coff.toNat)) ∧
      (∀ i < s.dp.olen.toNat, Memory.get t.outb i = Memory.get s.outb i)

/-- 44_decoder.md R234: at the end of the stream DECODE sets OUT_LEN and DONE, goes to IDLE, and changes nothing
else. -/
def Obligations.DecodeExitPublishesLength : Prop :=
  ∀ s : State, s.dp.fsm = .dToken → s.dp.rptr = s.dp.cn →
    coreStep s = .next
      { s with
        dp := { s.dp with fsm := .idle }
        reg :=
          { s.reg with
            outLen := s.dp.olen
            status := { busy := false, done := true, err := false, errCode := 0 } } }

/-! ## The encoder -/

/-- 43_encoder.md R212: at the end of the input ENCODE sets BS_LEN and DONE, writes zero bits up to the next byte
boundary, goes to IDLE, and changes nothing else. -/
def Obligations.EncodeExitPadsStream : Prop :=
  ∀ s : State, s.dp.fsm = .eToken → s.dp.cur = s.dp.cn →
    ∃ m : List (Nat × Bool),
      coreStep s = .next
        { s with
          dp := { s.dp with fsm := .idle }
          reg :=
            { s.reg with
              bsLen := s.dp.wptr
              status := { busy := false, done := true, err := false, errCode := 0 } }
          bs := m } ∧
      ∀ i, Memory.get m i =
        if s.dp.wptr.toNat ≤ i ∧ i < 8 * ((s.dp.wptr.toNat + 7) / 8) then some false else Memory.get s.bs i

/-- 43_encoder.md R203 to R205: before the end of the input the core step appends one token, the MATCH of the
matcher's result when its length is at least 2 and else the LIT of the byte at the cursor, moves the cursor by the
bytes the token stands for, and changes nothing else. -/
def Obligations.EncoderEmitsOneToken : Prop :=
  ∀ s : State, Inv s → s.dp.fsm = .eToken → s.dp.cur ≠ s.dp.cn →
    let off := (findMatch s).2.1
    let len := (findMatch s).2.2
    let isMatch := (findMatch s).1 = true ∧ 2 ≤ len
    let bits :=
      if isMatch then encodeMatch s.dp.cow.toNat off len 0 else encodeLit (inByte s s.dp.cur.toNat)
    let taken := if isMatch then len else 1
    ∃ m : List (Nat × Bool),
      coreStep s = .next
        { s with
          dp :=
            { s.dp with
              cur := s.dp.cur + BitVec.ofNat 32 taken
              wptr := s.dp.wptr + BitVec.ofNat 32 bits.length }
          bs := m
          draws := s.draws + 1 } ∧
      ∀ i, Memory.get m i =
        if s.dp.wptr.toNat ≤ i ∧ i < s.dp.wptr.toNat + bits.length then bits[i - s.dp.wptr.toNat]?
        else Memory.get s.bs i

/-! ## Steps -/

/-- A step runs the decoded instruction: the sub-block operation presented (30_encoding.md R128; log 7), the host's
next action (45_host_interface.md), or the token at the read pointer (44_decoder.md R233); whose turn it is follows
10_state.md R30 and log 4: the only agent that can move, else the one `sched` names, after `sched` the core. While
IDLE with no host step to come the block waits (log 5). -/
def Obligations.StepRunsDecodedInstruction : Prop :=
  ∀ s : State, s.par.wf = true →
    (∀ u i, s.unitOp = some u → decodeUnit u = .ok i → step s = exec i { s with unitOp := none }) ∧
    (s.unitOp = none →
      (∀ a rest i, s.hostQ = a :: rest → decodeAction a = .ok i → s.dp.fsm = .idle →
        step s = exec i { s with hostQ := rest }) ∧
      (∀ a rest i more, s.hostQ = a :: rest → decodeAction a = .ok i → s.dp.fsm ≠ .idle →
        s.sched = .host :: more → step s = exec i { s with hostQ := rest, sched := more }) ∧
      (∀ more, s.hostQ ≠ [] → s.dp.fsm ≠ .idle → s.sched = .core :: more →
        step s = coreStep { s with sched := more }) ∧
      (s.hostQ ≠ [] → s.dp.fsm ≠ .idle → s.sched = [] → step s = coreStep s) ∧
      (s.hostQ = [] → step s = coreStep s)) ∧
    (s.dp.fsm = .idle → coreStep s = .next s) ∧
    (∀ i used rest, s.dp.fsm = .dToken → s.dp.rptr ≠ s.dp.cn →
      decodeToken s.par.lenW s.dp.cow.toNat (streamBits s) = .ok i used rest →
      coreStep s = exec i { s with draws := s.draws + 1 })

/-- Words written out from the spec's encodings (30_encoding.md R112, R113, R118, R126, R128) decode to the
instructions they stand for. -/
def Obligations.WrittenOutWordsDecode : Prop :=
  decode 21 3 (.cmdWord 0x00000000) = .ok .nop ∧
  decode 21 3 (.cmdWord 0xFFFFFFF1) = .ok .encode ∧
  decode 21 3 (.cmdWord 0x00000002) = .ok .decode ∧
  decode 21 3 (.cmdWord 0x0000000F) = .ok (.reservedCmd 0xF) ∧
  decode 21 3 (.tokenBits [false, false, true, true, false, false, false, false, true]) = .ok (.lit 0x61) ∧
  decode 21 3 (.tokenBits [true, false, true, true, true, true, true, true, false, false, true]) =
    .ok (.matchTok 3 3 0) ∧
  decode 21 3 (.tokenBits [true, false, false, true, true, true, false]) = .ok (.matchTok 1 1 2) ∧
  decode 21 3 (.unitWord { code := 0xC }) = .ok .findLongestMatch ∧
  decode 21 3 (.unitWord { code := 0x3 }) = .error (.unusedCode 0x3)

/-! ## The Bit Stream unit -/

/-- 42_bitstream.md R181: BS_APPEND_BIT writes one bit at the write pointer; at the capacity it is the model fault. -/
def Obligations.AppendBitWritesOneBit : Prop :=
  ∀ (s : State) (b : Bool),
    (s.dp.wptr.toNat < s.par.bsCap →
      exec (.bsAppendBit b) s = .next
        { s with
          bs := Memory.set s.bs s.dp.wptr.toNat b
          dp := { s.dp with wptr := s.dp.wptr + 1 } }) ∧
    (s.par.bsCap ≤ s.dp.wptr.toNat → exec (.bsAppendBit b) s = .fault .bsCapacity)

/-- 42_bitstream.md R182: BS_APPEND_UINT appends the low `w` bits of `v`, most significant first, and nothing else;
`w = 0` appends nothing; an append past the capacity is the model fault of R181. (R182 gives widths up to 32; that a
wider field is appended in the same way is the model's, log 21.) -/
def Obligations.AppendUintWritesField : Prop :=
  ∀ (s : State) (v w : Nat), s.par.wf = true →
    (s.dp.wptr.toNat + w ≤ s.par.bsCap →
      ∃ m : List (Nat × Bool),
        exec (.bsAppendUint v w) s = .next
          { s with bs := m, dp := { s.dp with wptr := s.dp.wptr + BitVec.ofNat 32 w } } ∧
        ∀ i, Memory.get m i =
          if s.dp.wptr.toNat ≤ i ∧ i < s.dp.wptr.toNat + w then
            some (v.testBit (w - 1 - (i - s.dp.wptr.toNat)))
          else Memory.get s.bs i) ∧
    (w = 0 → exec (.bsAppendUint v w) s = .next s) ∧
    (0 < w → s.par.bsCap < s.dp.wptr.toNat + w → exec (.bsAppendUint v w) s = .fault .bsCapacity)

/-- 42_bitstream.md R183: BS_APPEND_BITS appends the sequence's bits in order and nothing else; an append past the
capacity is the model fault of R181. -/
def Obligations.AppendBitsWritesSequence : Prop :=
  ∀ (s : State) (bits : Bits), s.par.wf = true →
    (s.dp.wptr.toNat + bits.length ≤ s.par.bsCap →
      ∃ m : List (Nat × Bool),
        exec (.bsAppendBits bits) s = .next
          { s with bs := m, dp := { s.dp with wptr := s.dp.wptr + BitVec.ofNat 32 bits.length } } ∧
        ∀ i, Memory.get m i =
          if s.dp.wptr.toNat ≤ i ∧ i < s.dp.wptr.toNat + bits.length then bits[i - s.dp.wptr.toNat]?
          else Memory.get s.bs i) ∧
    (bits ≠ [] → s.par.bsCap < s.dp.wptr.toNat + bits.length → exec (.bsAppendBits bits) s = .fault .bsCapacity)

/-- 42_bitstream.md R184: BS_READ_BIT returns the bit at the read pointer and moves past it; at the stream's end it
raises TRUNCATED_STREAM. A bit that holds no value reads as a free one (log 3). (That the error takes DECODE's error exit
also where no DECODE runs is the model's choice, log 7.) -/
def Obligations.ReadBitReturnsNextBit : Prop :=
  ∀ s : State,
    (s.dp.rptr.toNat < s.dp.cn.toNat →
      ∃ v : Bool, (∀ b, Memory.get s.bs s.dp.rptr.toNat = some b → v = b) ∧
        exec .bsReadBit s = .next
          { s with
            unitRes := .bit v
            dp := { s.dp with rptr := s.dp.rptr + 1 }
            draws := s.draws + 1 }) ∧
    (s.dp.cn.toNat ≤ s.dp.rptr.toNat → ∃ t, exec .bsReadBit s = .next t ∧ EndsInError 2 s.dp.tstart s t)

/-- 42_bitstream.md R185: BS_READ_UINT returns the value of the next `w` bits, most significant first, and moves past
them; when they would pass the stream's end it raises TRUNCATED_STREAM; `w = 0` returns 0 and never raises. (That the error
takes DECODE's error exit also where no DECODE runs is the model's choice, log 7; a width above 32, and `w = 0` with the
read pointer past the end, are read by log 21.) -/
def Obligations.ReadUintReturnsField : Prop :=
  ∀ (s : State) (w : Nat),
    ((w = 0 ∨ s.dp.rptr.toNat + w ≤ s.dp.cn.toNat) →
      ∃ bits : Bits, bits.length = w ∧
        (∀ k < w, ∀ b, Memory.get s.bs (s.dp.rptr.toNat + k) = some b → bits[k]? = some b) ∧
        exec (.bsReadUint w) s = .next
          { s with
            unitRes := .num (val bits)
            dp := { s.dp with rptr := s.dp.rptr + BitVec.ofNat 32 w }
            draws := s.draws + 1 }) ∧
    (0 < w → s.dp.cn.toNat < s.dp.rptr.toNat + w →
      ∃ t, exec (.bsReadUint w) s = .next t ∧ EndsInError 2 s.dp.tstart s t)

/-- 42_bitstream.md R186: BS_AT_END returns whether the read pointer is at the stream's end, and writes nothing. -/
def Obligations.AtEndComparesPointers : Prop :=
  ∀ s : State,
    (s.dp.rptr = s.dp.cn → exec .bsAtEnd s = .next { s with unitRes := .bit true }) ∧
    (s.dp.rptr ≠ s.dp.cn → exec .bsAtEnd s = .next { s with unitRes := .bit false })

/-! ## The codec -/

/-- 41_length_codec.md R161: VLC_ENCODE returns the code of `n` in its domain and writes nothing; outside the domain
it is the model fault. -/
def Obligations.VlcEncodeReturnsCode : Prop :=
  ∀ (s : State) (n : Nat),
    (n = 1 → 1 < 2 ^ s.par.lenW → exec (.vlcEncode n) s = .next { s with unitRes := .seq [false] }) ∧
    (2 ≤ n → n < 2 ^ s.par.lenW →
      exec (.vlcEncode n) s = .next
        { s with
          unitRes := .seq
            (List.replicate (bitlen (bitlen n) + 2) true ++ false ::
              (bin (bitlen n - 2 ^ (bitlen (bitlen n) - 1)) (bitlen (bitlen n) - 1) ++
                bin (n - 2 ^ (bitlen n - 1)) (bitlen n - 1))) }) ∧
    ((n = 0 ∨ 2 ^ s.par.lenW ≤ n) → exec (.vlcEncode n) s = .fault .vlcEncodeDomain)

/-- 41_length_codec.md R162: the length of the code; it never falls as `n` grows, and the shortest code of a match
length (2 or 3) has 7 bits. -/
def Obligations.VlcCodeLength : Prop :=
  (vlc 1).length = 1 ∧
  (∀ n, 2 ≤ n → (vlc n).length = 2 * bitlen (bitlen n) + bitlen n + 1) ∧
  (∀ n m, 1 ≤ n → n ≤ m → (vlc n).length ≤ (vlc m).length) ∧
  (vlc 2).length = 7 ∧ (vlc 3).length = 7 ∧ (∀ n, 2 ≤ n → 7 ≤ (vlc n).length)

/-- 41_length_codec.md R167: on the code of `n` and any bits after it, VLC_DECODE returns `n` and reads exactly the
code. -/
def Obligations.VlcRoundTrip : Prop :=
  ∀ (lenW n : Nat) (rest : Bits), 1 ≤ n → n < 2 ^ lenW →
    readLength lenW (vlc n ++ rest) = .ok (n, 0) (vlc n).length rest

/-- 41_length_codec.md R164, R165: VLC_DECODE as an operation, on a stream that goes on with the length code of `n`:
it returns `n`, leaves the read pointer after the code's last bit, and writes nothing else. -/
def Obligations.VlcDecodeReadsCode : Prop :=
  ∀ (s : State) (n pad : Nat) (rest : Bits), 1 ≤ n → n < 2 ^ s.par.lenW → pad ≤ 3 → (pad = 0 ∨ n = 1) →
    streamBits s = lenCode n pad ++ rest →
    exec .vlcDecode s = .next
      { s with
        unitRes := .num n
        dp := { s.dp with rptr := s.dp.rptr + BitVec.ofNat 32 (lenCode n pad).length }
        draws := s.draws + 1 }

/-- 41_length_codec.md R164, R165: where VLC_DECODE raises an error: TRUNCATED_STREAM on a stream that ends inside the
bits the decoder reads of a code, those of a length in range or of one that cannot fit, LENGTH_OVERFLOW on a prefix of more than `U_MAX = bitlen(LEN_W) + 2` one-bits and on a
`blen` above LEN_W. (That an error takes DECODE's error exit also where no DECODE runs is the model's choice, log 7.) -/
def Obligations.VlcDecodeRaisesErrors : Prop :=
  (∀ (s : State) (n pad k : Nat), 1 ≤ s.par.lenW → 1 ≤ n → pad ≤ 3 → (pad = 0 ∨ n = 1) →
    k < lengthBits s.par.lenW n pad → streamBits s = (lenCode n pad).take k →
    ∃ t, exec .vlcDecode s = .next t ∧ EndsInError 2 s.dp.tstart s t) ∧
  (∀ (s : State) (rest : Bits),
    streamBits s = List.replicate (bitlen s.par.lenW + 3) true ++ rest →
    ∃ t, exec .vlcDecode s = .next t ∧ EndsInError 4 s.dp.tstart s t) ∧
  (∀ (s : State) (blenBits rest : Bits) (clen : Nat), 1 ≤ clen → clen ≤ bitlen s.par.lenW →
    blenBits.length = clen - 1 → s.par.lenW < 2 ^ (clen - 1) + val blenBits →
    streamBits s = List.replicate (clen + 2) true ++ false :: (blenBits ++ rest) →
    ∃ t, exec .vlcDecode s = .next t ∧ EndsInError 4 s.dp.tstart s t)

/-- 41_length_codec.md R166: the codes `10`, `110` and `1110` decode to 1 and are the code of no length. -/
def Obligations.NonCanonicalCodesAreOne : Prop :=
  ∀ (lenW k : Nat) (rest : Bits), 1 ≤ lenW → 1 ≤ k → k ≤ 3 →
    readLength lenW (List.replicate k true ++ false :: rest) = .ok (1, k) (k + 1) rest ∧
    ∀ n, 1 ≤ n → vlc n ≠ List.replicate k true ++ [false]

/-- 60_exceptions.md R307: a MATCH whose length code begins with more than `U_MAX = bitlen(LEN_W) + 2` one-bits, or
gives a `blen` above LEN_W, ends DECODE with LENGTH_OVERFLOW at the token's start. -/
def Obligations.LengthOverflowEndsDecode : Prop :=
  (∀ (s : State) (offBits rest : Bits),
    s.dp.fsm = .dToken → offBits.length = s.dp.cow.toNat →
    streamBits s = true :: (offBits ++ (List.replicate (bitlen s.par.lenW + 3) true ++ rest)) →
    ∃ t, coreStep s = .next t ∧ EndsInError 4 s.dp.rptr s t) ∧
  (∀ (s : State) (offBits blenBits rest : Bits) (clen : Nat),
    s.dp.fsm = .dToken → offBits.length = s.dp.cow.toNat →
    1 ≤ clen → clen ≤ bitlen s.par.lenW → blenBits.length = clen - 1 →
    s.par.lenW < 2 ^ (clen - 1) + val blenBits →
    streamBits s = true :: (offBits ++ (List.replicate (clen + 2) true ++ false :: (blenBits ++ rest))) →
    ∃ t, coreStep s = .next t ∧ EndsInError 4 s.dp.rptr s t)

/-- 60_exceptions.md R303, 44_decoder.md R244: a stream that ends inside a token whose own operands are in range ends
DECODE with TRUNCATED_STREAM at the token's start, and with no other error. -/
def Obligations.CutTokenIsTruncated : Prop :=
  ∀ (s : State) (i : Instr) (bits : Bits) (k : Nat),
    s.dp.fsm = .dToken → i.wf s.par.lenW s.dp.cow.toNat = true →
    encode s.dp.cow.toNat i = .tokenBits bits → 0 < k → k < bits.length → streamBits s = bits.take k →
    ∃ t, coreStep s = .next t ∧ EndsInError 2 s.dp.rptr s t

/-! ## The matcher -/

/-- 40_matcher.md R143: FIND_LONGEST_MATCH returns the matcher's triple and writes nothing. -/
def Obligations.MatcherWritesNothing : Prop :=
  ∀ s : State, ∃ (valid : Bool) (off len : Nat),
    findMatch s = (valid, off, len) ∧
    exec .findLongestMatch s = .next { s with unitRes := .triple valid off len, draws := s.draws + 1 }

/-- 40_matcher.md R142: when the prefix of length `L` occurs at position `p`. -/
def Obligations.OccurrenceCondition : Prop :=
  ∀ (s : State) (len p : Nat),
    let c := s.dp.cur.toNat
    let ws := c - min c s.dp.cmo.toNat
    let lmax := min s.dp.cla.toNat (s.dp.cn.toNat - c)
    occurs s len p = true ↔
      (ws ≤ p ∧ p < c ∧ 1 ≤ len ∧ len ≤ lmax ∧ (∀ i < len, inByte s (p + i) = inByte s (c + i)) ∧
        (s.par.scope = .window → p + len ≤ c))

/-- 40_matcher.md R143: the matcher's result is the longest length that occurs, at the greatest position at which
that length occurs; it is invalid exactly when no length occurs. -/
def Obligations.MatcherFindsLongestNearest : Prop :=
  ∀ s : State,
    ((findMatch s).1 = true →
      (findMatch s).2.1 ≤ s.dp.cur.toNat ∧
      occurs s (findMatch s).2.2 (s.dp.cur.toNat - (findMatch s).2.1) = true ∧
      ∀ len p, occurs s len p = true →
        len ≤ (findMatch s).2.2 ∧ (len = (findMatch s).2.2 → p ≤ s.dp.cur.toNat - (findMatch s).2.1)) ∧
    ((findMatch s).1 = false →
      (findMatch s).2.1 = 0 ∧ (findMatch s).2.2 = 0 ∧ ∀ len p, occurs s len p = false)

/-- 40_matcher.md R145: the ranges of the matcher's result. -/
def Obligations.MatcherResultRanges : Prop :=
  ∀ s : State, Inv s → s.dp.fsm = .eToken →
    ((findMatch s).1 = true →
      let off := (findMatch s).2.1
      let len := (findMatch s).2.2
      1 ≤ off ∧ off ≤ s.dp.cur.toNat ∧ off ≤ s.dp.cmo.toNat ∧ off ≤ 2 ^ s.dp.cow.toNat - 1 ∧
      off ≤ s.dp.cw.toNat ∧ 1 ≤ len ∧ len ≤ s.dp.cla.toNat ∧ len ≤ s.dp.cn.toNat - s.dp.cur.toNat ∧
      (s.par.scope = .window → len ≤ off)) ∧
    ((findMatch s).1 = false → (findMatch s).2.1 = 0 ∧ (findMatch s).2.2 = 0)

/-- 40_matcher.md R144: a shorter prefix occurs wherever a longer one does, so the lengths that occur are exactly 1 to
the matcher's length, and the source's loop that grows the prefix until none occurs stops at the same length. -/
def Obligations.MatcherAgreesWithGrowingPrefix : Prop :=
  ∀ s : State,
    (∀ len p, 2 ≤ len → occurs s len p = true → occurs s (len - 1) p = true) ∧
    (∀ len, (∃ p, occurs s len p = true) ↔ 1 ≤ len ∧ len ≤ (findMatch s).2.2)

/-! ## The host's accesses -/

/-- 45_host_interface.md R266: what each REG offset reads as; a read changes nothing else. -/
def Obligations.RegisterReadMap : Prop :=
  ∀ s : State,
    let reads (a : BitVec 8) (v : Word) : Prop := exec (.regRead a) s = .next { s with rdata := v }
    reads 0x00 0 ∧
    reads 0x04 (BitVec.ofNat 32 (s.reg.status.busy.toNat + s.reg.status.done.toNat * 2 +
      s.reg.status.err.toNat * 4 + s.reg.status.errCode.toNat * 256)) ∧
    reads 0x08 s.reg.windowSize ∧ reads 0x0C s.reg.lookaheadCap ∧
    (s.reg.windowSize = 0 → reads 0x10 0) ∧
    (s.reg.windowSize ≠ 0 → reads 0x10 (BitVec.ofNat 32 (bitlen (s.reg.windowSize.toNat - 1)))) ∧
    reads 0x14 s.reg.inLen ∧ reads 0x18 s.reg.bsLen ∧ reads 0x1C s.reg.outLen ∧
    reads 0x20 s.reg.errBitpos ∧ reads 0x24 s.reg.errBytepos ∧
    reads 0x28 (BitVec.ofNat 32 s.par.wMax) ∧ reads 0x2C (BitVec.ofNat 32 s.par.laMax) ∧
    reads 0x30 (BitVec.ofNat 32 s.par.inCap) ∧ reads 0x34 (BitVec.ofNat 32 s.par.outCap) ∧
    reads 0x38 (BitVec.ofNat 32 s.par.bsCap) ∧
    (s.par.scope = .window → reads 0x3C (BitVec.ofNat 32 (s.par.lenW * 256))) ∧
    (s.par.scope = .overlap → reads 0x3C (BitVec.ofNat 32 (s.par.lenW * 256 + 1))) ∧
    (∀ a : BitVec 8, a.toNat % 4 = 0 → 0x40 ≤ a.toNat → reads a 0)

/-- 45_host_interface.md R267 (10_state.md R53, R54): the four read-write registers take every value written, also while
a command runs; a write to another offset changes no state; a write to offset 0 is the command of its word (R260). -/
def Obligations.RegisterWriteMap : Prop :=
  ∀ (s : State) (v : Word),
    exec (.regWrite 0x08 v) s = .next { s with reg := { s.reg with windowSize := v } } ∧
    exec (.regWrite 0x0C v) s = .next { s with reg := { s.reg with lookaheadCap := v } } ∧
    exec (.regWrite 0x14 v) s = .next { s with reg := { s.reg with inLen := v } } ∧
    exec (.regWrite 0x18 v) s = .next { s with reg := { s.reg with bsLen := v } } ∧
    (∀ i, decode s.par.lenW 0 (.cmdWord v) = .ok i → exec (.regWrite 0x00 v) s = exec i s) ∧
    (∀ a : BitVec 8, a.toNat % 4 = 0 → a ≠ 0x00 → a ≠ 0x08 → a ≠ 0x0C → a ≠ 0x14 → a ≠ 0x18 →
      exec (.regWrite a v) s = .next s)

/-- 20_memory.md R89: a register access at an offset that is no multiple of 4 is refused. -/
def Obligations.MisalignedRegisterRefused : Prop :=
  ∀ (s : State) (a : BitVec 8) (v : Word), a.toNat % 4 ≠ 0 →
    exec (.regRead a) s = .refused (.misalignedRegister a) ∧
    exec (.regWrite a v) s = .refused (.misalignedRegister a)

/-- 45_host_interface.md R268, 20_memory.md R96: a host read of IN returns the byte held there (a free value where
none is, log 3) and changes nothing else; a write sets that byte alone, and is refused while ENCODE runs. -/
def Obligations.InByteAccess : Prop :=
  ∀ (s : State) (i : Nat) (b : Byte), i < s.par.inCap →
    (∃ v : Byte, (∀ x, Memory.get s.inb i = some x → v = x) ∧
      exec (.inRead i) s = .next { s with rdata := v.setWidth 32, draws := s.draws + 1 }) ∧
    (s.dp.fsm ≠ .eToken →
      ∃ m : List Host.Cell, exec (.inWrite i b) s = .next { s with inb := m } ∧
        ∀ k, Memory.get m k = if k = i then some b else Memory.get s.inb k) ∧
    (s.dp.fsm = .eToken → exec (.inWrite i b) s = .refused .inWriteWhileEncode)

/-- 45_host_interface.md R269: a host read of BS byte `j` returns its eight bits, the first the most significant; while
ENCODE runs the value is any. It changes nothing else. -/
def Obligations.BsByteRead : Prop :=
  ∀ (s : State) (j : Nat), j < s.par.bsCap / 8 →
    ∃ v : Byte,
      exec (.bsReadByte j) s = .next { s with rdata := v.setWidth 32, draws := s.draws + 1 } ∧
      (s.dp.fsm ≠ .eToken →
        ∀ k < 8, ∀ b, Memory.get s.bs (8 * j + k) = some b → v.getLsbD (7 - k) = b)

/-- 45_host_interface.md R270, 20_memory.md R96: a host write of BS byte `j` sets its eight bits, the first from the
most significant bit of the byte, and nothing else; while a command runs it is refused. -/
def Obligations.BsByteWrite : Prop :=
  ∀ (s : State) (j : Nat) (b : Byte), j < s.par.bsCap / 8 →
    (s.dp.fsm = .idle →
      ∃ m : List (Nat × Bool), exec (.bsWriteByte j b) s = .next { s with bs := m } ∧
        ∀ i, Memory.get m i =
          if 8 * j ≤ i ∧ i < 8 * j + 8 then some (b.getLsbD (7 - (i - 8 * j))) else Memory.get s.bs i) ∧
    (s.dp.fsm ≠ .idle → exec (.bsWriteByte j b) s = .refused .bsWriteWhileBusy)

/-- 20_memory.md R84: the byte view of BS reads back the byte written through it. -/
def Obligations.BsByteReadAfterWrite : Prop :=
  ∀ (s : State) (j : Nat) (b : Byte), s.dp.fsm = .idle → j < s.par.bsCap / 8 →
    ∃ t u : State, exec (.bsWriteByte j b) s = .next t ∧ exec (.bsReadByte j) t = .next u ∧
      u.rdata = b.setWidth 32

/-- 45_host_interface.md R271, R272: a host read of OUT returns the byte held there (any value while DECODE runs, and a
free one where none is held, as after a failed DECODE) and changes nothing else; a write is ignored. -/
def Obligations.OutByteAccess : Prop :=
  ∀ (s : State) (i : Nat) (b : Byte),
    (i < s.par.outCap →
      ∃ v : Byte,
        exec (.outRead i) s = .next { s with rdata := v.setWidth 32, draws := s.draws + 1 } ∧
        (s.dp.fsm ≠ .dToken → s.dp.fsm ≠ .dCopy → ∀ x, Memory.get s.outb i = some x → v = x)) ∧
    exec (.outWrite i b) s = .next s

/-- 45_host_interface.md R273: a host read at an index past a buffer returns 0, a write there is ignored, and nothing
else changes. (That this holds for IN and BS while a command runs too is DEDUCED: log 10.) -/
def Obligations.OutOfRangeIndexHarmless : Prop :=
  ∀ (s : State) (i : Nat) (b : Byte),
    (s.par.inCap ≤ i → exec (.inRead i) s = .next { s with rdata := 0 } ∧ exec (.inWrite i b) s = .next s) ∧
    (s.par.bsCap / 8 ≤ i →
      exec (.bsReadByte i) s = .next { s with rdata := 0 } ∧ exec (.bsWriteByte i b) s = .next s) ∧
    (s.par.outCap ≤ i → exec (.outRead i) s = .next { s with rdata := 0 } ∧ exec (.outWrite i b) s = .next s)

/-! ## Rules of the whole machine -/

/-- 00_scope.md R17: `OW` is the ceiling of `log2 W`; `MAX_OFFSET` is `W − 1` when `W` is a power of two (0 for
`W = 1`) and else `W`. -/
def Obligations.DerivedQuantities : Prop :=
  ∀ w : Nat, 1 ≤ w →
    offsetWidth w = Nat.clog 2 w ∧
    (∀ k, w = 2 ^ k → maxOffset w = w - 1) ∧
    ((∀ k, w ≠ 2 ^ k) → maxOffset w = w)

/-- The state after reset is legal. (The build and the datapath values of `State.reset` are the model's: log 1,
log 2.) -/
def Obligations.ResetStateIsLegal : Prop := Inv State.reset

/-- From every legal state a step, of the host or of the core, leads to a legal state: buffers stay in canonical form
and below their capacities, STATUS stays one of the legal ones with BUSY exactly while a command runs (10_state.md R31,
R42), a running command keeps its snapshot (R32), and cursors, pointers and the copy keep their bounds (R33, R34,
43_encoder.md R202, R209, 44_decoder.md R236). -/
def Obligations.StepKeepsLegalStates : Prop :=
  ∀ s t : State, Inv s → step s = .next t → Inv t

/-- 60_exceptions.md R315: no step from a legal state reaches a model fault; in particular no append of ENCODE passes
the capacity (43_encoder.md R209) and no length leaves the codec's domain (R206). -/
def Obligations.LegalStatesNeverFault : Prop :=
  ∀ s : State, Inv s → ∀ f, step s ≠ .fault f

/-- 43_encoder.md R208: each token step of ENCODE raises the cursor by at least 1 and never past the input's end; so,
with no host step in between, a running ENCODE takes at most one token step for each byte still to encode and one more
step, and ends with success (R213). -/
def Obligations.EncodeRunsToSuccess : Prop :=
  (∀ s t : State, Inv s → s.dp.fsm = .eToken → s.dp.cur ≠ s.dp.cn → coreStep s = .next t →
    s.dp.cur.toNat < t.dp.cur.toNat ∧ t.dp.cur.toNat ≤ t.dp.cn.toNat ∧ t.dp.cn = s.dp.cn ∧ t.dp.fsm = .eToken) ∧
  (∀ s : State, Inv s → s.dp.fsm = .eToken → s.hostQ = [] →
    ∃ k t, k ≤ s.dp.cn.toNat - s.dp.cur.toNat + 1 ∧
      Host.Core.run Sys2Proof.core k s = .next t ∧ Succeeded t)

/-- 44_decoder.md R242: each token step of DECODE reads at least one bit and none past the stream's end, each copy step
lowers `dp.crem`; so, with no host step in between, a running DECODE ends after at most one token step for each bit
still to read, one copy step for each byte still free in OUT, and one more step. -/
def Obligations.DecodeRunsToEnd : Prop :=
  (∀ s t : State, Inv s → s.dp.fsm = .dToken → s.dp.rptr ≠ s.dp.cn → coreStep s = .next t → t.dp.fsm ≠ .idle →
    s.dp.rptr.toNat < t.dp.rptr.toNat ∧ t.dp.rptr.toNat ≤ t.dp.cn.toNat ∧ t.dp.cn = s.dp.cn ∧
    (t.dp.fsm = .dCopy → t.dp.crem.toNat < 2 ^ s.par.lenW)) ∧
  (∀ s t : State, Inv s → s.dp.fsm = .dCopy → coreStep s = .next t → t.dp.crem.toNat < s.dp.crem.toNat) ∧
  (∀ s : State, Inv s → (s.dp.fsm = .dToken ∨ s.dp.fsm = .dCopy) → s.hostQ = [] →
    ∃ k t, k ≤ (s.dp.cn.toNat - s.dp.rptr.toNat) + (s.par.outCap - s.dp.olen.toNat) + 1 ∧
      Host.Core.run Sys2Proof.core k s = .next t ∧ t.dp.fsm = .idle)

/-- 44_decoder.md R243: an input of `N ≤ IN_CAP` bytes with `N ≤ OUT_CAP`, all held in IN, encoded under a legal
configuration and then decoded with the same WINDOW_SIZE (and any legal LOOKAHEAD_CAP) from the BS and BS_LEN that
ENCODE leaves, gives success, OUT_LEN `N` and the input's bytes. It holds of both values of MATCH_SCOPE. -/
def Obligations.DecodeOfEncodeIsIdentity : Prop :=
  ∀ s : State, Inv s → s.dp.fsm = .idle → s.hostQ = [] →
    1 ≤ s.reg.windowSize.toNat → s.reg.windowSize.toNat ≤ s.par.wMax →
    2 ≤ s.reg.lookaheadCap.toNat → s.reg.lookaheadCap.toNat ≤ s.par.laMax →
    s.reg.inLen.toNat ≤ s.par.inCap → s.reg.inLen.toNat ≤ s.par.outCap →
    Filled s.reg.inLen.toNat s.inb →
    ∃ s₁ j s₂,
      exec .encode s = .next s₁ ∧ Host.Core.run Sys2Proof.core j s₁ = .next s₂ ∧ Succeeded s₂ ∧
      ∀ la : Word, 2 ≤ la.toNat → la.toNat ≤ s.par.laMax →
        ∃ s₃ k t,
          exec .decode { s₂ with reg := { s₂.reg with lookaheadCap := la } } = .next s₃ ∧
          Host.Core.run Sys2Proof.core k s₃ = .next t ∧ Succeeded t ∧
          t.reg.outLen = s.reg.inLen ∧
          ∀ i < s.reg.inLen.toNat, Memory.get t.outb i = Memory.get s.inb i

/-- Decoding the encoding of a well-formed instruction gives it back, with every operand at every value its encoding
admits (30_encoding.md R112 to R118, R125 to R128). -/
def Obligations.DecodeInvertsEncode : Prop :=
  ∀ (lenW ow : Nat) (i : Instr), i.wf lenW ow = true → decode lenW ow (encode ow i) = .ok i

/-- 30_encoding.md R119: a token is found from its bits alone, whatever follows it, and no token is a proper first
part of another. -/
def Obligations.TokensAreSelfDelimiting : Prop :=
  ∀ (lenW ow : Nat) (i : Instr) (bits : Bits), i.wf lenW ow = true → encode ow i = .tokenBits bits →
    (∀ rest, decodeToken lenW ow (bits ++ rest) = .ok i bits.length rest) ∧
    (∀ j rest, j.wf lenW ow = true → encode ow j = .tokenBits (bits ++ rest) → j = i ∧ rest = [])

/-- The other direction: bits that decode to a token are the encoding of a well-formed instruction and what follows,
so no bit of a token is dropped (30_encoding.md R112 to R118). -/
def Obligations.DecodedTokenReencodes : Prop :=
  ∀ (lenW ow : Nat) (bs : Bits) (i : Instr) (used : Nat) (rest : Bits), 1 ≤ lenW →
    decodeToken lenW ow bs = .ok i used rest →
    i.wf lenW ow = true ∧
    ∃ bits, encode ow i = .tokenBits bits ∧ bs = bits ++ rest ∧ used = bits.length

/-- 45_host_interface.md R277: the state machine moves by the transitions of the rule's table and no others. A core step
leaves E_TOKEN exactly at the end of the input, leaves D_TOKEN for IDLE only at the end of the stream or with an error,
and leaves D_COPY only for D_TOKEN, exactly when `dp.crem` becomes 0; a host step moves the core only by a command that
starts while IDLE and by RESET. (A sub-block operation presented from outside can end in IDLE too, by an error: log 7.
It moves the core nowhere else.) -/
def Obligations.StateMachineTransitions : Prop :=
  (∀ s t : State, coreStep s = .next t →
    (s.dp.fsm = .idle → t.dp.fsm = .idle) ∧
    (s.dp.fsm = .eToken →
      (s.dp.cur = s.dp.cn → t.dp.fsm = .idle) ∧ (s.dp.cur ≠ s.dp.cn → t.dp.fsm = .eToken)) ∧
    (s.dp.fsm = .dToken →
      (t.dp.fsm = .dToken ∨ t.dp.fsm = .dCopy ∨ t.dp.fsm = .idle) ∧
      (s.dp.rptr = s.dp.cn → t.dp.fsm = .idle) ∧
      (t.dp.fsm = .idle → s.dp.rptr = s.dp.cn ∨ t.reg.status.err = true)) ∧
    (s.dp.fsm = .dCopy →
      (t.dp.crem = 0 → t.dp.fsm = .dToken) ∧ (t.dp.crem ≠ 0 → t.dp.fsm = .dCopy))) ∧
  (∀ (s t : State) (a : Instr) (rest : List Instr), s.hostQ = a :: rest → hostStep s = .next t →
    (s.dp.fsm = .idle → t.dp.fsm ≠ .dCopy) ∧
    (s.dp.fsm ≠ .idle → a ≠ .reset → t.dp.fsm = s.dp.fsm) ∧
    (a = .reset → t.dp.fsm = .idle)) ∧
  (∀ (s t : State) (u : UnitWord), unitStep u s = .next t →
    t.dp.fsm = s.dp.fsm ∨ (t.dp.fsm = .idle ∧ t.reg.status.err = true)) ∧
  (∀ s t : State, step s = .next t →
    (s.dp.fsm, t.dp.fsm) ∈
      ([(.idle, .idle), (.idle, .eToken), (.idle, .dToken),
        (.eToken, .eToken), (.eToken, .idle),
        (.dToken, .dToken), (.dToken, .dCopy), (.dToken, .idle),
        (.dCopy, .dCopy), (.dCopy, .dToken), (.dCopy, .idle)] : List (Fsm × Fsm)))

/-- 10_state.md R32: a running command uses its snapshot, not the host registers: with other values in WINDOW_SIZE,
LOOKAHEAD_CAP and IN_LEN, and for DECODE in BS_LEN, a core step does the same and leaves those values. -/
def Obligations.SnapshotIsolatesCommand : Prop :=
  ∀ (s t : State) (w la n bl : Word), s.dp.fsm ≠ .idle → coreStep s = .next t →
    coreStep { s with reg := { s.reg with windowSize := w, lookaheadCap := la, inLen := n } } =
      .next { t with reg := { t.reg with windowSize := w, lookaheadCap := la, inLen := n } } ∧
    (s.dp.fsm ≠ .eToken →
      coreStep { s with reg := { s.reg with bsLen := bl } } = .next { t with reg := { t.reg with bsLen := bl } })

/-- 10_state.md R57 to R59: no core step changes IN, the configuration registers, the build or the host's side; a step
of ENCODE leaves OUT, OUT_LEN and the error context alone, a step of DECODE leaves BS and BS_LEN alone. -/
def Obligations.CoreStepFrame : Prop :=
  ∀ s t : State, coreStep s = .next t →
    t.par = s.par ∧ t.inb = s.inb ∧ t.hostQ = s.hostQ ∧ t.sched = s.sched ∧ t.rdata = s.rdata ∧
    t.reg.windowSize = s.reg.windowSize ∧ t.reg.lookaheadCap = s.reg.lookaheadCap ∧
    t.reg.inLen = s.reg.inLen ∧
    (s.dp.fsm = .eToken →
      t.outb = s.outb ∧ t.reg.outLen = s.reg.outLen ∧ t.reg.errBitpos = s.reg.errBitpos ∧
      t.reg.errBytepos = s.reg.errBytepos) ∧
    ((s.dp.fsm = .dToken ∨ s.dp.fsm = .dCopy) → t.bs = s.bs ∧ t.reg.bsLen = s.reg.bsLen)

/-- 45_host_interface.md R275: the bits of BS at and past BS_LEN do not affect DECODE: a core step with other bits
there does the same. -/
def Obligations.BitsPastEndDoNotMatter : Prop :=
  ∀ (s t : State) (m : List (Nat × Bool)), (s.dp.fsm = .dToken ∨ s.dp.fsm = .dCopy) →
    (∀ i < s.dp.cn.toNat, Memory.get m i = Memory.get s.bs i) → coreStep s = .next t →
    coreStep { s with bs := m } = .next { t with bs := m }
end

