-- ==== Sys2Proof/Laws/Decode.lean ====
section
/-! SUPPORT. Laws of bit sequences and of the readers of Decode.lean. -/

namespace Sys2Proof

@[simp] theorem length_bin (v w : Nat) : (bin v w).length = w := by
  induction w with
  | zero => rfl
  | succ w ih => simp [bin, ih]

/-- Bit `k` of a field, in stream order, is bit `w − 1 − k` of its value (20_memory.md R82). -/
theorem getElem?_bin (v w k : Nat) (h : k < w) : (bin v w)[k]? = some (v.testBit (w - 1 - k)) := by
  induction w generalizing k with
  | zero => omega
  | succ w ih =>
    cases k with
    | zero => simp [bin]
    | succ k =>
      rw [bin, List.getElem?_cons_succ, ih k (by omega)]
      congr 2
      omega

/-- `val` behind a value already read. -/
theorem foldl_bit_eq (xs : Bits) (acc : Nat) :
    xs.foldl (fun a b => 2 * a + b.toNat) acc = acc * 2 ^ xs.length + val xs := by
  induction xs generalizing acc with
  | nil => simp [val]
  | cons b xs ih =>
    have hv : val (b :: xs) = b.toNat * 2 ^ xs.length + val xs := by
      have := ih b.toNat
      simpa [val] using this
    rw [List.foldl_cons, ih, hv, List.length_cons, pow_succ]
    ring

theorem val_cons (b : Bool) (xs : Bits) : val (b :: xs) = b.toNat * 2 ^ xs.length + val xs := by
  rw [val, List.foldl_cons, foldl_bit_eq]; simp

theorem val_lt (xs : Bits) : val xs < 2 ^ xs.length := by
  induction xs with
  | nil => simp [val]
  | cons b xs ih =>
    rw [val_cons, List.length_cons, pow_succ]
    cases b <;> simp <;> omega

/-- `val(bin(v, w)) = v mod 2^w` (00_scope.md R22). -/
theorem val_bin (v w : Nat) : val (bin v w) = v % 2 ^ w := by
  induction w with
  | zero => simp [bin, val, Nat.mod_one]
  | succ w ih =>
    rw [bin, val_cons, length_bin, ih, Nat.mod_pow_succ, Nat.testBit_eq_decide_div_mod_eq]
    rcases Nat.mod_two_eq_zero_or_one (v / 2 ^ w) with h | h
    · simp [h]
    · simp [h]; omega

/-- Reading the whole of `xs` from the head of a sequence. -/
theorem readUint_append (xs rest : Bits) (acc : Nat) :
    readUint xs.length acc (xs ++ rest) = some (acc * 2 ^ xs.length + val xs, rest) := by
  induction xs generalizing acc with
  | nil => simp [readUint, val]
  | cons b xs ih =>
    rw [List.length_cons, List.cons_append, readUint, ih, val_cons, pow_succ]
    congr 2
    ring

/-- A field read back is the value written (42_bitstream.md R188). -/
theorem readUint_bin (v w acc : Nat) (rest : Bits) :
    readUint w acc (bin v w ++ rest) = some (acc * 2 ^ w + v % 2 ^ w, rest) := by
  have := readUint_append (bin v w) rest acc
  rwa [length_bin, val_bin] at this

theorem readUint_eq_none_iff (w acc : Nat) (bs : Bits) : readUint w acc bs = none ↔ bs.length < w := by
  induction w generalizing acc bs with
  | zero => simp [readUint]
  | succ w ih =>
    cases bs with
    | nil => simp [readUint]
    | cons b bs => simp [readUint, ih]

/-- What a read that succeeds took. -/
theorem readUint_eq_some {w acc n : Nat} {bs rest : Bits} (h : readUint w acc bs = some (n, rest)) :
    bs = bs.take w ++ rest ∧ (bs.take w).length = w ∧ n = acc * 2 ^ w + val (bs.take w) := by
  have hlen : w ≤ bs.length := by
    by_contra hlt
    rw [(readUint_eq_none_iff w acc bs).2 (by omega)] at h
    cases h
  have htake : (bs.take w).length = w := by simp [hlen]
  have key := readUint_append (bs.take w) (bs.drop w) acc
  rw [List.take_append_drop, htake, h] at key
  obtain ⟨hn, hr⟩ := Prod.mk.injEq .. ▸ Option.some.inj key
  exact ⟨by rw [hr, List.take_append_drop], htake, hn⟩

/-- The unary prefix that ends in a zero-bit, when it is not too long. -/
theorem readUnary_replicate (umax u k : Nat) (rest : Bits) (h : u + k ≤ umax) :
    readUnary umax u (List.replicate k true ++ false :: rest) = .ok (u + k) (u + k + 1) rest := by
  induction k generalizing u with
  | zero => simp [readUnary]
  | succ k ih =>
    rw [List.replicate_succ, List.cons_append, readUnary, if_neg (by omega), ih (u + 1) (by omega)]
    congr 1 <;> omega

theorem bitlen_pos {n : Nat} (h : n ≠ 0) : 0 < bitlen n := by simp [bitlen, h]

theorem two_pow_bitlen_le {n : Nat} (h : n ≠ 0) : 2 ^ (bitlen n - 1) ≤ n := by
  simpa [bitlen, h] using Nat.log2_self_le h

theorem lt_two_pow_bitlen (n : Nat) : n < 2 ^ bitlen n := by
  by_cases h : n = 0
  · subst h; simp [bitlen]
  · simpa [bitlen, h] using Nat.lt_log2_self (n := n)

/-- `bitlen(n) ≤ k` exactly when `n` fits `k` bits. -/
theorem bitlen_le_iff (n k : Nat) : bitlen n ≤ k ↔ n < 2 ^ k := by
  by_cases h : n = 0
  · subst h; simp [bitlen]
  · constructor
    · intro hk
      exact (lt_two_pow_bitlen n).trans_le (Nat.pow_le_pow_right (by omega) hk)
    · intro hn
      by_contra hk
      have := two_pow_bitlen_le h
      have := Nat.pow_le_pow_right (n := 2) (by omega) (show k ≤ bitlen n - 1 by omega)
      omega

theorem bitlen_mono {a b : Nat} (h : a ≤ b) : bitlen a ≤ bitlen b :=
  (bitlen_le_iff a _).2 (h.trans_lt (lt_two_pow_bitlen b))

end Sys2Proof
end

