-- ==== Sys2Proof/Laws/Memory.lean ====
section
/-! SUPPORT. The laws of buffers as lists of cells: read after write, and the canonical form is kept. -/

namespace Sys2Proof.Machine

variable {α : Type}

@[simp] theorem Memory.get_nil (a : Nat) : Memory.get ([] : List (Nat × α)) a = none := rfl

@[simp] theorem Memory.get_set_self (m : List (Nat × α)) (a : Nat) (x : α) :
    Memory.get (Memory.set m a x) a = some x := by
  induction m with
  | nil => simp [Memory.set, Memory.get]
  | cons c m ih =>
    obtain ⟨k, v⟩ := c
    by_cases h₁ : a < k
    · simp [Memory.set, Memory.get, h₁]
    · by_cases h₂ : a = k
      · simp [Memory.set, Memory.get, h₂]
      · simp [Memory.set, Memory.get, h₁, h₂, ih]

theorem Memory.get_set_of_ne (m : List (Nat × α)) {a i : Nat} (x : α) (h : i ≠ a) :
    Memory.get (Memory.set m a x) i = Memory.get m i := by
  induction m with
  | nil => simp [Memory.set, Memory.get, h]
  | cons c m ih =>
    obtain ⟨k, v⟩ := c
    by_cases h₁ : a < k
    · simp [Memory.set, Memory.get, h₁, h]
    · by_cases h₂ : a = k
      · subst h₂; simp [Memory.set, Memory.get, h]
      · simp [Memory.set, Memory.get, h₁, h₂, ih]

theorem Memory.get_set (m : List (Nat × α)) (a i : Nat) (x : α) :
    Memory.get (Memory.set m a x) i = if i = a then some x else Memory.get m i := by
  by_cases h : i = a
  · simp [h]
  · simp [h, Memory.get_set_of_ne m x h]

/-- A write of consecutive units changes exactly their indices (00_scope.md R23). -/
theorem Memory.get_setMany (xs : List α) (m : List (Nat × α)) (a i : Nat) :
    Memory.get (Memory.setMany m a xs) i =
      if a ≤ i ∧ i < a + xs.length then xs[i - a]? else Memory.get m i := by
  induction xs generalizing m a with
  | nil =>
    have h : ¬(a ≤ i ∧ i < a + ([] : List α).length) := by simp
    rw [if_neg h]; rfl
  | cons x xs ih =>
    rw [Memory.setMany, ih, Memory.get_set]
    rcases Nat.lt_trichotomy i a with h | h | h
    · rw [if_neg (by omega), if_neg (by omega), if_neg (by omega)]
    · subst h; simp
    · have e : i - a = (i - (a + 1)) + 1 := by omega
      by_cases h' : i < a + (xs.length + 1)
      · rw [if_pos ⟨by omega, by omega⟩, if_pos ⟨by omega, by simpa using h'⟩, e, List.getElem?_cons_succ]
      · rw [if_neg (by omega), if_neg (by omega), if_neg (by simp; omega)]

theorem Memory.risesFrom_set (m : List (Nat × α)) {b a : Nat} (x : α)
    (hm : Memory.risesFrom b m = true) (hb : b < a) : Memory.risesFrom b (Memory.set m a x) = true := by
  induction m generalizing b with
  | nil => simp [Memory.set, Memory.risesFrom, hb]
  | cons c m ih =>
    obtain ⟨k, v⟩ := c
    simp only [Memory.risesFrom, Bool.and_eq_true, decide_eq_true_eq] at hm
    by_cases h₁ : a < k
    · simp [Memory.set, Memory.risesFrom, h₁, hb, hm.2]
    · by_cases h₂ : a = k
      · subst h₂; simp [Memory.set, Memory.risesFrom, hb, hm.2]
      · simp [Memory.set, Memory.risesFrom, h₁, h₂, hm.1, ih hm.2 (by omega)]

/-- A write keeps the canonical form. -/
theorem Memory.wf_set (m : List (Nat × α)) (a : Nat) (x : α) (hm : Memory.wf m = true) :
    Memory.wf (Memory.set m a x) = true := by
  cases m with
  | nil => rfl
  | cons c m =>
    obtain ⟨k, v⟩ := c
    simp only [Memory.wf] at hm
    by_cases h₁ : a < k
    · simp [Memory.set, Memory.wf, Memory.risesFrom, h₁, hm]
    · by_cases h₂ : a = k
      · subst h₂; simp [Memory.set, Memory.wf, hm]
      · simp only [Memory.set, h₁, h₂, if_false, Memory.wf]
        exact Memory.risesFrom_set m x hm (by omega)

/-- A write of consecutive units keeps the canonical form. -/
theorem Memory.wf_setMany (xs : List α) (m : List (Nat × α)) (a : Nat) (hm : Memory.wf m = true) :
    Memory.wf (Memory.setMany m a xs) = true := by
  induction xs generalizing m a with
  | nil => exact hm
  | cons x xs ih => exact ih _ _ (Memory.wf_set m a x hm)

/-- A write below the capacity keeps every index below it. -/
theorem Memory.below_set (m : List (Nat × α)) {cap a : Nat} (x : α) (hm : Memory.below cap m = true)
    (ha : a < cap) : Memory.below cap (Memory.set m a x) = true := by
  induction m with
  | nil => simp [Memory.set, Memory.below, ha]
  | cons c m ih =>
    obtain ⟨k, v⟩ := c
    simp only [Memory.below, List.all_cons, Bool.and_eq_true, decide_eq_true_eq] at hm ih ⊢
    by_cases h₁ : a < k
    · simp [Memory.set, h₁, ha, hm.1, hm.2]
    · by_cases h₂ : a = k
      · subst h₂; simp [Memory.set, ha, hm.2]
      · simp [Memory.set, h₁, h₂, hm.1, ih hm.2]

theorem Memory.below_setMany (xs : List α) (m : List (Nat × α)) {cap a : Nat} (hm : Memory.below cap m = true)
    (ha : a + xs.length ≤ cap) : Memory.below cap (Memory.setMany m a xs) = true := by
  induction xs generalizing m a with
  | nil => exact hm
  | cons x xs ih =>
    simp only [List.length_cons] at ha
    exact ih _ (Memory.below_set m x hm (by omega)) (by omega)

@[simp] theorem Memory.wf_nil : Memory.wf ([] : List (Nat × α)) = true := rfl
@[simp] theorem Memory.below_nil (cap : Nat) : Memory.below cap ([] : List (Nat × α)) = true := rfl

theorem Memory.get_of_risesFrom (m : List (Nat × α)) {b i : Nat} (hm : Memory.risesFrom b m = true) (hi : i ≤ b) :
    Memory.get m i = none := by
  induction m generalizing b with
  | nil => rfl
  | cons c m ih =>
    obtain ⟨k, v⟩ := c
    simp only [Memory.risesFrom, Bool.and_eq_true, decide_eq_true_eq] at hm
    have hk : i ≠ k := by omega
    simp [Memory.get, hk, ih hm.2 (by omega)]

theorem Memory.risesFrom_of_wf {k : Nat} {v : α} {m : List (Nat × α)} (h : Memory.wf ((k, v) :: m) = true) :
    Memory.risesFrom k m = true := h

theorem Memory.wf_of_risesFrom {b : Nat} {m : List (Nat × α)} (h : Memory.risesFrom b m = true) :
    Memory.wf m = true := by
  cases m with
  | nil => rfl
  | cons c m =>
    simp only [Memory.risesFrom, Bool.and_eq_true] at h
    exact h.2

/-- Equal contents are equal data: two canonical lists that hold the same values are the same list. -/
theorem Memory.ext_of_wf (m₁ m₂ : List (Nat × α)) (h₁ : Memory.wf m₁ = true) (h₂ : Memory.wf m₂ = true)
    (h : ∀ i, Memory.get m₁ i = Memory.get m₂ i) : m₁ = m₂ := by
  induction m₁ generalizing m₂ with
  | nil =>
    cases m₂ with
    | nil => rfl
    | cons c m => have := h c.1; simp [Memory.get] at this
  | cons c₁ m₁ ih =>
    cases m₂ with
    | nil => have := h c₁.1; simp [Memory.get] at this
    | cons c₂ m₂ =>
      obtain ⟨k₁, v₁⟩ := c₁
      obtain ⟨k₂, v₂⟩ := c₂
      have r₁ := Memory.risesFrom_of_wf h₁
      have r₂ := Memory.risesFrom_of_wf h₂
      have hk : k₁ = k₂ := by
        by_contra hne
        rcases Nat.lt_or_gt_of_ne hne with hlt | hlt
        · have := h k₁
          rw [Memory.get, if_pos rfl, Memory.get, if_neg hne,
            Memory.get_of_risesFrom m₂ r₂ (by omega)] at this
          simp at this
        · have := h k₂
          rw [Memory.get, if_neg (Ne.symm hne), Memory.get_of_risesFrom m₁ r₁ (by omega), Memory.get,
            if_pos rfl] at this
          simp at this
      subst hk
      have hv : v₁ = v₂ := by have := h k₁; simpa [Memory.get] using this
      subst hv
      congr 1
      refine ih m₂ (Memory.wf_of_risesFrom r₁) (Memory.wf_of_risesFrom r₂) fun i => ?_
      by_cases hi : i = k₁
      · subst hi
        rw [Memory.get_of_risesFrom m₁ r₁ le_rfl, Memory.get_of_risesFrom m₂ r₂ le_rfl]
      · have := h i; simpa [Memory.get, hi] using this

end Sys2Proof.Machine
end

