-- ==== Sys2Proof/Laws/State.lean ====
section
/-! SUPPORT. The fields of State after each named update, one lemma per field and update, and what the error exit
leaves. -/

namespace Sys2Proof.Machine

variable (s : State)

/-! ### tick -/

@[simp] theorem tick_par : (tick s).par = s.par := rfl
@[simp] theorem tick_dp : (tick s).dp = s.dp := rfl
@[simp] theorem tick_reg : (tick s).reg = s.reg := rfl
@[simp] theorem tick_inb : (tick s).inb = s.inb := rfl
@[simp] theorem tick_bs : (tick s).bs = s.bs := rfl
@[simp] theorem tick_outb : (tick s).outb = s.outb := rfl
@[simp] theorem tick_hostQ : (tick s).hostQ = s.hostQ := rfl
@[simp] theorem tick_sched : (tick s).sched = s.sched := rfl
@[simp] theorem tick_rdata : (tick s).rdata = s.rdata := rfl
@[simp] theorem tick_unitOp : (tick s).unitOp = s.unitOp := rfl
@[simp] theorem tick_unitRes : (tick s).unitRes = s.unitRes := rfl
@[simp] theorem tick_draws : (tick s).draws = s.draws + 1 := rfl

/-! ### hostReturns -/

@[simp] theorem hostReturns_par (v : Word) : (hostReturns v s).par = s.par := rfl
@[simp] theorem hostReturns_dp (v : Word) : (hostReturns v s).dp = s.dp := rfl
@[simp] theorem hostReturns_reg (v : Word) : (hostReturns v s).reg = s.reg := rfl
@[simp] theorem hostReturns_inb (v : Word) : (hostReturns v s).inb = s.inb := rfl
@[simp] theorem hostReturns_bs (v : Word) : (hostReturns v s).bs = s.bs := rfl
@[simp] theorem hostReturns_outb (v : Word) : (hostReturns v s).outb = s.outb := rfl
@[simp] theorem hostReturns_hostQ (v : Word) : (hostReturns v s).hostQ = s.hostQ := rfl
@[simp] theorem hostReturns_sched (v : Word) : (hostReturns v s).sched = s.sched := rfl
@[simp] theorem hostReturns_rdata (v : Word) : (hostReturns v s).rdata = v := rfl
@[simp] theorem hostReturns_unitOp (v : Word) : (hostReturns v s).unitOp = s.unitOp := rfl
@[simp] theorem hostReturns_unitRes (v : Word) : (hostReturns v s).unitRes = s.unitRes := rfl
@[simp] theorem hostReturns_draws (v : Word) : (hostReturns v s).draws = s.draws := rfl

/-! ### unitReturns -/

@[simp] theorem unitReturns_par (r : UnitResult) : (unitReturns r s).par = s.par := rfl
@[simp] theorem unitReturns_dp (r : UnitResult) : (unitReturns r s).dp = s.dp := rfl
@[simp] theorem unitReturns_reg (r : UnitResult) : (unitReturns r s).reg = s.reg := rfl
@[simp] theorem unitReturns_inb (r : UnitResult) : (unitReturns r s).inb = s.inb := rfl
@[simp] theorem unitReturns_bs (r : UnitResult) : (unitReturns r s).bs = s.bs := rfl
@[simp] theorem unitReturns_outb (r : UnitResult) : (unitReturns r s).outb = s.outb := rfl
@[simp] theorem unitReturns_hostQ (r : UnitResult) : (unitReturns r s).hostQ = s.hostQ := rfl
@[simp] theorem unitReturns_sched (r : UnitResult) : (unitReturns r s).sched = s.sched := rfl
@[simp] theorem unitReturns_rdata (r : UnitResult) : (unitReturns r s).rdata = s.rdata := rfl
@[simp] theorem unitReturns_unitOp (r : UnitResult) : (unitReturns r s).unitOp = s.unitOp := rfl
@[simp] theorem unitReturns_unitRes (r : UnitResult) : (unitReturns r s).unitRes = r := rfl
@[simp] theorem unitReturns_draws (r : UnitResult) : (unitReturns r s).draws = s.draws := rfl

/-! ### advance -/

@[simp] theorem advance_par (n : Nat) : (advance n s).par = s.par := rfl
@[simp] theorem advance_dp (n : Nat) : (advance n s).dp = { s.dp with rptr := s.dp.rptr + BitVec.ofNat 32 n } := rfl
@[simp] theorem advance_reg (n : Nat) : (advance n s).reg = s.reg := rfl
@[simp] theorem advance_inb (n : Nat) : (advance n s).inb = s.inb := rfl
@[simp] theorem advance_bs (n : Nat) : (advance n s).bs = s.bs := rfl
@[simp] theorem advance_outb (n : Nat) : (advance n s).outb = s.outb := rfl
@[simp] theorem advance_hostQ (n : Nat) : (advance n s).hostQ = s.hostQ := rfl
@[simp] theorem advance_sched (n : Nat) : (advance n s).sched = s.sched := rfl
@[simp] theorem advance_rdata (n : Nat) : (advance n s).rdata = s.rdata := rfl
@[simp] theorem advance_unitOp (n : Nat) : (advance n s).unitOp = s.unitOp := rfl
@[simp] theorem advance_unitRes (n : Nat) : (advance n s).unitRes = s.unitRes := rfl
@[simp] theorem advance_draws (n : Nat) : (advance n s).draws = s.draws := rfl

/-! ### markToken -/

@[simp] theorem markToken_par : (markToken s).par = s.par := rfl
@[simp] theorem markToken_dp : (markToken s).dp = { s.dp with tstart := s.dp.rptr } := rfl
@[simp] theorem markToken_reg : (markToken s).reg = s.reg := rfl
@[simp] theorem markToken_inb : (markToken s).inb = s.inb := rfl
@[simp] theorem markToken_bs : (markToken s).bs = s.bs := rfl
@[simp] theorem markToken_outb : (markToken s).outb = s.outb := rfl
@[simp] theorem markToken_hostQ : (markToken s).hostQ = s.hostQ := rfl
@[simp] theorem markToken_sched : (markToken s).sched = s.sched := rfl
@[simp] theorem markToken_rdata : (markToken s).rdata = s.rdata := rfl
@[simp] theorem markToken_unitOp : (markToken s).unitOp = s.unitOp := rfl
@[simp] theorem markToken_unitRes : (markToken s).unitRes = s.unitRes := rfl
@[simp] theorem markToken_draws : (markToken s).draws = s.draws := rfl

/-! ### writeOut -/

@[simp] theorem writeOut_par (i : Nat) (b : Byte) : (writeOut i b s).par = s.par := rfl
@[simp] theorem writeOut_dp (i : Nat) (b : Byte) : (writeOut i b s).dp = s.dp := rfl
@[simp] theorem writeOut_reg (i : Nat) (b : Byte) : (writeOut i b s).reg = s.reg := rfl
@[simp] theorem writeOut_inb (i : Nat) (b : Byte) : (writeOut i b s).inb = s.inb := rfl
@[simp] theorem writeOut_bs (i : Nat) (b : Byte) : (writeOut i b s).bs = s.bs := rfl
@[simp] theorem writeOut_outb (i : Nat) (b : Byte) : (writeOut i b s).outb = Memory.set s.outb i b := rfl
@[simp] theorem writeOut_hostQ (i : Nat) (b : Byte) : (writeOut i b s).hostQ = s.hostQ := rfl
@[simp] theorem writeOut_sched (i : Nat) (b : Byte) : (writeOut i b s).sched = s.sched := rfl
@[simp] theorem writeOut_rdata (i : Nat) (b : Byte) : (writeOut i b s).rdata = s.rdata := rfl
@[simp] theorem writeOut_unitOp (i : Nat) (b : Byte) : (writeOut i b s).unitOp = s.unitOp := rfl
@[simp] theorem writeOut_unitRes (i : Nat) (b : Byte) : (writeOut i b s).unitRes = s.unitRes := rfl
@[simp] theorem writeOut_draws (i : Nat) (b : Byte) : (writeOut i b s).draws = s.draws := rfl

/-! ### putByte -/

@[simp] theorem putByte_par (b : Byte) : (putByte b s).par = s.par := rfl
@[simp] theorem putByte_dp (b : Byte) : (putByte b s).dp = { s.dp with olen := s.dp.olen + 1 } := rfl
@[simp] theorem putByte_reg (b : Byte) : (putByte b s).reg = s.reg := rfl
@[simp] theorem putByte_inb (b : Byte) : (putByte b s).inb = s.inb := rfl
@[simp] theorem putByte_bs (b : Byte) : (putByte b s).bs = s.bs := rfl
@[simp] theorem putByte_outb (b : Byte) : (putByte b s).outb = Memory.set s.outb s.dp.olen.toNat b := rfl
@[simp] theorem putByte_hostQ (b : Byte) : (putByte b s).hostQ = s.hostQ := rfl
@[simp] theorem putByte_sched (b : Byte) : (putByte b s).sched = s.sched := rfl
@[simp] theorem putByte_rdata (b : Byte) : (putByte b s).rdata = s.rdata := rfl
@[simp] theorem putByte_unitOp (b : Byte) : (putByte b s).unitOp = s.unitOp := rfl
@[simp] theorem putByte_unitRes (b : Byte) : (putByte b s).unitRes = s.unitRes := rfl
@[simp] theorem putByte_draws (b : Byte) : (putByte b s).draws = s.draws := rfl

/-! ### beginCopy -/

@[simp] theorem beginCopy_par (off len : Nat) : (beginCopy off len s).par = s.par := rfl
@[simp] theorem beginCopy_dp (off len : Nat) : (beginCopy off len s).dp = { s.dp with coff := BitVec.ofNat 32 off, crem := lenField s.par len, fsm := .dCopy } := rfl
@[simp] theorem beginCopy_reg (off len : Nat) : (beginCopy off len s).reg = s.reg := rfl
@[simp] theorem beginCopy_inb (off len : Nat) : (beginCopy off len s).inb = s.inb := rfl
@[simp] theorem beginCopy_bs (off len : Nat) : (beginCopy off len s).bs = s.bs := rfl
@[simp] theorem beginCopy_outb (off len : Nat) : (beginCopy off len s).outb = s.outb := rfl
@[simp] theorem beginCopy_hostQ (off len : Nat) : (beginCopy off len s).hostQ = s.hostQ := rfl
@[simp] theorem beginCopy_sched (off len : Nat) : (beginCopy off len s).sched = s.sched := rfl
@[simp] theorem beginCopy_rdata (off len : Nat) : (beginCopy off len s).rdata = s.rdata := rfl
@[simp] theorem beginCopy_unitOp (off len : Nat) : (beginCopy off len s).unitOp = s.unitOp := rfl
@[simp] theorem beginCopy_unitRes (off len : Nat) : (beginCopy off len s).unitRes = s.unitRes := rfl
@[simp] theorem beginCopy_draws (off len : Nat) : (beginCopy off len s).draws = s.draws := rfl

/-! ### advanceCursor -/

@[simp] theorem advanceCursor_par (n : Nat) : (advanceCursor n s).par = s.par := rfl
@[simp] theorem advanceCursor_dp (n : Nat) : (advanceCursor n s).dp = { s.dp with cur := s.dp.cur + BitVec.ofNat 32 n } := rfl
@[simp] theorem advanceCursor_reg (n : Nat) : (advanceCursor n s).reg = s.reg := rfl
@[simp] theorem advanceCursor_inb (n : Nat) : (advanceCursor n s).inb = s.inb := rfl
@[simp] theorem advanceCursor_bs (n : Nat) : (advanceCursor n s).bs = s.bs := rfl
@[simp] theorem advanceCursor_outb (n : Nat) : (advanceCursor n s).outb = s.outb := rfl
@[simp] theorem advanceCursor_hostQ (n : Nat) : (advanceCursor n s).hostQ = s.hostQ := rfl
@[simp] theorem advanceCursor_sched (n : Nat) : (advanceCursor n s).sched = s.sched := rfl
@[simp] theorem advanceCursor_rdata (n : Nat) : (advanceCursor n s).rdata = s.rdata := rfl
@[simp] theorem advanceCursor_unitOp (n : Nat) : (advanceCursor n s).unitOp = s.unitOp := rfl
@[simp] theorem advanceCursor_unitRes (n : Nat) : (advanceCursor n s).unitRes = s.unitRes := rfl
@[simp] theorem advanceCursor_draws (n : Nat) : (advanceCursor n s).draws = s.draws := rfl

/-! ### beginCommand -/

@[simp] theorem beginCommand_par : (beginCommand s).par = s.par := rfl
@[simp] theorem beginCommand_dp : (beginCommand s).dp = s.dp := rfl
@[simp] theorem beginCommand_reg : (beginCommand s).reg = { s.reg with status := statusCleared, errBitpos := 0, errBytepos := 0 } := rfl
@[simp] theorem beginCommand_inb : (beginCommand s).inb = s.inb := rfl
@[simp] theorem beginCommand_bs : (beginCommand s).bs = s.bs := rfl
@[simp] theorem beginCommand_outb : (beginCommand s).outb = s.outb := rfl
@[simp] theorem beginCommand_hostQ : (beginCommand s).hostQ = s.hostQ := rfl
@[simp] theorem beginCommand_sched : (beginCommand s).sched = s.sched := rfl
@[simp] theorem beginCommand_rdata : (beginCommand s).rdata = s.rdata := rfl
@[simp] theorem beginCommand_unitOp : (beginCommand s).unitOp = s.unitOp := rfl
@[simp] theorem beginCommand_unitRes : (beginCommand s).unitRes = s.unitRes := rfl
@[simp] theorem beginCommand_draws : (beginCommand s).draws = s.draws := rfl

/-! ### clearOutLen -/

@[simp] theorem clearOutLen_par : (clearOutLen s).par = s.par := rfl
@[simp] theorem clearOutLen_dp : (clearOutLen s).dp = s.dp := rfl
@[simp] theorem clearOutLen_reg : (clearOutLen s).reg = { s.reg with outLen := 0 } := rfl
@[simp] theorem clearOutLen_inb : (clearOutLen s).inb = s.inb := rfl
@[simp] theorem clearOutLen_bs : (clearOutLen s).bs = s.bs := rfl
@[simp] theorem clearOutLen_outb : (clearOutLen s).outb = s.outb := rfl
@[simp] theorem clearOutLen_hostQ : (clearOutLen s).hostQ = s.hostQ := rfl
@[simp] theorem clearOutLen_sched : (clearOutLen s).sched = s.sched := rfl
@[simp] theorem clearOutLen_rdata : (clearOutLen s).rdata = s.rdata := rfl
@[simp] theorem clearOutLen_unitOp : (clearOutLen s).unitOp = s.unitOp := rfl
@[simp] theorem clearOutLen_unitRes : (clearOutLen s).unitRes = s.unitRes := rfl
@[simp] theorem clearOutLen_draws : (clearOutLen s).draws = s.draws := rfl

/-! ### startEncode -/

@[simp] theorem startEncode_par : (startEncode s).par = s.par := rfl
@[simp] theorem startEncode_dp : (startEncode s).dp = { s.dp with cur := 0, wptr := 0, fsm := .eToken } := rfl
@[simp] theorem startEncode_reg : (startEncode s).reg = { s.reg with status := statusRunning } := rfl
@[simp] theorem startEncode_inb : (startEncode s).inb = s.inb := rfl
@[simp] theorem startEncode_bs : (startEncode s).bs = s.bs := rfl
@[simp] theorem startEncode_outb : (startEncode s).outb = s.outb := rfl
@[simp] theorem startEncode_hostQ : (startEncode s).hostQ = s.hostQ := rfl
@[simp] theorem startEncode_sched : (startEncode s).sched = s.sched := rfl
@[simp] theorem startEncode_rdata : (startEncode s).rdata = s.rdata := rfl
@[simp] theorem startEncode_unitOp : (startEncode s).unitOp = s.unitOp := rfl
@[simp] theorem startEncode_unitRes : (startEncode s).unitRes = s.unitRes := rfl
@[simp] theorem startEncode_draws : (startEncode s).draws = s.draws := rfl

/-! ### startDecode -/

@[simp] theorem startDecode_par : (startDecode s).par = s.par := rfl
@[simp] theorem startDecode_dp : (startDecode s).dp = { s.dp with rptr := 0, olen := 0, fsm := .dToken } := rfl
@[simp] theorem startDecode_reg : (startDecode s).reg = { s.reg with status := statusRunning } := rfl
@[simp] theorem startDecode_inb : (startDecode s).inb = s.inb := rfl
@[simp] theorem startDecode_bs : (startDecode s).bs = s.bs := rfl
@[simp] theorem startDecode_outb : (startDecode s).outb = s.outb := rfl
@[simp] theorem startDecode_hostQ : (startDecode s).hostQ = s.hostQ := rfl
@[simp] theorem startDecode_sched : (startDecode s).sched = s.sched := rfl
@[simp] theorem startDecode_rdata : (startDecode s).rdata = s.rdata := rfl
@[simp] theorem startDecode_unitOp : (startDecode s).unitOp = s.unitOp := rfl
@[simp] theorem startDecode_unitRes : (startDecode s).unitRes = s.unitRes := rfl
@[simp] theorem startDecode_draws : (startDecode s).draws = s.draws := rfl

/-! ### decodeExit -/

@[simp] theorem decodeExit_par : (decodeExit s).par = s.par := rfl
@[simp] theorem decodeExit_dp : (decodeExit s).dp = { s.dp with fsm := .idle } := rfl
@[simp] theorem decodeExit_reg : (decodeExit s).reg = { s.reg with outLen := s.dp.olen, status := statusDone } := rfl
@[simp] theorem decodeExit_inb : (decodeExit s).inb = s.inb := rfl
@[simp] theorem decodeExit_bs : (decodeExit s).bs = s.bs := rfl
@[simp] theorem decodeExit_outb : (decodeExit s).outb = s.outb := rfl
@[simp] theorem decodeExit_hostQ : (decodeExit s).hostQ = s.hostQ := rfl
@[simp] theorem decodeExit_sched : (decodeExit s).sched = s.sched := rfl
@[simp] theorem decodeExit_rdata : (decodeExit s).rdata = s.rdata := rfl
@[simp] theorem decodeExit_unitOp : (decodeExit s).unitOp = s.unitOp := rfl
@[simp] theorem decodeExit_unitRes : (decodeExit s).unitRes = s.unitRes := rfl
@[simp] theorem decodeExit_draws : (decodeExit s).draws = s.draws := rfl

/-! ### encodeExit -/

@[simp] theorem encodeExit_par : (encodeExit s).par = s.par := rfl
@[simp] theorem encodeExit_dp : (encodeExit s).dp = { s.dp with fsm := .idle } := rfl
@[simp] theorem encodeExit_reg : (encodeExit s).reg = { s.reg with bsLen := s.dp.wptr, status := statusDone } := rfl
@[simp] theorem encodeExit_inb : (encodeExit s).inb = s.inb := rfl
@[simp] theorem encodeExit_bs : (encodeExit s).bs = Memory.setMany s.bs s.dp.wptr.toNat (padding s.dp.wptr.toNat) := rfl
@[simp] theorem encodeExit_outb : (encodeExit s).outb = s.outb := rfl
@[simp] theorem encodeExit_hostQ : (encodeExit s).hostQ = s.hostQ := rfl
@[simp] theorem encodeExit_sched : (encodeExit s).sched = s.sched := rfl
@[simp] theorem encodeExit_rdata : (encodeExit s).rdata = s.rdata := rfl
@[simp] theorem encodeExit_unitOp : (encodeExit s).unitOp = s.unitOp := rfl
@[simp] theorem encodeExit_unitRes : (encodeExit s).unitRes = s.unitRes := rfl
@[simp] theorem encodeExit_draws : (encodeExit s).draws = s.draws := rfl

/-! ### snapshot -/

@[simp] theorem snapshot_dp (n : Word) : (snapshot n s).dp =
    { s.dp with
      cw := s.reg.windowSize, cla := s.reg.lookaheadCap
      cow := BitVec.ofNat 6 (offsetWidth s.reg.windowSize.toNat)
      cmo := BitVec.ofNat 32 (maxOffset s.reg.windowSize.toNat), cn := n } := rfl
@[simp] theorem snapshot_par (n : Word) : (snapshot n s).par = s.par := rfl
@[simp] theorem snapshot_reg (n : Word) : (snapshot n s).reg = s.reg := rfl
@[simp] theorem snapshot_inb (n : Word) : (snapshot n s).inb = s.inb := rfl
@[simp] theorem snapshot_bs (n : Word) : (snapshot n s).bs = s.bs := rfl
@[simp] theorem snapshot_outb (n : Word) : (snapshot n s).outb = s.outb := rfl
@[simp] theorem snapshot_hostQ (n : Word) : (snapshot n s).hostQ = s.hostQ := rfl
@[simp] theorem snapshot_sched (n : Word) : (snapshot n s).sched = s.sched := rfl
@[simp] theorem snapshot_rdata (n : Word) : (snapshot n s).rdata = s.rdata := rfl
@[simp] theorem snapshot_unitOp (n : Word) : (snapshot n s).unitOp = s.unitOp := rfl
@[simp] theorem snapshot_unitRes (n : Word) : (snapshot n s).unitRes = s.unitRes := rfl
@[simp] theorem snapshot_draws (n : Word) : (snapshot n s).draws = s.draws := rfl

/-! ### raiseError: what every error exit leaves, and each origin's registers (60_exceptions.md R310) -/

variable (o : Origin) (c : ErrCode)

@[simp] theorem raiseError_dp : (raiseError o c s).dp = { s.dp with fsm := .idle } := by cases o <;> rfl
@[simp] theorem raiseError_status : (raiseError o c s).reg.status = statusError c := by cases o <;> rfl
@[simp] theorem raiseError_par : (raiseError o c s).par = s.par := by cases o <;> rfl
@[simp] theorem raiseError_inb : (raiseError o c s).inb = s.inb := by cases o <;> rfl
@[simp] theorem raiseError_bs : (raiseError o c s).bs = s.bs := by cases o <;> rfl
@[simp] theorem raiseError_hostQ : (raiseError o c s).hostQ = s.hostQ := by cases o <;> rfl
@[simp] theorem raiseError_sched : (raiseError o c s).sched = s.sched := by cases o <;> rfl
@[simp] theorem raiseError_rdata : (raiseError o c s).rdata = s.rdata := by cases o <;> rfl
@[simp] theorem raiseError_unitOp : (raiseError o c s).unitOp = s.unitOp := by cases o <;> rfl
@[simp] theorem raiseError_unitRes : (raiseError o c s).unitRes = s.unitRes := by cases o <;> rfl
@[simp] theorem raiseError_draws : (raiseError o c s).draws = s.draws := by cases o <;> rfl
@[simp] theorem raiseError_windowSize : (raiseError o c s).reg.windowSize = s.reg.windowSize := by cases o <;> rfl
@[simp] theorem raiseError_lookaheadCap : (raiseError o c s).reg.lookaheadCap = s.reg.lookaheadCap := by cases o <;> rfl
@[simp] theorem raiseError_inLen : (raiseError o c s).reg.inLen = s.reg.inLen := by cases o <;> rfl

@[simp] theorem raiseError_encodeStart_reg :
    (raiseError .encodeStart c s).reg = { s.reg with status := statusError c, bsLen := 0 } := rfl
@[simp] theorem raiseError_encodeStart_outb : (raiseError .encodeStart c s).outb = s.outb := rfl
@[simp] theorem raiseError_decodeStart_reg :
    (raiseError .decodeStart c s).reg = { s.reg with status := statusError c, outLen := 0 } := rfl
@[simp] theorem raiseError_decodeStart_outb : (raiseError .decodeStart c s).outb = [] := rfl
@[simp] theorem raiseError_reservedStart_reg :
    (raiseError .reservedStart c s).reg = { s.reg with status := statusError c } := rfl
@[simp] theorem raiseError_reservedStart_outb : (raiseError .reservedStart c s).outb = s.outb := rfl
@[simp] theorem raiseError_decodeStep_reg : (raiseError .decodeStep c s).reg =
    { s.reg with
      status := statusError c, outLen := 0, errBitpos := s.dp.tstart, errBytepos := s.dp.olen } := rfl
@[simp] theorem raiseError_decodeStep_outb : (raiseError .decodeStep c s).outb = [] := rfl

end Sys2Proof.Machine
end

