-- ==== Sys2Proof/Laws/Machine.lean ====
section
/-! SUPPORT. What each shared operation can do, said once: sequencing, appends, the reader's bits, the search of the
matcher, and the cases of a step. -/

namespace Sys2Proof.Machine

/-! ## Sequencing -/

@[simp] theorem andThen_next (s : State) (f : State → Result) : andThen (.next s) f = f s := rfl
@[simp] theorem andThen_fault (e : Fault) (f : State → Result) : andThen (.fault e) f = .fault e := rfl
@[simp] theorem andThen_refused (e : Refusal) (f : State → Result) : andThen (.refused e) f = .refused e := rfl

theorem andThen_eq_next {r : Result} {f : State → Result} {t : State} (h : andThen r f = .next t) :
    ∃ s, r = .next s ∧ f s = .next t := by
  cases r with
  | next s => exact ⟨s, rfl, h⟩
  | fault e => cases h
  | refused e => cases h

/-! ## Appends (42_bitstream.md R181 to R183) -/

theorem appendBit_of_lt (b : Bool) (s : State) (h : s.dp.wptr.toNat < s.par.bsCap) :
    appendBit b s =
      .next { s with bs := Memory.set s.bs s.dp.wptr.toNat b, dp := { s.dp with wptr := s.dp.wptr + 1 } } := by
  rw [appendBit, if_neg (by omega)]

theorem appendBit_of_le (b : Bool) (s : State) (h : s.par.bsCap ≤ s.dp.wptr.toNat) :
    appendBit b s = .fault .bsCapacity := by
  rw [appendBit, if_pos h]

theorem toNat_wptr_succ (s : State) (hc : s.par.bsCap < 2 ^ 32) (h : s.dp.wptr.toNat < s.par.bsCap) :
    (s.dp.wptr + 1).toNat = s.dp.wptr.toNat + 1 := by
  rw [BitVec.toNat_add]
  exact Nat.mod_eq_of_lt (by simp; omega)

/-- Appending a sequence that fits writes its bits from `dp.wptr` on, moves `dp.wptr` behind them, and changes
nothing else. -/
theorem appendBits_of_le (bits : Bits) (s : State) (hc : s.par.bsCap < 2 ^ 32)
    (h : s.dp.wptr.toNat + bits.length ≤ s.par.bsCap) :
    appendBits bits s =
      .next
        { s with
          bs := Memory.setMany s.bs s.dp.wptr.toNat bits
          dp := { s.dp with wptr := s.dp.wptr + BitVec.ofNat 32 bits.length } } := by
  induction bits generalizing s with
  | nil => simp [appendBits, Memory.setMany]
  | cons b bits ih =>
    simp only [List.length_cons] at h
    have hlt : s.dp.wptr.toNat < s.par.bsCap := by omega
    have hw := toNat_wptr_succ s hc hlt
    have hadd : s.dp.wptr + 1 + BitVec.ofNat 32 bits.length = s.dp.wptr + BitVec.ofNat 32 (bits.length + 1) := by
      rw [BitVec.add_assoc, BitVec.ofNat_add, BitVec.add_comm (BitVec.ofNat 32 bits.length)]
      rfl
    rw [appendBits, appendBit_of_lt b s hlt, andThen_next]
    have hle : (s.dp.wptr + 1).toNat + bits.length ≤ s.par.bsCap := by omega
    refine (ih { s with bs := Memory.set s.bs s.dp.wptr.toNat b, dp := { s.dp with wptr := s.dp.wptr + 1 } } hc
      hle).trans ?_
    simp only [hw, Memory.setMany, List.length_cons, hadd]

/-- An append that does not fit is the model fault "BS capacity". -/
theorem appendBits_of_gt (bits : Bits) (s : State) (hc : s.par.bsCap < 2 ^ 32)
    (h : s.par.bsCap < s.dp.wptr.toNat + bits.length) (hb : bits ≠ []) :
    appendBits bits s = .fault .bsCapacity := by
  induction bits generalizing s with
  | nil => exact absurd rfl hb
  | cons b bits ih =>
    simp only [List.length_cons] at h
    by_cases hlt : s.dp.wptr.toNat < s.par.bsCap
    · have hw := toNat_wptr_succ s hc hlt
      have hne : bits ≠ [] := by rintro rfl; simp at h; omega
      rw [appendBits, appendBit_of_lt b s hlt, andThen_next]
      have hgt : s.par.bsCap < (s.dp.wptr + 1).toNat + bits.length := by omega
      exact ih { s with bs := Memory.set s.bs s.dp.wptr.toNat b, dp := { s.dp with wptr := s.dp.wptr + 1 } } hc
        hgt hne
    · rw [appendBits, appendBit_of_le b s (by omega), andThen_fault]

/-! ## The reader's bits -/

@[simp] theorem length_streamBits (s : State) : (streamBits s).length = s.dp.cn.toNat - s.dp.rptr.toNat := by
  simp [streamBits]

theorem streamBits_eq_nil_iff (s : State) : streamBits s = [] ↔ s.dp.cn.toNat ≤ s.dp.rptr.toNat := by
  rw [← List.length_eq_zero_iff, length_streamBits]; omega

/-- Bit `k` of what can still be read is `BS[dp.rptr + k]`. -/
theorem getElem?_streamBits (s : State) (k : Nat) (h : s.dp.rptr.toNat + k < s.dp.cn.toNat) :
    (streamBits s)[k]? = some (bsBit s (s.dp.rptr.toNat + k)) := by
  have hk : k < s.dp.cn.toNat - s.dp.rptr.toNat := by omega
  simp [streamBits, hk]

theorem bsBit_of_get {s : State} {i : Nat} {b : Bool} (h : Memory.get s.bs i = some b) : bsBit s i = b := by
  simp [bsBit, h]

theorem inByte_of_get {s : State} {i : Nat} {b : Byte} (h : Memory.get s.inb i = some b) : inByte s i = b := by
  simp [inByte, h]

theorem outByte_of_get {s : State} {i : Nat} {b : Byte} (h : Memory.get s.outb i = some b) : outByte s i = b := by
  simp [outByte, h]

/-! ## The copy count, a register of `LEN_W` bits (10_state.md R34) -/

theorem toNat_lenField_lt (p : Params) (n : Nat) : (lenField p n).toNat < 2 ^ p.lenW := by
  rw [lenField, BitVec.toNat_ofNat]
  exact (Nat.mod_le _ _).trans_lt (Nat.mod_lt _ (by positivity))

theorem toNat_lenField (p : Params) {n : Nat} (hw : p.lenW ≤ 32) (h : n < 2 ^ p.lenW) : (lenField p n).toNat = n := by
  have := Nat.pow_le_pow_right (n := 2) (by omega) hw
  rw [lenField, BitVec.toNat_ofNat, Nat.mod_eq_of_lt h, Nat.mod_eq_of_lt (by omega)]

/-- A number that fits the field is kept as it is. -/
theorem lenField_of_lt (p : Params) {n : Nat} (h : n < 2 ^ p.lenW) : lenField p n = BitVec.ofNat 32 n := by
  rw [lenField, Nat.mod_eq_of_lt h]

theorem toNat_copyRest (s : State) (hw : s.par.lenW ≤ 32) (h₁ : 1 ≤ s.dp.crem.toNat)
    (h₂ : s.dp.crem.toNat < 2 ^ s.par.lenW) : (copyRest s).toNat + 1 = s.dp.crem.toNat := by
  have e : (s.dp.crem - 1).toNat = s.dp.crem.toNat - 1 := by bv_omega
  rw [copyRest, toNat_lenField s.par hw (by omega), e]
  omega

/-- No bit of `dp.crem` above `LEN_W` is read: two counts that agree in their low `LEN_W` bits leave the same rest. -/
theorem copyRest_congr (s : State) (c : Word) (hw : s.par.lenW ≤ 32)
    (h : c.toNat % 2 ^ s.par.lenW = s.dp.crem.toNat % 2 ^ s.par.lenW) :
    copyRest { s with dp := { s.dp with crem := c } } = copyRest s := by
  have hd : 2 ^ s.par.lenW ∣ 2 ^ 32 := pow_dvd_pow 2 hw
  have key : ∀ v : Word, (v - 1).toNat % 2 ^ s.par.lenW = (2 ^ 32 - 1 + v.toNat) % 2 ^ s.par.lenW := fun v => by
    rw [BitVec.toNat_sub]
    exact Nat.mod_mod_of_dvd _ hd
  simp only [copyRest, lenField]
  rw [key, key, Nat.add_mod, h, ← Nat.add_mod]

/-! ## The search of the matcher -/

theorem greatestBelow_eq_none_iff (f : Nat → Bool) (n : Nat) :
    greatestBelow f n = none ↔ ∀ k < n, f k = false := by
  induction n with
  | zero => simp [greatestBelow]
  | succ n ih =>
    rw [greatestBelow]
    by_cases h : f n = true
    · simp only [h, if_true, reduceCtorEq, false_iff, not_forall]
      exact ⟨n, by omega, by simp [h]⟩
    · rw [if_neg h, ih]
      constructor
      · intro hk k hlt
        rcases Nat.lt_succ_iff_lt_or_eq.1 hlt with hlt | rfl
        · exact hk k hlt
        · simpa using h
      · exact fun hk k hlt => hk k (by omega)

/-- The number found is below the bound, has the property, and no greater one below the bound has it. -/
theorem greatestBelow_eq_some_iff (f : Nat → Bool) (n k : Nat) :
    greatestBelow f n = some k ↔ k < n ∧ f k = true ∧ ∀ j, k < j → j < n → f j = false := by
  induction n with
  | zero => simp [greatestBelow]
  | succ n ih =>
    rw [greatestBelow]
    by_cases h : f n = true
    · rw [if_pos h]
      constructor
      · rintro ⟨⟩
        exact ⟨by omega, h, fun j h₁ h₂ => by omega⟩
      · rintro ⟨h₁, h₂, h₃⟩
        rcases Nat.lt_succ_iff_lt_or_eq.1 h₁ with hlt | rfl
        · rw [h₃ n hlt (by omega)] at h; cases h
        · rfl
    · rw [if_neg h, ih]
      constructor
      · rintro ⟨h₁, h₂, h₃⟩
        refine ⟨by omega, h₂, fun j h₄ h₅ => ?_⟩
        rcases Nat.lt_succ_iff_lt_or_eq.1 h₅ with hlt | rfl
        · exact h₃ j h₄ hlt
        · simpa using h
      · rintro ⟨h₁, h₂, h₃⟩
        rcases Nat.lt_succ_iff_lt_or_eq.1 h₁ with hlt | rfl
        · exact ⟨hlt, h₂, fun j h₄ h₅ => h₃ j h₄ (by omega)⟩
        · exact absurd h₂ h

/-! ## Turns and steps -/

@[simp] theorem takeTurn_of_hostQ_nil (s : State) (h : s.hostQ = []) : takeTurn s = s := by
  simp [takeTurn, contested, h]

@[simp] theorem takeTurn_of_idle (s : State) (h : s.dp.fsm = .idle) : takeTurn s = s := by
  simp [takeTurn, contested, h]

theorem takeTurn_eq (s : State) : takeTurn s = { s with sched := (takeTurn s).sched } := by
  unfold takeTurn; split <;> rfl

/-- Everything a step that answers a next state can be. -/
theorem step_eq_next {s t : State} (h : step s = .next t) :
    s.par.wf = true ∧
    ((∃ u i, s.unitOp = some u ∧ decodeUnit u = .ok i ∧ exec i { s with unitOp := none } = .next t) ∨
     (s.unitOp = none ∧ nextAgent s = .host ∧ hostStep (takeTurn s) = .next t) ∨
     (s.unitOp = none ∧ nextAgent s = .core ∧ coreStep (takeTurn s) = .next t)) := by
  unfold step at h
  by_cases hw : s.par.wf = true
  · rw [if_pos hw] at h
    refine ⟨hw, ?_⟩
    cases hu : s.unitOp with
    | some u =>
      rw [hu] at h
      simp only [unitStep] at h
      cases hd : decodeUnit u with
      | ok i => rw [hd] at h; exact .inl ⟨u, i, rfl, hd, h⟩
      | error e => rw [hd] at h; cases h
    | none =>
      rw [hu] at h
      cases ha : nextAgent s with
      | host => rw [ha] at h; exact .inr (.inl ⟨rfl, rfl, h⟩)
      | core => rw [ha] at h; exact .inr (.inr ⟨rfl, rfl, h⟩)
  · rw [if_neg hw] at h; cases h

end Sys2Proof.Machine
end

