-- ==== Sys2Proof/Machine/HostProgram.lean ====
section
/-! DEFINITION. The notation of streams and host programs (30_encoding.md R130 to R132), host programs whose later steps
depend on the values earlier ones read, and the source's two operations as such programs (45_host_interface.md R274,
R275). -/

namespace Sys2Proof.Machine

/-! ## Streams -/

/-- `LITS "<text>"` (30_encoding.md R132): one LIT for each byte. -/
def lits (text : List Byte) : List Instr := text.map .lit

/-- The stream of a token listing, its offset field `ow` bits wide (30_encoding.md R110, R130). Only tokens have
stream bits. -/
def assemble (ow : Nat) (tokens : List Instr) : Bits :=
  tokens.flatMap fun t =>
    match encode ow t with
    | .tokenBits bits => bits
    | .cmdWord _ => []
    | .unitWord _ => []
    | .hostAction _ => []

/-- The bytes of a bit sequence, most significant bit first (20_memory.md R84). The bits of the last byte behind the
sequence are those of `pad`: any value (45_host_interface.md R275). -/
def packBits (bits pad : Bits) : List Byte :=
  (List.range ((bits.length + 7) / 8)).map fun j =>
    BitVec.ofNat 8 (val ((List.range 8).map fun k => (bits ++ pad).getD (8 * j + k) false))

/-- The first `n` bits of bytes read most significant bit first (45_host_interface.md R274). -/
def unpackBits (n : Nat) (bytes : List Byte) : Bits := (bytes.flatMap fun b => bin b.toNat 8).take n

/-! ## Host programs -/

/-- `WRS IN[i], "<text>"` (30_encoding.md R132). -/
def wrsIn (i : Nat) : List Byte → List Instr
  | [] => []
  | b :: bs => .inWrite i b :: wrsIn (i + 1) bs

/-- `WRB BS[j], …` for consecutive bytes (30_encoding.md R131). -/
def wrbBs (j : Nat) : List Byte → List Instr
  | [] => []
  | b :: bs => .bsWriteByte j b :: wrbBs (j + 1) bs

/-- A host program that ends with a result (30_encoding.md R131). -/
inductive HostProg (α : Type) where
  /-- The program has ended (45_host_interface.md R276). -/
  | done (result : α)
  /-- One host step; the rest may use the value the step reads. -/
  | access (a : Instr) (rest : Word → HostProg α)
  /-- `POLL`: `RD STATUS` until `BUSY = 0`. -/
  | poll (rest : HostProg α)

variable {α : Type}

/-- Host steps whose values are not used, in order. -/
def HostProg.sequence : List Instr → HostProg α → HostProg α
  | [], p => p
  | a :: as, p => .access a fun _ => HostProg.sequence as p

/-- `CALL ENCODE`: `WR CMD, 1` and `POLL` (30_encoding.md R132). -/
def callEncode (rest : HostProg α) : HostProg α := .access (.regWrite 0x00 1) fun _ => .poll rest

/-- `CALL DECODE`: `WR CMD, 2` and `POLL` (30_encoding.md R132). -/
def callDecode (rest : HostProg α) : HostProg α := .access (.regWrite 0x00 2) fun _ => .poll rest

/-- `RDB` of `n` consecutive bytes from index `i` on; a byte is the low 8 bits of the value read (log 6). -/
def readBytes (rdb : Nat → Instr) : Nat → Nat → (List Byte → HostProg α) → HostProg α
  | _, 0, rest => rest []
  | i, n + 1, rest => .access (rdb i) fun v => readBytes rdb (i + 1) n fun bytes => rest (v.setWidth 8 :: bytes)

/-- The source's `encode(S, config)` (45_host_interface.md R274). It ends with the STATUS word and the stream. -/
def encodeProgram (windowSize lookaheadCap : Word) (text : List Byte) : HostProg (Word × Bits) :=
  .sequence [.regWrite 0x08 windowSize, .regWrite 0x0C lookaheadCap] <|
  .sequence (wrsIn 0 text) <|
  .sequence [.regWrite 0x14 (BitVec.ofNat 32 text.length)] <|
  callEncode <|
  .access (.regRead 0x04) fun status =>
  .access (.regRead 0x18) fun bsLen =>
  readBytes .bsReadByte 0 ((bsLen.toNat + 7) / 8) fun bytes => .done (status, unpackBits bsLen.toNat bytes)

/-- The source's `decode(B, config)` (45_host_interface.md R275), the pad bits of the last byte of `bits` those of `pad`.
It ends with the STATUS word and the bytes. -/
def decodeProgram (windowSize lookaheadCap : Word) (bits pad : Bits) : HostProg (Word × List Byte) :=
  .sequence [.regWrite 0x08 windowSize, .regWrite 0x0C lookaheadCap] <|
  .sequence (wrbBs 0 (packBits bits pad)) <|
  .sequence [.regWrite 0x18 (BitVec.ofNat 32 bits.length)] <|
  callDecode <|
  .access (.regRead 0x04) fun status =>
  .access (.regRead 0x1C) fun outLen =>
  readBytes .outRead 0 outLen.toNat fun bytes => .done (status, bytes)

/-! ## Running a host program against the block -/

/-- The host's next step: `POLL` reads STATUS; a program that has ended makes none. -/
def HostProg.offered : HostProg α → List Instr
  | .done _ => []
  | .access a _ => [a]
  | .poll _ => [.regRead 0x04]

/-- The program after its next step read `v`: `POLL` goes on while the BUSY bit of STATUS is 1. -/
def HostProg.resume (v : Word) : HostProg α → HostProg α
  | .done r => .done r
  | .access _ rest => rest v
  | .poll rest => if v.getLsbD 0 then .poll rest else rest

/-- The host's next step stands where `step` fetches it. -/
def HostProg.offer (p : HostProg α) (s : State) : State := { s with hostQ := p.offered }

/-- The step of `s` is a host step. -/
def hostMoves (s : State) : Bool := s.unitOp.isNone && decide (nextAgent s = .host)

/-- One step of the block with the program as its host: the host step on offer, or a core step, as `State.sched` says
(10_state.md R30; log 4, log 5). -/
def HostProg.advance (p : HostProg α) (s : State) : Host.Outcome (HostProg α × State) Fault Refusal :=
  match step (p.offer s) with
  | .next t => .next (if hostMoves (p.offer s) then p.resume t.rdata else p, { t with hostQ := [] })
  | .fault e => .fault e
  | .refused e => .refused e

/-- `n` steps of the block with the program as its host. -/
def HostProg.run : Nat → HostProg α → State → Host.Outcome (HostProg α × State) Fault Refusal
  | 0, p, s => .next (p, s)
  | n + 1, p, s =>
    match p.advance s with
    | .next (q, t) => HostProg.run n q t
    | .fault e => .fault e
    | .refused e => .refused e

/-- The result of a program that has ended with the core IDLE, where alone the rules define it (45_host_interface.md
R276). -/
def HostProg.result (p : HostProg α) (s : State) : Option α :=
  match p with
  | .done r => if s.dp.fsm = .idle then some r else none
  | .access _ _ => none
  | .poll _ => none

end Sys2Proof.Machine
end

