-- ==== Sys2Proof/Laws/HostProgram.lean ====
section
/-! SUPPORT. What one step with a host program does: the host step it offers, or the core's step. -/

namespace Sys2Proof.Machine

variable {α : Type}

@[simp] theorem HostProg.offer_hostQ (p : HostProg α) (s : State) : (p.offer s).hostQ = p.offered := rfl
@[simp] theorem HostProg.offer_dp (p : HostProg α) (s : State) : (p.offer s).dp = s.dp := rfl
@[simp] theorem HostProg.offer_reg (p : HostProg α) (s : State) : (p.offer s).reg = s.reg := rfl
@[simp] theorem HostProg.offer_par (p : HostProg α) (s : State) : (p.offer s).par = s.par := rfl
@[simp] theorem HostProg.offer_sched (p : HostProg α) (s : State) : (p.offer s).sched = s.sched := rfl
@[simp] theorem HostProg.offer_unitOp (p : HostProg α) (s : State) : (p.offer s).unitOp = s.unitOp := rfl

/-- While the core is IDLE the host step on offer is the step, and the program goes on with the value it read. -/
theorem HostProg.advance_of_idle {p : HostProg α} {s t : State} {a i : Instr} (hw : s.par.wf = true)
    (hu : s.unitOp = none) (hf : s.dp.fsm = .idle) (ho : p.offered = [a]) (hd : decodeAction a = .ok i)
    (ht : exec i { s with hostQ := [] } = .next t) :
    p.advance s = .next (p.resume t.rdata, { t with hostQ := [] }) := by
  have hn : nextAgent (p.offer s) = .host := by simp [nextAgent, ho, hf]
  have hs : step (p.offer s) = .next t := by
    rw [step, if_pos (by simpa using hw)]
    simp only [HostProg.offer_unitOp, hu, hn]
    rw [takeTurn_of_idle _ (by simpa using hf), hostStep]
    simp only [HostProg.offer_hostQ, ho, hd]
    exact ht
  rw [HostProg.advance, hs]
  simp [hostMoves, hu, hn]

/-- While a command runs and `sched` is used up, or names the core, the core moves and the program waits. -/
theorem HostProg.advance_of_core {p : HostProg α} {s t : State} (hw : s.par.wf = true) (hu : s.unitOp = none)
    (hn : nextAgent (p.offer s) = .core) (ht : coreStep (takeTurn (p.offer s)) = .next t) :
    p.advance s = .next (p, { t with hostQ := [] }) := by
  have hs : step (p.offer s) = .next t := by
    rw [step, if_pos (by simpa using hw)]
    simp only [HostProg.offer_unitOp, hu, hn]
    exact ht
  rw [HostProg.advance, hs]
  simp [hostMoves, hn]

/-- `POLL` goes on exactly while BUSY reads 1. -/
theorem HostProg.resume_poll (v : Word) (rest : HostProg α) :
    (HostProg.poll rest).resume v = if v.getLsbD 0 then .poll rest else rest := rfl

end Sys2Proof.Machine
end

