-- ==== Sys2Proof/Laws/PerInstr.lean ====
section
/-! SUPPORT. Statements about every instruction as syntax, one lemma for each constructor. -/

namespace Sys2Proof.Laws.EncodingKind

/-- The kind of encoding opcode_table.json gives an instruction, and its size where it has bits: a CMD word, which
says its OPCODE in bits [3:0] and zeros above (30_encoding.md R125); a token of 9 bits, or of 1, the offset width and
the length code together (R112, R113); an internal code (R128); a host action, which has none. -/
def Statement (i : Instr) : Prop :=
  ∀ lenW ow, i.wf lenW ow = true →
    match encode ow i with
    | .cmdWord v => v.toNat < 16
    | .tokenBits bits =>
      (∃ b, i = .lit b ∧ bits.length = 9) ∨
        ∃ off len pad, i = .matchTok off len pad ∧ bits.length = 1 + ow + (lenCode len pad).length
    | .unitWord u => decodeUnit u ≠ .error (.unusedCode u.code)
    | .hostAction j => j = i

theorem nop : Statement .nop := fun _ _ _ => by simp [encode]
theorem encode : Statement .encode := fun _ _ _ => by simp [Sys2Proof.encode]
theorem decode : Statement .decode := fun _ _ _ => by simp [Sys2Proof.encode]
theorem reservedCmd (op : BitVec 4) : Statement (.reservedCmd op) := fun _ _ _ => by
  have h := op.isLt
  have e : op.toNat % 4294967296 = op.toNat := Nat.mod_eq_of_lt (by omega)
  simp [Sys2Proof.encode, e]; omega
theorem lit (b : Byte) : Statement (.lit b) := fun _ _ _ => .inl ⟨b, rfl, by simp [encodeLit]⟩
theorem matchTok (off len pad : Nat) : Statement (.matchTok off len pad) := fun _ _ _ =>
  .inr ⟨off, len, pad, rfl, by simp [encodeMatch]; omega⟩
theorem bsAppendBit (b : Bool) : Statement (.bsAppendBit b) := fun _ _ _ => by simp [Sys2Proof.encode, decodeUnit]
theorem bsAppendUint (v w : Nat) : Statement (.bsAppendUint v w) := fun _ _ _ => by
  simp [Sys2Proof.encode, decodeUnit]
theorem bsAppendBits (s : Bits) : Statement (.bsAppendBits s) := fun _ _ _ => by simp [Sys2Proof.encode, decodeUnit]
theorem bsReadBit : Statement .bsReadBit := fun _ _ _ => by simp [Sys2Proof.encode, decodeUnit]
theorem bsReadUint (w : Nat) : Statement (.bsReadUint w) := fun _ _ _ => by simp [Sys2Proof.encode, decodeUnit]
theorem bsAtEnd : Statement .bsAtEnd := fun _ _ _ => by simp [Sys2Proof.encode, decodeUnit]
theorem vlcEncode (n : Nat) : Statement (.vlcEncode n) := fun _ _ _ => by simp [Sys2Proof.encode, decodeUnit]
theorem vlcDecode : Statement .vlcDecode := fun _ _ _ => by simp [Sys2Proof.encode, decodeUnit]
theorem findLongestMatch : Statement .findLongestMatch := fun _ _ _ => by simp [Sys2Proof.encode, decodeUnit]
theorem regRead (a : BitVec 8) : Statement (.regRead a) := fun _ _ _ => rfl
theorem regWrite (a : BitVec 8) (v : Word) : Statement (.regWrite a v) := fun _ _ _ => rfl
theorem inRead (k : Nat) : Statement (.inRead k) := fun _ _ _ => rfl
theorem inWrite (k : Nat) (b : Byte) : Statement (.inWrite k b) := fun _ _ _ => rfl
theorem bsReadByte (j : Nat) : Statement (.bsReadByte j) := fun _ _ _ => rfl
theorem bsWriteByte (j : Nat) (b : Byte) : Statement (.bsWriteByte j b) := fun _ _ _ => rfl
theorem outRead (k : Nat) : Statement (.outRead k) := fun _ _ _ => rfl
theorem outWrite (k : Nat) (b : Byte) : Statement (.outWrite k b) := fun _ _ _ => rfl
theorem reset : Statement .reset := fun _ _ _ => rfl

end Sys2Proof.Laws.EncodingKind
end

