-- ==== Sys2Proof/Tests/Slice0.lean ====
section
/-! SUPPORT. The model's own tests: the ill-formed terms WellFormed refuses, words written out from the spec's
encodings, single steps on small states with results taken from the spec's tables, and for each obligation with
hypotheses a state and operands that meet them (`witness_<Name>`). -/

namespace Sys2Proof.Tests

open Sys2Proof.Machine

/-! ## Small states -/

/-- A bit sequence as the spec prints it. -/
def bits01 (xs : List Nat) : Bits := xs.map fun x => x == 1

/-- Cells from index 0 on. -/
def cells {α : Type} (xs : List α) : List (Nat × α) := Memory.setMany [] 0 xs

/-- The state an outcome answers, if it answers one. -/
def nextState : Result → Option State
  | .next s => some s
  | .fault _ => none
  | .refused _ => none

/-- The fault an outcome ends in. -/
def faultOf : Result → Option Fault
  | .next _ => none
  | .fault f => some f
  | .refused _ => none

/-- The refusal an outcome ends in. -/
def refusalOf : Result → Option Refusal
  | .next _ => none
  | .fault _ => none
  | .refused r => some r

/-- A small well-formed build: 8 bytes of IN and OUT, 80 bits of BS (the least R15 allows). -/
def build : Params := { Params.ref with inCap := 8, outCap := 8, bsCap := 80 }

/-- IDLE, W = 6, LA = 8, IN "abcabc". -/
def idle : State :=
  { State.reset with
    par := build
    reg := { Regs.zero with windowSize := 6, lookaheadCap := 8, inLen := 6, bsLen := 9 }
    inb := cells [97, 98, 99, 97, 98, 99]
    bs := cells (bits01 [0, 0, 1, 1, 0, 0, 0, 0, 1]) }

/-- The snapshot of W = 6, LA = 8 (00_scope.md R17: OW 3, MAX_OFFSET 6). -/
def running (fsm : Fsm) (s : State) : State :=
  { s with
    dp := { s.dp with fsm := fsm, cw := 6, cla := 8, cow := 3, cmo := 6 }
    reg := { s.reg with status := statusRunning } }

/-- ENCODE of "abcabc" behind its third literal. -/
def enc : State :=
  let s := running .eToken idle
  { s with
    dp := { s.dp with cn := 6, cur := 3, wptr := 27 }
    bs := cells (encodeLit 97 ++ encodeLit 98 ++ encodeLit 99) }

/-- DECODE at the first token of a stream. -/
def dec (stream : Bits) : State :=
  let s := running .dToken idle
  { s with
    dp := { s.dp with cn := BitVec.ofNat 32 stream.length }
    bs := cells stream }

/-- DECODE that has produced `out` and still has the stream to read. -/
def decAfter (out : List Byte) (stream : Bits) : State :=
  let s := dec stream
  { s with
    dp := { s.dp with olen := BitVec.ofNat 32 out.length }
    outb := cells out }

/-- DECODE that copies the second and third byte of a match of three at offset 3 behind "abca". -/
def copying : State :=
  let s := running .dCopy idle
  { s with
    dp := { s.dp with cn := 9, rptr := 9, olen := 4, coff := 3, crem := 2 }
    outb := cells [97, 98, 99, 97] }

/-- A matcher's inputs (40_matcher.md R140). -/
def matching (scope : Scope) (text : List Byte) (c mo la : Nat) : State :=
  { State.reset with
    par := { build with scope := scope }
    inb := cells text
    dp :=
      { State.reset.dp with
        fsm := .eToken
        cur := BitVec.ofNat 32 c
        cmo := BitVec.ofNat 32 mo
        cla := BitVec.ofNat 32 la
        cn := BitVec.ofNat 32 text.length } }

theorem idle_inv : Inv idle :=
  ⟨by decide, by decide, by decide, by decide, by decide, by decide, by decide, by decide, by decide, by decide,
    by decide, by decide⟩

theorem enc_inv : Inv enc :=
  ⟨by decide, by decide, by decide, by decide, by decide, by decide, by decide, by decide, by decide, by decide,
    by decide, by decide⟩

theorem copying_inv : Inv copying :=
  ⟨by decide, by decide, by decide, by decide, by decide, by decide, by decide, by decide, by decide, by decide,
    by decide, by decide⟩

theorem dec_inv : Inv (dec (encodeLit 97)) :=
  ⟨by decide, by decide, by decide, by decide, by decide, by decide, by decide, by decide, by decide, by decide,
    by decide, by decide⟩

/-! ## WellFormed refuses each ill-formed operand -/

theorem test_wf_reservedCmd : (Instr.reservedCmd 2).wf 21 3 = false ∧ (Instr.reservedCmd 3).wf 21 3 = true := by
  decide
theorem test_wf_match_offset :
    (Instr.matchTok 8 2 0).wf 21 3 = false ∧ (Instr.matchTok 7 2 0).wf 21 3 = true := by decide
theorem test_wf_match_length_zero : (Instr.matchTok 1 0 0).wf 21 3 = false := by decide
theorem test_wf_match_length_wide :
    (Instr.matchTok 1 2097152 0).wf 21 3 = false ∧ (Instr.matchTok 1 2097151 0).wf 21 3 = true := by decide
theorem test_wf_match_pad_long :
    (Instr.matchTok 1 1 4).wf 21 3 = false ∧ (Instr.matchTok 1 1 3).wf 21 3 = true := by decide
theorem test_wf_match_pad_of_other_length : (Instr.matchTok 1 2 1).wf 21 3 = false := by decide
theorem test_wf_append_width :
    (Instr.bsAppendUint 0 33).wf 21 3 = false ∧ (Instr.bsAppendUint 0 32).wf 21 3 = true := by decide
theorem test_wf_read_width : (Instr.bsReadUint 33).wf 21 3 = false ∧ (Instr.bsReadUint 32).wf 21 3 = true := by
  decide
theorem test_wf_vlc_zero : (Instr.vlcEncode 0).wf 21 3 = false := by decide
theorem test_wf_vlc_wide :
    (Instr.vlcEncode 2097152).wf 21 3 = false ∧ (Instr.vlcEncode 2097151).wf 21 3 = true := by decide
theorem test_wf_regRead_misaligned : (Instr.regRead 0x06).wf 21 3 = false ∧ (Instr.regRead 0x04).wf 21 3 = true := by
  decide
theorem test_wf_regWrite_misaligned : (Instr.regWrite 0x09 0).wf 21 3 = false := by decide
theorem test_wf_regWrite_command : (Instr.regWrite 0x00 1).wf 21 3 = false := by decide

/-! ## Words written out from the spec's encodings -/

/-- CMD words (30_encoding.md R125, R126): bits [31:4] are ignored. -/
theorem test_decode_nop : decode 21 3 (.cmdWord 0xABCDEF00) = .ok .nop := by decide
theorem test_decode_encode : decode 21 3 (.cmdWord 0x00000001) = .ok .encode := by decide
theorem test_decode_decode : decode 21 3 (.cmdWord 0x00000012) = .ok .decode := by decide
theorem test_decode_reservedCmd : decode 21 3 (.cmdWord 0x00000003) = .ok (.reservedCmd 3) := by decide

/-- `0 01100001` is LIT 'a' (30_encoding.md R112). -/
theorem test_decode_lit : decode 21 3 (.tokenBits (bits01 [0, 0, 1, 1, 0, 0, 0, 0, 1])) = .ok (.lit 0x61) := by decide

/-- `1 110 11110101` is MATCH 6, 5 under OW = 3 (30_encoding.md R113, 41_length_codec.md R161). -/
theorem test_decode_match :
    decode 21 3 (.tokenBits (bits01 [1, 1, 1, 0, 1, 1, 1, 1, 0, 1, 0, 1])) = .ok (.matchTok 6 5 0) := by decide

/-- Under W = 1 the offset field is absent (00_scope.md R17): `1 0`. -/
theorem test_decode_match_no_offset : decode 21 0 (.tokenBits (bits01 [1, 0])) = .ok (.matchTok 0 1 0) := by decide

/-- The internal codes of 30_encoding.md R128, with the operand lines of log 7. -/
theorem test_decode_bsAppendBit : decode 21 3 (.unitWord { code := 0x0, bit := true }) = .ok (.bsAppendBit true) := by
  decide
theorem test_decode_bsAppendUint :
    decode 21 3 (.unitWord { code := 0x1, value := 5, width := 3 }) = .ok (.bsAppendUint 5 3) := by decide
theorem test_decode_bsAppendBits :
    decode 21 3 (.unitWord { code := 0x2, seq := [true, false] }) = .ok (.bsAppendBits [true, false]) := by decide
theorem test_decode_bsReadBit : decode 21 3 (.unitWord { code := 0x4 }) = .ok .bsReadBit := by decide
theorem test_decode_bsReadUint : decode 21 3 (.unitWord { code := 0x5, width := 8 }) = .ok (.bsReadUint 8) := by decide
theorem test_decode_bsAtEnd : decode 21 3 (.unitWord { code := 0x6 }) = .ok .bsAtEnd := by decide
theorem test_decode_vlcEncode : decode 21 3 (.unitWord { code := 0x8, len := 9 }) = .ok (.vlcEncode 9) := by decide
theorem test_decode_vlcDecode : decode 21 3 (.unitWord { code := 0x9 }) = .ok .vlcDecode := by decide
theorem test_decode_findLongestMatch : decode 21 3 (.unitWord { code := 0xC }) = .ok .findLongestMatch := by decide
theorem test_decode_unused_codes :
    ∀ c ∈ ([0x3, 0x7, 0xA, 0xB, 0xD, 0xE, 0xF] : List (BitVec 4)),
      decode 21 3 (.unitWord { code := c }) = .error (.unusedCode c) := by decide

/-- Host actions (opcode_table.json gives them no bits); a write to offset 0 is a command (45_host_interface.md
R260). -/
theorem test_decode_regRead : decode 21 3 (.hostAction (.regRead 0x04)) = .ok (.regRead 0x04) := by decide
theorem test_decode_regWrite : decode 21 3 (.hostAction (.regWrite 0x08 6)) = .ok (.regWrite 0x08 6) := by decide
theorem test_decode_cmd_write : decode 21 3 (.hostAction (.regWrite 0x00 2)) = .ok .decode := by decide
theorem test_decode_inRead : decode 21 3 (.hostAction (.inRead 7)) = .ok (.inRead 7) := by decide
theorem test_decode_inWrite : decode 21 3 (.hostAction (.inWrite 7 1)) = .ok (.inWrite 7 1) := by decide
theorem test_decode_bsReadByte : decode 21 3 (.hostAction (.bsReadByte 7)) = .ok (.bsReadByte 7) := by decide
theorem test_decode_bsWriteByte : decode 21 3 (.hostAction (.bsWriteByte 7 1)) = .ok (.bsWriteByte 7 1) := by decide
theorem test_decode_outRead : decode 21 3 (.hostAction (.outRead 7)) = .ok (.outRead 7) := by decide
theorem test_decode_outWrite : decode 21 3 (.hostAction (.outWrite 7 1)) = .ok (.outWrite 7 1) := by decide
theorem test_decode_reset : decode 21 3 (.hostAction .reset) = .ok .reset := by decide
theorem test_decode_token_is_no_host_action : decode 21 3 (.hostAction (.lit 0)) = .error .notHostAction := by decide

/-- Words numbered as the opcode table numbers them (log 8): LIT 'a' is the bytes `30 80` (95_test_vectors.md 1.8),
MATCH 1, 2 under OW = 3 is `1 001 1111000`, the bytes `9F 00` (1.4). -/
theorem test_table_words :
    decodeTableWord 32 0x00000000 = some .nop ∧ decodeTableWord 32 0x0000000F = some (.reservedCmd 0xF) ∧
    decodeTableWord 16 0x8030 = some (.lit 0x61) ∧ decodeTableWord 16 0x009F = some (.matchTok 1 2 0) ∧
    decodeTableWord 8 0x0C = some .findLongestMatch ∧ decodeTableWord 8 0x03 = none := by decide

/-! ## The length code (95_test_vectors.md 2.1, 41_length_codec.md R166) -/

theorem test_vlc_5 : vlc 5 = bits01 [1, 1, 1, 1, 0, 1, 0, 1] := by decide
theorem test_vlc_128 : vlc 128 = bits01 [1, 1, 1, 1, 1, 1, 0, 0, 0, 0, 0, 0, 0, 0, 0, 0, 0] := by decide
theorem test_vlc_decode_15 :
    readLength 21 (bits01 [1, 1, 1, 1, 1, 0, 0, 0, 1, 1, 1, 1, 0]) = .ok (15, 0) 11 [true, false] := by decide
theorem test_vlc_decode_noncanonical : readLength 21 (bits01 [1, 1, 1, 0, 1]) = .ok (1, 3) 4 [true] := by decide

/-! ## The matcher (40_matcher.md R149) -/

theorem test_matcher_window : findMatch (matching .window [97, 98, 99, 97, 98, 99] 3 6 8) = (true, 3, 3) := by decide
theorem test_matcher_overlap : findMatch (matching .overlap [97, 97, 97, 97] 1 3 4) = (true, 1, 3) := by decide
theorem test_matcher_nearest : findMatch (matching .window [97, 98, 97, 98, 97, 98] 4 6 8) = (true, 2, 2) := by decide
theorem test_matcher_out_of_reach :
    findMatch (matching .overlap [97, 98, 99, 100, 97, 98] 4 3 8) = (false, 0, 0) := by decide

/-! ## One step of each instruction -/

theorem test_nop : exec .nop enc = .next enc := rfl

/-- W = 6 gives OW 3 and MAX_OFFSET 6 (00_scope.md R17). -/
theorem test_encode_start :
    (nextState (exec .encode idle)).map (fun t => (t.dp.fsm, t.dp.cow, t.dp.cmo, t.dp.cn, statusWord t.reg.status)) =
      some (.eToken, 3, 6, 6, 0x1) := by decide
theorem test_encode_while_busy : exec .encode enc = .next enc := rfl
theorem test_decode_start :
    (nextState (exec .decode idle)).map (fun t => (t.dp.fsm, t.dp.cn, t.dp.olen, statusWord t.reg.status)) =
      some (.dToken, 9, 0, 0x1) := by decide
/-- STATUS after ILLEGAL_COMMAND: ERR, code 7. -/
theorem test_reservedCmd :
    (nextState (exec (.reservedCmd 5) idle)).map (fun t => (t.dp.fsm, statusWord t.reg.status, t.reg.bsLen)) =
      some (.idle, 0x704, 9) := by decide
theorem test_lit :
    (nextState (exec (.lit 97) (dec (encodeLit 97)))).map (fun t => (t.outb, t.dp.rptr, t.dp.olen)) =
      some ([(0, 97)], 9, 1) := by decide
/-- OUT full: OUTPUT_OVERFLOW, code 5. -/
theorem test_lit_overflow :
    (nextState (exec (.lit 97) (decAfter [0, 1, 2, 3, 4, 5, 6, 7] (encodeLit 97)))).map
      (fun t => (t.outb, statusWord t.reg.status, t.reg.errBytepos)) = some ([], 0x504, 8) := by decide
theorem test_match :
    (nextState (exec (.matchTok 3 3 0) (decAfter [97, 98, 99] (encodeMatch 3 3 3 0)))).map
      (fun t => (t.dp.fsm, t.dp.coff, t.dp.crem, t.dp.rptr)) = some (.dCopy, 3, 3, 11) := by decide
/-- MATCH 1, 2 as the first token: STATUS 0x304 (95_test_vectors.md 1.4). -/
theorem test_match_dangling :
    (nextState (step (dec (bits01 [1, 0, 0, 1, 1, 1, 1, 1, 0, 0, 0])))).map
      (fun t => (statusWord t.reg.status, t.reg.errBitpos, t.reg.errBytepos)) = some (0x304, 0, 0) := by decide
theorem test_copy_step :
    (nextState (coreStep copying)).map (fun t => (t.dp.fsm, Memory.get t.outb 4, t.dp.crem)) =
      some (.dCopy, some 98, 1) := by decide
/-- The core step emits MATCH 3, 3: `1 011 1111001`, 11 bits (95_test_vectors.md 2.5's fourth token). -/
theorem test_encoder_step :
    (nextState (step enc)).map (fun t => (t.dp.cur, t.dp.wptr, (List.range 11).map fun k => Memory.get t.bs (27 + k))) =
      some (6, 38, (bits01 [1, 0, 1, 1, 1, 1, 1, 1, 0, 0, 1]).map some) := by decide
/-- BS_APPEND_BIT, the example of 42_bitstream.md R181. -/
theorem test_bsAppendBit :
    (nextState (exec (.bsAppendBit true) { idle with dp := { idle.dp with wptr := 4 } })).map
      (fun t => (Memory.get t.bs 4, t.dp.wptr)) = some (some true, 5) := by decide
theorem test_bsAppendBit_capacity :
    faultOf (exec (.bsAppendBit true) { idle with dp := { idle.dp with wptr := 80 } }) = some .bsCapacity := by decide
/-- BS_APPEND_UINT(5, 3) appends `101` (42_bitstream.md R182). -/
theorem test_bsAppendUint :
    (nextState (exec (.bsAppendUint 13 3) { idle with bs := [] })).map (fun t => (t.bs, t.dp.wptr)) =
      some ([(0, true), (1, false), (2, true)], 3) := by decide
/-- The example of 42_bitstream.md R183. -/
theorem test_bsAppendBits :
    (nextState (exec (.bsAppendBits (bits01 [1, 1, 1, 1, 0, 0, 0])) { idle with dp := { idle.dp with wptr := 10 } })).map
      (fun t => ((List.range 7).map fun k => Memory.get t.bs (10 + k), t.dp.wptr)) =
      some ((bits01 [1, 1, 1, 1, 0, 0, 0]).map some, 17) := by decide
theorem test_bsReadBit :
    (nextState (exec .bsReadBit (dec (bits01 [1, 0])))).map (fun t => (t.unitRes, t.dp.rptr)) =
      some (.bit true, 1) := by decide
/-- The example of 42_bitstream.md R185: `101` reads as 5; a further bit is past the end. -/
theorem test_bsReadUint :
    (nextState (exec (.bsReadUint 3) (dec (bits01 [1, 0, 1])))).map (fun t => (t.unitRes, t.dp.rptr)) =
      some (.num 5, 3) := by decide
theorem test_bsReadUint_truncated :
    (nextState (exec (.bsReadUint 4) (dec (bits01 [1, 0, 1])))).map (fun t => statusWord t.reg.status) =
      some 0x204 := by decide
theorem test_bsAtEnd : (nextState (exec .bsAtEnd copying)).map (fun t => t.unitRes) = some (.bit true) := by decide
theorem test_vlcEncode :
    (nextState (exec (.vlcEncode 2) idle)).map (fun t => t.unitRes) = some (.seq (bits01 [1, 1, 1, 1, 0, 0, 0])) := by
  decide
theorem test_vlcEncode_domain : faultOf (exec (.vlcEncode 2097152) idle) = some .vlcEncodeDomain := by decide
theorem test_vlcDecode :
    (nextState (exec .vlcDecode (dec (bits01 [1, 1, 1, 1, 0, 1, 0, 1])))).map (fun t => (t.unitRes, t.dp.rptr)) =
      some (.num 5, 8) := by decide
/-- Eight one-bits are more than U_MAX = 7: LENGTH_OVERFLOW, code 4. -/
theorem test_vlcDecode_overflow :
    (nextState (exec .vlcDecode (dec (bits01 [1, 1, 1, 1, 1, 1, 1, 1])))).map (fun t => statusWord t.reg.status) =
      some 0x404 := by decide
theorem test_findLongestMatch :
    (nextState (exec .findLongestMatch enc)).map (fun t => t.unitRes) = some (.triple true 3 3) := by decide
theorem test_regRead_offsetWidth :
    (nextState (exec (.regRead 0x10) idle)).map (fun t => t.rdata) = some 3 := by decide
/-- FEATURES of REF: MATCH_SCOPE 0, LEN_W 21 at bits [12:8]. -/
theorem test_regRead_features : (nextState (exec (.regRead 0x3C) idle)).map (fun t => t.rdata) = some 0x1500 := by
  decide
theorem test_regWrite_while_busy :
    (nextState (exec (.regWrite 0x08 9) enc)).map (fun t => (t.reg.windowSize, t.dp.cw)) = some (9, 6) := by decide
theorem test_regWrite_read_only : exec (.regWrite 0x1C 9) idle = .next idle := rfl
theorem test_inRead : (nextState (exec (.inRead 2) idle)).map (fun t => t.rdata) = some 99 := by decide
theorem test_inRead_out_of_range : (nextState (exec (.inRead 8) idle)).map (fun t => t.rdata) = some 0 := by decide
theorem test_inWrite :
    (nextState (exec (.inWrite 7 5) idle)).map (fun t => Memory.get t.inb 7) = some (some 5) := by decide
theorem test_inWrite_while_encode : refusalOf (exec (.inWrite 0 5) enc) = some .inWriteWhileEncode := by decide
/-- `0 01100001` padded with zeros: the bytes `30 80` (95_test_vectors.md 1.8). -/
theorem test_bsReadByte : (nextState (exec (.bsReadByte 0) idle)).map (fun t => t.rdata) = some 0x30 := by decide
theorem test_bsWriteByte :
    (nextState (exec (.bsWriteByte 1 0x80) idle)).map
      (fun t => (Memory.get t.bs 8, Memory.get t.bs 15, Memory.get t.bs 16)) =
      some (some true, some false, none) := by decide
theorem test_bsWriteByte_while_busy : refusalOf (exec (.bsWriteByte 0 1) enc) = some .bsWriteWhileBusy := by decide
theorem test_outRead :
    (nextState (exec (.outRead 1) { idle with outb := [(1, 98)] })).map (fun t => t.rdata) = some 98 := by decide
theorem test_outWrite : exec (.outWrite 0 5) idle = .next idle := rfl
theorem test_reset :
    ∃ t, exec .reset enc = .next t ∧ t.dp.fsm = .idle ∧ t.reg = Regs.zero ∧ t.inb = [] ∧ t.bs = [] ∧ t.outb = [] :=
  ⟨_, rfl, rfl, rfl, rfl, rfl, rfl⟩

/-! ## The first step after reset runs the word put there (log 5, log 8) -/

/-- ENCODE with WINDOW_SIZE 0: INVALID_CONFIGURATION, code 1. -/
theorem test_first_step_encode :
    (nextState (step (State.reset.withFetchWord 32 1))).map (fun t => statusWord t.reg.status) = some 0x104 := by decide
theorem test_first_step_lit :
    (nextState (step (State.reset.withFetchWord 16 0x8030))).map (fun t => t.outb) = some [(0, 97)] := by decide
/-- MATCH 1, 2 with nothing decoded: DANGLING_REFERENCE. -/
theorem test_first_step_match :
    (nextState (step (State.reset.withFetchWord 16 0x009F))).map (fun t => statusWord t.reg.status) = some 0x304 := by
  decide
theorem test_first_step_unit :
    (nextState (step (State.reset.withFetchWord 8 8))).map (fun t => t.unitRes) = some (.seq [false]) := by decide

/-! ## Host programs (30_encoding.md R131, 45_host_interface.md R274, R275) -/

/-- The program and the state after an advance. -/
def advanced {α : Type} (r : Host.Outcome (HostProg α × State) Fault Refusal) : Option (HostProg α × State) :=
  match r with
  | .next x => some x
  | .fault _ => none
  | .refused _ => none

/-- The bytes `30 80` hold the nine bits of LIT 'a' (95_test_vectors.md 1.8); the seven pad bits may be any. -/
theorem test_pack :
    packBits (encodeLit 97) [] = [0x30, 0x80] ∧ packBits (encodeLit 97) (List.replicate 7 true) = [0x30, 0xFF] ∧
    unpackBits 9 [0x30, 0xFF] = encodeLit 97 := by decide

/-- POLL stays while BUSY reads 1, and ends when it reads 0. -/
theorem test_poll :
    (advanced ((HostProg.poll (.done 5)).advance { enc with sched := [.host] })).map (fun x => x.1.offered) =
      some [.regRead 0x04] ∧
    (advanced ((HostProg.poll (.done 5)).advance idle)).map (fun x => x.1.result x.2) = some (some 5) := by decide

/-- Where both can move and no turn is given the core moves, and the program waits. -/
theorem test_program_waits :
    (advanced ((HostProg.access (.outRead 0) fun v => .done v).advance enc)).map
      (fun x => (x.1.offered, x.2.dp.cur)) = some ([.outRead 0], 6) := by decide

/-- The value of BS_LEN says how many bytes are read: 9 bits are two bytes. -/
theorem test_read_results :
    ((encodeProgram 6 8 []).offered = [.regWrite 0x08 6]) ∧
    (readBytes .bsReadByte 0 ((9 + 7) / 8) fun bytes => .done (unpackBits 9 bytes)).offered = [.bsReadByte 0] ∧
    (((readBytes .bsReadByte 0 ((9 + 7) / 8) fun bytes => .done (unpackBits 9 bytes)).resume 0x30).resume 0x80).result
      idle = some (encodeLit 97) := by decide

/-! ## States and operands that meet the obligations' hypotheses -/

/-- `idle` with other registers. -/
def idleWith (w la inLen bsLen : Word) : State :=
  { idle with
    reg := { idle.reg with windowSize := w, lookaheadCap := la, inLen := inLen, bsLen := bsLen } }

theorem witness_EncodeStartLoadsSnapshot :
    ∀ s ∈ [idle, idleWith 1 2 0 0, idleWith 4096 256 8 80],
      s.dp.fsm = .idle ∧ 1 ≤ s.reg.windowSize.toNat ∧ s.reg.windowSize.toNat ≤ s.par.wMax ∧
      2 ≤ s.reg.lookaheadCap.toNat ∧ s.reg.lookaheadCap.toNat ≤ s.par.laMax ∧
      s.reg.inLen.toNat ≤ s.par.inCap := by decide

theorem witness_DecodeStartLoadsSnapshot :
    ∀ s ∈ [idle, idleWith 1 2 0 0, idleWith 4096 256 8 80],
      s.dp.fsm = .idle ∧ 1 ≤ s.reg.windowSize.toNat ∧ s.reg.windowSize.toNat ≤ s.par.wMax ∧
      2 ≤ s.reg.lookaheadCap.toNat ∧ s.reg.lookaheadCap.toNat ≤ s.par.laMax ∧
      s.reg.bsLen.toNat ≤ s.par.bsCap := by decide

theorem witness_CommandStartErrors_illegal :
    ∀ s ∈ [idleWith 0 8 0 0, idleWith 4097 8 0 0, idleWith 6 1 0 0, idleWith 6 257 0 0],
      s.dp.fsm = .idle ∧ (s.reg.windowSize.toNat < 1 ∨ s.par.wMax < s.reg.windowSize.toNat ∨
        s.reg.lookaheadCap.toNat < 2 ∨ s.par.laMax < s.reg.lookaheadCap.toNat) := by decide

theorem witness_CommandStartErrors_bound :
    (idleWith 6 8 9 81).dp.fsm = .idle ∧
    ¬((idleWith 6 8 9 81).reg.windowSize.toNat < 1 ∨
      (idleWith 6 8 9 81).par.wMax < (idleWith 6 8 9 81).reg.windowSize.toNat ∨
      (idleWith 6 8 9 81).reg.lookaheadCap.toNat < 2 ∨
      (idleWith 6 8 9 81).par.laMax < (idleWith 6 8 9 81).reg.lookaheadCap.toNat) ∧
    (idleWith 6 8 9 81).par.inCap < (idleWith 6 8 9 81).reg.inLen.toNat ∧
    (idleWith 6 8 9 81).par.bsCap < (idleWith 6 8 9 81).reg.bsLen.toNat := by decide

theorem witness_ReservedCommandIsIllegal :
    idle.dp.fsm = .idle ∧ 3 ≤ (3 : BitVec 4).toNat ∧ 3 ≤ (15 : BitVec 4).toNat := by decide

theorem witness_CommandWriteDispatch :
    enc.dp.fsm ≠ .idle ∧ idle.dp.fsm = .idle ∧ (0x10 : Word).toNat % 16 = 0 ∧ (1 : Word).toNat % 16 = 1 ∧
    (2 : Word).toNat % 16 = 2 ∧ 3 ≤ (3 : Word).toNat % 16 := by decide

theorem witness_CommandWordFields :
    (0xFFFFFFF0 : Word).toNat % 16 = 0 ∧ (0x11 : Word).toNat % 16 = 1 ∧ (2 : Word).toNat % 16 = 2 ∧
    3 ≤ (0xFFFFFFFF : Word).toNat % 16 := by decide

/-- The three clauses at their boundaries: nine bits left, eight bits left, OUT full. -/
theorem witness_LitAppendsByte :
    ((dec (encodeLit 97)).dp.rptr.toNat + 9 ≤ (dec (encodeLit 97)).dp.cn.toNat ∧
      (dec (encodeLit 97)).dp.olen.toNat < (dec (encodeLit 97)).par.outCap) ∧
    (dec ((encodeLit 97).take 8)).dp.cn.toNat < (dec ((encodeLit 97).take 8)).dp.rptr.toNat + 9 ∧
    (decAfter [0, 1, 2, 3, 4, 5, 6, 7] (encodeLit 97)).par.outCap ≤
      (decAfter [0, 1, 2, 3, 4, 5, 6, 7] (encodeLit 97)).dp.olen.toNat := by decide

/-- A MATCH whose token ends the stream: the offset reaches the first byte and the copy fills OUT. -/
theorem witness_MatchBeginsCopy_copy :
    let s := decAfter [97, 98, 99] (encodeMatch 3 3 5 0)
    s.dp.rptr.toNat + (1 + s.dp.cow.toNat + lengthBits s.par.lenW 5 0) ≤ s.dp.cn.toNat ∧ 5 < 2 ^ s.par.lenW ∧
    (3 : Nat) ≠ 0 ∧ 3 ≤ s.dp.olen.toNat ∧ s.dp.olen.toNat + 5 ≤ s.par.outCap := by decide

/-- One bit less. -/
theorem witness_MatchBeginsCopy_truncated :
    let s := dec ((encodeMatch 3 3 5 0).take 11)
    ¬s.dp.rptr.toNat + (1 + s.dp.cow.toNat + lengthBits s.par.lenW 5 0) ≤ s.dp.cn.toNat := by decide

/-- The least length that does not fit LEN_W = 21: its `blen` of 22 is seen after seven one-bits, a zero-bit and four
bits. -/
theorem witness_MatchBeginsCopy_long :
    let s := dec (encodeMatch 3 3 2097152 0)
    s.dp.rptr.toNat + (1 + s.dp.cow.toNat + lengthBits s.par.lenW 2097152 0) ≤ s.dp.cn.toNat ∧
    2 ^ s.par.lenW ≤ 2097152 := by decide

/-- Offset 0, and the offset one past the output. -/
theorem witness_MatchBeginsCopy_dangling :
    ∀ off ∈ [0, 4],
      let s := decAfter [97, 98, 99] (encodeMatch 3 off 2 0)
      s.dp.rptr.toNat + (1 + s.dp.cow.toNat + lengthBits s.par.lenW 2 0) ≤ s.dp.cn.toNat ∧ 2 < 2 ^ s.par.lenW ∧
      (off = 0 ∨ s.dp.olen.toNat < off) := by decide

/-- One byte more than fits. -/
theorem witness_MatchBeginsCopy_overflow :
    let s := decAfter [97, 98, 99] (encodeMatch 3 3 6 0)
    s.dp.rptr.toNat + (1 + s.dp.cow.toNat + lengthBits s.par.lenW 6 0) ≤ s.dp.cn.toNat ∧ 6 < 2 ^ s.par.lenW ∧
    (3 : Nat) ≠ 0 ∧ 3 ≤ s.dp.olen.toNat ∧ s.par.outCap < s.dp.olen.toNat + 6 := by decide

theorem witness_CopyStepCopiesOneByte :
    copying.dp.fsm = .dCopy ∧ copying.dp.coff.toNat ≤ copying.dp.olen.toNat ∧
    Memory.get copying.outb (copying.dp.olen.toNat - copying.dp.coff.toNat) = some 98 ∧
    1 ≤ copying.dp.crem.toNat ∧ copying.dp.crem.toNat < 2 ^ copying.par.lenW := by decide

theorem witness_MatchCopyRepeatsPeriod : Inv copying ∧ copying.dp.fsm = .dCopy ∧ copying.hostQ = [] :=
  ⟨copying_inv, by decide, by decide⟩

theorem witness_DecodeExitPublishesLength : (dec []).dp.fsm = .dToken ∧ (dec []).dp.rptr = (dec []).dp.cn := by decide

theorem witness_EncodeExitPadsStream :
    let s := { enc with dp := { enc.dp with cur := 6 } }
    s.dp.fsm = .eToken ∧ s.dp.cur = s.dp.cn := by decide

theorem witness_EncoderEmitsOneToken : Inv enc ∧ enc.dp.fsm = .eToken ∧ enc.dp.cur ≠ enc.dp.cn :=
  ⟨enc_inv, by decide, by decide⟩

/-- Each kind of step: a unit word, a host step while IDLE, the three turns of a contested step, no host step, and a
token. -/
theorem witness_StepRunsDecodedInstruction_unit :
    let s := { idle with unitOp := some { code := 0x6 } }
    s.par.wf = true ∧ s.unitOp = some { code := 0x6 } ∧ decodeUnit { code := 0x6 } = .ok .bsAtEnd := by decide

theorem witness_StepRunsDecodedInstruction_host :
    let s := { idle with hostQ := [.regWrite 0x00 1] }
    s.par.wf = true ∧ s.unitOp = none ∧ s.hostQ = [.regWrite 0x00 1] ∧
    decodeAction (.regWrite 0x00 1) = .ok .encode ∧ s.dp.fsm = .idle := by decide

theorem witness_StepRunsDecodedInstruction_contested :
    ∀ turns ∈ ([[.host], [.core], []] : List (List Agent)),
      let s := { enc with hostQ := [.regRead 0x04], sched := turns }
      s.par.wf = true ∧ s.unitOp = none ∧ s.hostQ = [.regRead 0x04] ∧
      decodeAction (.regRead 0x04) = .ok (.regRead 0x04) ∧ s.dp.fsm ≠ .idle ∧ s.hostQ ≠ [] := by decide

theorem witness_StepRunsDecodedInstruction_token :
    let s := dec (encodeLit 97)
    s.par.wf = true ∧ s.hostQ = [] ∧ s.dp.fsm = .dToken ∧ s.dp.rptr ≠ s.dp.cn ∧
    decodeToken s.par.lenW s.dp.cow.toNat (streamBits s) = .ok (.lit 97) 9 [] := by decide

theorem witness_AppendBitWritesOneBit :
    let s (n : Word) := { idle with dp := { idle.dp with wptr := n } }
    (s 79).dp.wptr.toNat < (s 79).par.bsCap ∧ (s 80).par.bsCap ≤ (s 80).dp.wptr.toNat := by decide

theorem witness_AppendUintWritesField :
    let s (n : Word) := { idle with dp := { idle.dp with wptr := n } }
    (s 48).par.wf = true ∧ (s 48).dp.wptr.toNat + 32 ≤ (s 48).par.bsCap ∧ (0 : Nat) = 0 ∧ 0 < 32 ∧
    (s 49).par.bsCap < (s 49).dp.wptr.toNat + 32 := by decide

theorem witness_AppendBitsWritesSequence :
    let s := { idle with dp := { idle.dp with wptr := 78 } }
    s.par.wf = true ∧ s.dp.wptr.toNat + [true, true].length ≤ s.par.bsCap ∧ [true, true, true] ≠ [] ∧
    s.par.bsCap < s.dp.wptr.toNat + [true, true, true].length := by decide

theorem witness_ReadBitReturnsNextBit :
    (dec [true]).dp.rptr.toNat < (dec [true]).dp.cn.toNat ∧ Memory.get (dec [true]).bs 0 = some true ∧
    (dec []).dp.cn.toNat ≤ (dec []).dp.rptr.toNat := by decide

theorem witness_ReadUintReturnsField :
    let s := dec [true, false, true]
    ((0 : Nat) = 0 ∨ (dec []).dp.rptr.toNat + 0 ≤ (dec []).dp.cn.toNat) ∧ s.dp.rptr.toNat + 3 ≤ s.dp.cn.toNat ∧ 0 < 4 ∧ s.dp.cn.toNat < s.dp.rptr.toNat + 4 := by decide

theorem witness_AtEndComparesPointers :
    (dec []).dp.rptr = (dec []).dp.cn ∧ (dec [true]).dp.rptr ≠ (dec [true]).dp.cn := by decide

theorem witness_VlcEncodeReturnsCode :
    1 < 2 ^ idle.par.lenW ∧ (2 ≤ 2 ∧ 2 < 2 ^ idle.par.lenW) ∧ (2 ≤ 2097151 ∧ 2097151 < 2 ^ idle.par.lenW) ∧
    2 ^ idle.par.lenW ≤ 2097152 := by decide

theorem witness_VlcCodeLength : 2 ≤ 2 ∧ 1 ≤ 1 ∧ 1 ≤ 2 := by decide

theorem witness_VlcRoundTrip : 1 ≤ 1 ∧ 1 < 2 ^ 1 ∧ 1 ≤ 2097151 ∧ 2097151 < 2 ^ 21 := by decide

theorem witness_VlcDecodeReadsCode :
    ∀ c ∈ [(1, 0), (1, 3), (2, 0), (200, 0)],
      let s := dec (lenCode c.1 c.2 ++ [true])
      1 ≤ c.1 ∧ c.1 < 2 ^ s.par.lenW ∧ c.2 ≤ 3 ∧ (c.2 = 0 ∨ c.1 = 1) ∧ streamBits s = lenCode c.1 c.2 ++ [true] := by
  decide

/-- A cut inside a code of 2, and inside the bits read of a code of 2^21, whose `blen` of 22 cannot fit: 11 of 12. -/
theorem witness_VlcDecodeRaisesErrors_truncated :
    ∀ c ∈ [(2, 0), (2, 6), (2097152, 11)],
      let s := dec ((lenCode c.1 0).take c.2)
      1 ≤ s.par.lenW ∧ 1 ≤ c.1 ∧ c.2 < lengthBits s.par.lenW c.1 0 ∧ streamBits s = (lenCode c.1 0).take c.2 := by
  decide

/-- LEN_W = 21: eight one-bits; and seven one-bits with a `blen` of 22. -/
theorem witness_VlcDecodeRaisesErrors_overflow :
    let s := dec (List.replicate 8 true)
    let t := dec (List.replicate 7 true ++ false :: [false, true, true, false])
    streamBits s = List.replicate (bitlen s.par.lenW + 3) true ++ [] ∧
    5 ≤ bitlen t.par.lenW ∧ t.par.lenW < 2 ^ 4 + val [false, true, true, false] ∧
    streamBits t = List.replicate 7 true ++ false :: ([false, true, true, false] ++ []) := by decide

theorem witness_NonCanonicalCodesAreOne : 1 ≤ 1 ∧ 1 ≤ 3 ∧ 3 ≤ 3 := by decide

theorem witness_LengthOverflowEndsDecode :
    let offBits := [false, false, true]
    let s := dec (true :: (offBits ++ List.replicate 8 true))
    let t := dec (true :: (offBits ++ (List.replicate 7 true ++ false :: [false, true, true, false])))
    (s.dp.fsm = .dToken ∧ offBits.length = s.dp.cow.toNat ∧
      streamBits s = true :: (offBits ++ (List.replicate (bitlen s.par.lenW + 3) true ++ []))) ∧
    (t.dp.fsm = .dToken ∧ offBits.length = t.dp.cow.toNat ∧ 5 ≤ bitlen t.par.lenW ∧
      t.par.lenW < 2 ^ 4 + val [false, true, true, false] ∧
      streamBits t =
        true :: (offBits ++ (List.replicate 7 true ++ false :: ([false, true, true, false] ++ [])))) := by decide

theorem witness_CutTokenIsTruncated :
    ∀ k ∈ [1, 10],
      let s := dec ((encodeMatch 3 3 2 0).take k)
      s.dp.fsm = .dToken ∧ (Instr.matchTok 3 2 0).wf s.par.lenW s.dp.cow.toNat = true ∧
      encode s.dp.cow.toNat (.matchTok 3 2 0) = .tokenBits (encodeMatch 3 3 2 0) ∧ 0 < k ∧
      k < (encodeMatch 3 3 2 0).length ∧ streamBits s = (encodeMatch 3 3 2 0).take k := by decide

/-- A result that is valid, and, at the start of the input, one that is not. -/
theorem witness_MatcherFindsLongestNearest :
    (findMatch enc).1 = true ∧ occurs enc 2 0 = true ∧
    (findMatch { enc with dp := { enc.dp with cur := 0 } }).1 = false := by decide

theorem witness_MatcherResultRanges : Inv enc ∧ enc.dp.fsm = .eToken ∧ (findMatch enc).1 = true ∧
    enc.par.scope = .window := ⟨enc_inv, by decide, by decide, by decide⟩

theorem witness_MatcherAgreesWithGrowingPrefix : 2 ≤ 3 ∧ occurs enc 3 0 = true := by decide

theorem witness_RegisterReadMap :
    (idleWith 0 0 0 0).reg.windowSize = 0 ∧ idle.reg.windowSize ≠ 0 ∧ idle.par.scope = .window ∧
    (matching .overlap [] 0 0 0).par.scope = .overlap ∧ (0x40 : BitVec 8).toNat % 4 = 0 ∧
    0x40 ≤ (0xFC : BitVec 8).toNat := by decide

theorem witness_RegisterWriteMap :
    decode idle.par.lenW 0 (.cmdWord 0x11) = .ok .encode ∧
    ∀ a ∈ ([0x04, 0x10, 0x1C, 0x3C, 0x40, 0xFC] : List (BitVec 8)),
      a.toNat % 4 = 0 ∧ a ≠ 0x00 ∧ a ≠ 0x08 ∧ a ≠ 0x0C ∧ a ≠ 0x14 ∧ a ≠ 0x18 := by decide

theorem witness_MisalignedRegisterRefused : (0x01 : BitVec 8).toNat % 4 ≠ 0 ∧ (0xFF : BitVec 8).toNat % 4 ≠ 0 := by
  decide

theorem witness_InByteAccess :
    7 < idle.par.inCap ∧ Memory.get idle.inb 0 = some 97 ∧ idle.dp.fsm ≠ .eToken ∧ enc.dp.fsm = .eToken := by decide

theorem witness_BsByteRead :
    9 < idle.par.bsCap / 8 ∧ idle.dp.fsm ≠ .eToken ∧ Memory.get idle.bs (8 * 0 + 2) = some true := by decide

theorem witness_BsByteWrite : 9 < idle.par.bsCap / 8 ∧ idle.dp.fsm = .idle ∧ enc.dp.fsm ≠ .idle := by decide

theorem witness_BsByteReadAfterWrite : idle.dp.fsm = .idle ∧ 9 < idle.par.bsCap / 8 := by decide

theorem witness_OutByteAccess :
    let s := { idle with outb := [(7, 98)] }
    7 < s.par.outCap ∧ s.dp.fsm ≠ .dToken ∧ s.dp.fsm ≠ .dCopy ∧ Memory.get s.outb 7 = some 98 := by decide

theorem witness_OutOfRangeIndexHarmless :
    idle.par.inCap ≤ 8 ∧ idle.par.bsCap / 8 ≤ 10 ∧ idle.par.outCap ≤ 8 := by decide

theorem witness_DerivedQuantities : 1 ≤ 1 ∧ 1 = 2 ^ 0 ∧ 8 = 2 ^ 3 ∧ ∀ k, 6 ≠ 2 ^ k := by
  refine ⟨by decide, by decide, by decide, fun k => ?_⟩
  rcases Nat.lt_or_ge k 3 with h | h
  · interval_cases k <;> decide
  · have := Nat.pow_le_pow_right (n := 2) (by omega) h
    omega

theorem witness_StepKeepsLegalStates :
    (Inv enc ∧ ∃ t, step enc = .next t) ∧ (Inv copying ∧ ∃ t, step copying = .next t) ∧
    (Inv idle ∧ ∃ t, step idle = .next t) :=
  ⟨⟨enc_inv, _, rfl⟩, ⟨copying_inv, _, rfl⟩, ⟨idle_inv, _, rfl⟩⟩

theorem witness_LegalStatesNeverFault : Inv enc ∧ Inv copying ∧ Inv idle := ⟨enc_inv, copying_inv, idle_inv⟩

theorem witness_EncodeRunsToSuccess :
    Inv enc ∧ enc.dp.fsm = .eToken ∧ enc.hostQ = [] ∧ enc.dp.cur ≠ enc.dp.cn ∧ ∃ t, coreStep enc = .next t :=
  ⟨enc_inv, by decide, by decide, by decide, _, rfl⟩

theorem witness_DecodeRunsToEnd_token :
    Inv (dec (encodeLit 97)) ∧ (dec (encodeLit 97)).dp.fsm = .dToken ∧ (dec (encodeLit 97)).hostQ = [] ∧
    (dec (encodeLit 97)).dp.rptr ≠ (dec (encodeLit 97)).dp.cn ∧
    ∃ t, coreStep (dec (encodeLit 97)) = .next t ∧ t.dp.fsm ≠ .idle :=
  ⟨dec_inv, by decide, by decide, by decide, _, rfl, by decide⟩

theorem witness_DecodeRunsToEnd_copy :
    Inv copying ∧ copying.dp.fsm = .dCopy ∧ copying.hostQ = [] ∧ ∃ t, coreStep copying = .next t :=
  ⟨copying_inv, by decide, by decide, _, rfl⟩

/-- (2 and 256 are legal values of the second LOOKAHEAD_CAP.) -/
theorem witness_DecodeOfEncodeIsIdentity :
    Inv idle ∧ idle.dp.fsm = .idle ∧ idle.hostQ = [] ∧ 1 ≤ idle.reg.windowSize.toNat ∧
    idle.reg.windowSize.toNat ≤ idle.par.wMax ∧ 2 ≤ idle.reg.lookaheadCap.toNat ∧
    idle.reg.lookaheadCap.toNat ≤ idle.par.laMax ∧ idle.reg.inLen.toNat ≤ idle.par.inCap ∧
    idle.reg.inLen.toNat ≤ idle.par.outCap ∧ Filled idle.reg.inLen.toNat idle.inb ∧
    (2 ≤ (256 : Word).toNat ∧ (256 : Word).toNat ≤ idle.par.laMax) :=
  ⟨idle_inv, by decide, by decide, by decide, by decide, by decide, by decide, by decide, by decide, by decide, by decide⟩

theorem witness_DecodeInvertsEncode :
    (Instr.matchTok 7 2097151 0).wf 21 3 = true ∧ (Instr.matchTok 0 1 3).wf 21 0 = true ∧
    (Instr.regWrite 0xFC 1).wf 21 3 = true := by decide

theorem witness_TokensAreSelfDelimiting :
    (Instr.matchTok 3 2 0).wf 21 3 = true ∧ encode 3 (.matchTok 3 2 0) = .tokenBits (encodeMatch 3 3 2 0) := by decide

theorem witness_DecodedTokenReencodes :
    1 ≤ 21 ∧ decodeToken 21 3 (encodeMatch 3 3 2 0 ++ [true]) = .ok (.matchTok 3 2 0) 11 [true] := by decide

theorem witness_StateMachineTransitions_core :
    (enc.dp.fsm = .eToken ∧ enc.dp.cur ≠ enc.dp.cn ∧ ∃ t, coreStep enc = .next t) ∧
    ((dec []).dp.fsm = .dToken ∧ (dec []).dp.rptr = (dec []).dp.cn ∧
      ∃ t, coreStep (dec []) = .next t ∧ t.dp.fsm = .idle) ∧
    (copying.dp.fsm = .dCopy ∧ ∃ t, coreStep copying = .next t ∧ t.dp.crem ≠ 0) ∧
    (∃ t, coreStep { copying with dp := { copying.dp with crem := 1 } } = .next t ∧ t.dp.crem = 0) :=
  ⟨⟨by decide, by decide, _, rfl⟩, ⟨by decide, by decide, _, rfl, by decide⟩, ⟨by decide, _, rfl, by decide⟩,
    _, rfl, by decide⟩

theorem witness_StateMachineTransitions_host :
    (∃ t, hostStep { idle with hostQ := [.regWrite 0x00 1] } = .next t ∧ idle.dp.fsm = .idle) ∧
    (∃ t, hostStep { enc with hostQ := [.regWrite 0x00 1] } = .next t ∧ enc.dp.fsm ≠ .idle) ∧
    (∃ t, hostStep { enc with hostQ := [.reset] } = .next t) ∧
    (∃ t, unitStep { code := 0x4 } (dec []) = .next t) ∧ ∃ t, step enc = .next t :=
  ⟨⟨_, rfl, by decide⟩, ⟨_, rfl, by decide⟩, ⟨_, rfl⟩, ⟨_, rfl⟩, _, rfl⟩

theorem witness_SnapshotIsolatesCommand :
    (enc.dp.fsm ≠ .idle ∧ ∃ t, coreStep enc = .next t) ∧
    (copying.dp.fsm ≠ .idle ∧ copying.dp.fsm ≠ .eToken ∧ ∃ t, coreStep copying = .next t) :=
  ⟨⟨by decide, _, rfl⟩, by decide, by decide, _, rfl⟩

theorem witness_CoreStepFrame :
    (enc.dp.fsm = .eToken ∧ ∃ t, coreStep enc = .next t) ∧ (copying.dp.fsm = .dCopy ∧ ∃ t, coreStep copying = .next t) :=
  ⟨⟨by decide, _, rfl⟩, by decide, _, rfl⟩

theorem witness_BitsPastEndDoNotMatter :
    copying.dp.fsm = .dCopy ∧
    (∀ i < copying.dp.cn.toNat, Memory.get (Memory.set copying.bs 9 true) i = Memory.get copying.bs i) ∧
    ∃ t, coreStep copying = .next t := ⟨by decide, by decide, _, rfl⟩

end Sys2Proof.Tests
end

section
/-! PROOFS of 00_scope.md R17: the offset width and the largest offset derived from a window size. -/

namespace Sys2Proof.Machine

/-- The ceiling of `log2 w` is the least `k` with `w ≤ 2^k`, which is the least `k` such that `w − 1` fits `k` bits. -/
theorem offsetWidth_eq_clog (w : Nat) : offsetWidth w = Nat.clog 2 w :=
  eq_of_forall_ge_iff fun k => by
    have hpos : 0 < 2 ^ k := Nat.two_pow_pos k
    rw [offsetWidth, bitlen_le_iff, Nat.clog_le_iff_le_pow Nat.one_lt_two]
    omega

theorem le_two_pow_offsetWidth (w : Nat) : w ≤ 2 ^ offsetWidth w :=
  offsetWidth_eq_clog w ▸ Nat.le_pow_clog Nat.one_lt_two w

theorem offsetWidth_two_pow (k : Nat) : offsetWidth (2 ^ k) = k := by
  rw [offsetWidth_eq_clog, Nat.clog_pow 2 k Nat.one_lt_two]

/-- The offset `2^k` itself would need `k + 1` bits. -/
theorem maxOffset_two_pow (k : Nat) : maxOffset (2 ^ k) = 2 ^ k - 1 := by
  rw [maxOffset, offsetWidth_two_pow]
  exact min_eq_right (Nat.sub_le _ 1)

/-- The whole window is reachable: `w` lies strictly below `2^OW`. -/
theorem maxOffset_of_ne_two_pow {w : Nat} (h : ∀ k, w ≠ 2 ^ k) : maxOffset w = w := by
  have hlt : w < 2 ^ offsetWidth w := (le_two_pow_offsetWidth w).lt_of_ne (h _)
  exact min_eq_left (Nat.le_sub_one_of_lt hlt)

/-- Settles O47: the three clauses of R17, each by its own lemma. -/
theorem derivedQuantities : Obligations.DerivedQuantities := by
  intro w _
  refine ⟨offsetWidth_eq_clog w, ?_, maxOffset_of_ne_two_pow⟩
  rintro k rfl
  exact maxOffset_two_pow k

end Sys2Proof.Machine
end

section
/-! PROOFS: what a core step can do (43_encoder.md R203 to R212, 44_decoder.md R233 to R237), said once for every
statement about core steps. -/

namespace Sys2Proof

/-- What reads without a bit left to miss gives at least the value in front. -/
theorem le_of_readUint {w acc n : Nat} {bs rest : Bits} (h : readUint w acc bs = some (n, rest)) : acc ≤ n := by
  obtain ⟨_, _, hn⟩ := readUint_eq_some h
  have : acc * 1 ≤ acc * 2 ^ w := Nat.mul_le_mul_left acc Nat.one_le_two_pow
  omega

theorem one_le_of_readLengthTail {lenW u used n pad used' : Nat} {bs rest : Bits}
    (h : readLengthTail lenW u used bs = .ok (n, pad) used' rest) : 1 ≤ n := by
  unfold readLengthTail at h
  split at h
  · cases h
  · split at h
    · cases h
    · split at h
      · cases h
      next hn =>
        cases h
        exact le_of_readUint hn

/-- A length code stands for a length of at least 1 (41_length_codec.md R160). -/
theorem one_le_of_readLength {lenW n pad used : Nat} {bs rest : Bits}
    (h : readLength lenW bs = .ok (n, pad) used rest) : 1 ≤ n := by
  unfold readLength at h
  split at h
  · cases h
  · split_ifs at h
    · cases h
      exact le_rfl
    · exact one_le_of_readLengthTail h

/-- Only the two tokens are read from a stream, and a MATCH has a length of at least 1 (30_encoding.md R111). -/
theorem decodeToken_eq_ok {lenW ow used : Nat} {bs rest : Bits} {i : Instr}
    (h : decodeToken lenW ow bs = .ok i used rest) :
    (∃ b, i = .lit b) ∨ ∃ off len pad, i = .matchTok off len pad ∧ 1 ≤ len := by
  match bs with
  | [] => cases h
  | false :: bs =>
    rw [decodeToken, readLit] at h
    split at h
    · cases h
    · cases h
      exact .inl ⟨_, rfl⟩
  | true :: bs =>
    rw [decodeToken, readMatch] at h
    split at h
    · cases h
    · split at h
      · cases h
      next hlen =>
        cases h
        exact .inr ⟨_, _, _, rfl, one_le_of_readLength hlen⟩

end Sys2Proof

namespace Sys2Proof.Machine

/-! ### ENCODE -/

/-- An append changes BS and `dp.wptr` alone. -/
theorem appendBits_frame {bits : Bits} {s t : State} (h : appendBits bits s = .next t) :
    ∃ m w, t = { s with bs := m, dp := { s.dp with wptr := w } } := by
  induction bits generalizing s with
  | nil =>
    cases h
    exact ⟨_, _, rfl⟩
  | cons b bits ih =>
    rw [appendBits, appendBit] at h
    split_ifs at h
    · cases h
    · obtain ⟨m, w, rfl⟩ := ih h
      exact ⟨m, w, rfl⟩

theorem appendBits_append (xs ys : Bits) (s : State) :
    appendBits (xs ++ ys) s = andThen (appendBits xs s) (appendBits ys) := by
  induction xs generalizing s with
  | nil => rfl
  | cons x xs ih =>
    rw [List.cons_append, appendBits, appendBits]
    cases appendBit x s with
    | next u => exact ih u
    | fault e => rfl
    | refused e => rfl

/-- Emitting a LIT appends its encoding (43_encoder.md R205). -/
theorem emitLit_eq (s : State) :
    emitLit s =
      andThen (appendBits (encodeLit (inByte s s.dp.cur.toNat)) s) fun u => .next (advanceCursor 1 u) := by
  rw [emitLit, encodeLit, appendBits]
  cases appendBit false s with
  | next u => rfl
  | fault e => rfl
  | refused e => rfl

/-- Emitting a MATCH whose length the codec can write appends its canonical encoding (43_encoder.md R204). -/
theorem emitMatch_eq {off len : Nat} {s : State} (hd : vlcInDomain s.par len = true) (hl : len ≠ 1) :
    emitMatch off len s =
      andThen (appendBits (encodeMatch s.dp.cow.toNat off len 0) s) fun u => .next (advanceCursor len u) := by
  rw [emitMatch, encodeMatch, appendBits, lenCode, if_neg hl, hd]
  cases appendBit true s with
  | next u =>
    simp only [andThen_next, appendBits_append, appendUint, if_true]
    cases appendBits (bin off s.dp.cow.toNat) u with
    | next u => rfl
    | fault e => rfl
    | refused e => rfl
  | fault e => rfl
  | refused e => rfl

/-- Emitting a token changes BS, `dp.wptr` and the cursor alone. -/
theorem emitLit_frame {s t : State} (h : emitLit s = .next t) :
    ∃ m w c, t = { s with bs := m, dp := { s.dp with wptr := w, cur := c } } := by
  rw [emitLit_eq] at h
  obtain ⟨u, hu, ht⟩ := andThen_eq_next h
  obtain ⟨m, w, rfl⟩ := appendBits_frame hu
  cases ht
  exact ⟨_, _, _, rfl⟩

theorem vlcInDomain_of_emitMatch {off len : Nat} {s t : State} (h : emitMatch off len s = .next t) :
    vlcInDomain s.par len = true := by
  obtain ⟨_, _, h⟩ := andThen_eq_next h
  obtain ⟨_, _, h⟩ := andThen_eq_next h
  by_contra hd
  rw [if_neg hd] at h
  cases h

theorem emitMatch_frame {off len : Nat} {s t : State} (hl : len ≠ 1) (h : emitMatch off len s = .next t) :
    ∃ m w c, t = { s with bs := m, dp := { s.dp with wptr := w, cur := c } } := by
  rw [emitMatch_eq (vlcInDomain_of_emitMatch h) hl] at h
  obtain ⟨u, hu, ht⟩ := andThen_eq_next h
  obtain ⟨m, w, rfl⟩ := appendBits_frame hu
  cases ht
  exact ⟨_, _, _, rfl⟩

/-- Everything a core step of ENCODE that answers a next state can be (43_encoder.md R203). -/
theorem encoderStep_eq_next {s t : State} (h : encoderStep s = .next t) :
    (s.dp.cur = s.dp.cn ∧ t = encodeExit s) ∨
    (s.dp.cur ≠ s.dp.cn ∧ ∃ u, t = tick u ∧
      (emitLit s = .next u ∨
       ∃ off len, findMatch s = (true, off, len) ∧ 2 ≤ len ∧ emitMatch off len s = .next u)) := by
  unfold encoderStep at h
  by_cases hc : s.dp.cur = s.dp.cn
  · rw [if_pos hc] at h
    cases h
    exact .inl ⟨hc, rfl⟩
  · rw [if_neg hc] at h
    rcases hm : findMatch s with ⟨valid, off, len⟩
    rw [hm] at h
    obtain ⟨u, hu, ht⟩ := andThen_eq_next h
    cases ht
    refine .inr ⟨hc, u, rfl, ?_⟩
    split_ifs at hu with hv
    · simp only [Bool.and_eq_true, decide_eq_true_eq] at hv
      obtain ⟨rfl, h2⟩ := hv
      exact .inr ⟨off, len, rfl, h2, hu⟩
    · exact .inl hu

/-! ### DECODE -/

/-- A token that ends DECODE: its start is marked, `used` bits of it are read, and the error exit is taken. -/
def tokenAborted (c : ErrCode) (used : Nat) (s : State) : State :=
  raiseError .decodeStep c (advance used (markToken s))

/-- Everything LIT can be (44_decoder.md R235). -/
theorem execLit_eq_next {b : Byte} {s t : State} (h : execLit b s = .next t) :
    (∃ c used, t = tokenAborted c used s) ∨
    (s.dp.rptr.toNat + 9 ≤ s.dp.cn.toNat ∧ s.dp.olen.toNat < s.par.outCap ∧
      t = putByte b (advance 9 (markToken s))) := by
  unfold execLit at h
  split_ifs at h with h₁ h₂
  · cases h
    exact .inl ⟨_, _, rfl⟩
  · cases h
    exact .inl ⟨_, _, rfl⟩
  · cases h
    exact .inr ⟨by omega, by omega, rfl⟩

/-- Everything MATCH can be (44_decoder.md R236). -/
theorem execMatch_eq_next {off len pad : Nat} {s t : State} (h : execMatch off len pad s = .next t) :
    (∃ c used, t = tokenAborted c used s) ∨
    ∃ used, s.dp.rptr.toNat + used ≤ s.dp.cn.toNat ∧ len < 2 ^ s.par.lenW ∧
      1 ≤ off ∧ off ≤ s.dp.olen.toNat ∧ s.dp.olen.toNat + len ≤ s.par.outCap ∧
      t = beginCopy off len (advance used (markToken s)) := by
  unfold execMatch at h
  dsimp only at h
  split_ifs at h with h₁ h₂ h₃ h₄
  · cases h
    exact .inl ⟨_, _, rfl⟩
  · cases h
    exact .inl ⟨_, _, rfl⟩
  · cases h
    exact .inl ⟨_, _, rfl⟩
  · cases h
    exact .inl ⟨_, _, rfl⟩
  · cases h
    exact .inr ⟨_, not_lt.1 h₁, not_le.1 h₂, by omega, by omega, not_lt.1 h₄, rfl⟩

/-- Everything a core step in D_TOKEN can be (44_decoder.md R233, R234). -/
theorem tokenStep_eq_next {s t : State} (h : tokenStep s = .next t) :
    (s.dp.rptr = s.dp.cn ∧ t = decodeExit s) ∨
    (s.dp.rptr ≠ s.dp.cn ∧
      ((∃ e used, t = tokenError e used (tick s)) ∨
       (∃ b, execLit b (tick s) = .next t) ∨
       ∃ off len pad, 1 ≤ len ∧ execMatch off len pad (tick s) = .next t)) := by
  unfold tokenStep atEnd at h
  by_cases hc : s.dp.rptr = s.dp.cn
  · rw [if_pos (decide_eq_true hc)] at h
    cases h
    exact .inl ⟨hc, rfl⟩
  · rw [if_neg (by simpa using hc)] at h
    refine .inr ⟨hc, ?_⟩
    cases hf : fetchToken s with
    | err e used =>
      rw [hf] at h
      cases h
      exact .inl ⟨e, used, rfl⟩
    | ok i used rest =>
      rw [hf] at h
      obtain ⟨b, rfl⟩ | ⟨off, len, pad, rfl, hl⟩ := decodeToken_eq_ok hf
      · exact .inr (.inl ⟨b, h⟩)
      · exact .inr (.inr ⟨off, len, pad, hl, h⟩)

/-- Everything a core step can be, by the state of the core (10_state.md R31). -/
theorem coreStep_eq_next {s t : State} (h : coreStep s = .next t) :
    (s.dp.fsm = .idle ∧ t = s) ∨ (s.dp.fsm = .eToken ∧ encoderStep s = .next t) ∨
    (s.dp.fsm = .dToken ∧ tokenStep s = .next t) ∨ (s.dp.fsm = .dCopy ∧ t = copyStep s) := by
  unfold coreStep at h
  split at h
  next hf =>
    cases h
    exact .inl ⟨hf, rfl⟩
  next hf => exact .inr (.inl ⟨hf, h⟩)
  next hf => exact .inr (.inr (.inl ⟨hf, h⟩))
  next hf =>
    cases h
    exact .inr (.inr (.inr ⟨hf, rfl⟩))

end Sys2Proof.Machine
end

section
/-! PROOFS: the legal state as a host step or a step of DECODE leaves it. A legal state is a store that is legal
whatever the core does, a legal STATUS, and the bounds of the command that runs. -/

namespace Sys2Proof

/-- 00_scope.md R10 to R16 as propositions. -/
theorem Params.wf_iff (p : Params) : p.wf = true ↔
    1 ≤ p.wMax ∧ p.wMax ≤ 2 ^ 32 - 1 ∧ 2 ≤ p.laMax ∧ p.laMax ≤ 2 ^ p.lenW - 1 ∧ 21 ≤ p.lenW ∧ p.lenW ≤ 31 ∧
    p.inCap ≤ 2 ^ 32 - 1 ∧ p.outCap ≤ 2 ^ 32 - 1 ∧ p.bsCap % 8 = 0 ∧ p.bsCap ≤ 2 ^ 32 - 8 ∧
    p.inCap * bitsPerByte (bitlen (p.wMax - 1)) ≤ p.bsCap := by
  simp only [Params.wf, Bool.and_eq_true, decide_eq_true_eq, and_assoc]

variable {p : Params}

theorem Params.lenW_le (h : p.wf = true) : p.lenW ≤ 31 := by
  have := (Params.wf_iff p).1 h
  omega

theorem Params.laMax_lt (h : p.wf = true) : p.laMax < 2 ^ p.lenW := by
  have := (Params.wf_iff p).1 h
  have := Nat.two_pow_pos p.lenW
  omega

theorem Params.outCap_lt (h : p.wf = true) : p.outCap < 2 ^ 32 := by
  have := (Params.wf_iff p).1 h
  omega

theorem Params.bsCap_lt (h : p.wf = true) : p.bsCap < 2 ^ 32 := by
  have := (Params.wf_iff p).1 h
  omega

theorem Params.bsCap_mod (h : p.wf = true) : p.bsCap % 8 = 0 := by
  have := (Params.wf_iff p).1 h
  omega

/-- BS holds the longest stream of a full IN (00_scope.md R15). -/
theorem Params.inCap_mul_le (h : p.wf = true) : p.inCap * bitsPerByte (bitlen (p.wMax - 1)) ≤ p.bsCap := by
  have := (Params.wf_iff p).1 h
  omega

end Sys2Proof

namespace Sys2Proof.Machine

/-! ### Stores -/

/-- What a legal state holds whatever the core does: the part of `Inv` that no command's run is needed for. -/
structure StoreOk (s : State) : Prop where
  build : s.par.wf = true
  latch : s.unitOp = none
  inOk : BufferOk s.par.inCap s.inb
  bsOk : BufferOk s.par.bsCap s.bs
  outOk : BufferOk s.par.outCap s.outb
  copyCount : CopyCountOk s
  output : OutputOk s

variable {s t : State}

theorem Inv.storeOk (h : Inv s) : StoreOk s :=
  ⟨h.build, h.latch, h.inOk, h.bsOk, h.outOk, h.copyCount, h.output⟩

theorem StoreOk.withDp (h : StoreOk s) (dp : Dp) (hc : dp.crem.toNat < 2 ^ s.par.lenW) :
    StoreOk { s with dp := dp } :=
  ⟨h.build, h.latch, h.inOk, h.bsOk, h.outOk, hc, h.output⟩

theorem StoreOk.withReg (h : StoreOk s) (r : Regs) (hr : r.outLen = s.reg.outLen) :
    StoreOk { s with reg := r } := by
  refine ⟨h.build, h.latch, h.inOk, h.bsOk, h.outOk, h.copyCount, ?_⟩
  simp only [OutputOk, hr]
  exact h.output

theorem StoreOk.withBs (h : StoreOk s) {m : List (Nat × Bool)} (hm : BufferOk s.par.bsCap m) :
    StoreOk { s with bs := m } :=
  ⟨h.build, h.latch, h.inOk, hm, h.outOk, h.copyCount, h.output⟩

/-- Nothing is bounded in an IDLE core but its store and STATUS. -/
theorem StoreOk.inv_of_idle (h : StoreOk s) (hf : s.dp.fsm = .idle) (hs : StatusOk s) : Inv s where
  build := h.build
  latch := h.latch
  inOk := h.inOk
  bsOk := h.bsOk
  outOk := h.outOk
  status := hs
  snapshot hne := absurd hf hne
  encoder he := absurd (hf.symm.trans he) (by decide)
  decoder hd := hd.elim (fun he => absurd (hf.symm.trans he) (by decide)) fun he =>
    absurd (hf.symm.trans he) (by decide)
  copy he := absurd (hf.symm.trans he) (by decide)
  copyCount := h.copyCount
  output := h.output

/-! ### STATUS (10_state.md R42) -/

theorem statusOk_of_cleared (hf : s.dp.fsm = .idle) (hs : s.reg.status = statusCleared) : StatusOk s := by
  simp [StatusOk, hf, hs, statusCleared]

theorem statusOk_of_running (hf : s.dp.fsm ≠ .idle) (hs : s.reg.status = statusRunning) : StatusOk s := by
  simp [StatusOk, hf, hs, statusRunning]

theorem statusOk_of_done (hf : s.dp.fsm = .idle) (hs : s.reg.status = statusDone) : StatusOk s := by
  simp [StatusOk, hf, hs, statusDone]

theorem statusOk_of_error {c : ErrCode} (hf : s.dp.fsm = .idle) (hs : s.reg.status = statusError c) :
    StatusOk s := by
  cases c <;> simp [StatusOk, hf, hs, statusError, errNumber]

/-! ### Buffers -/

theorem bufferOk_nil {α : Type} (cap : Nat) : BufferOk cap ([] : List (Nat × α)) :=
  ⟨Memory.wf_nil, Memory.below_nil cap⟩

theorem BufferOk.set {α : Type} {cap a : Nat} {m : List (Nat × α)} (h : BufferOk cap m) (x : α) (ha : a < cap) :
    BufferOk cap (Memory.set m a x) :=
  ⟨Memory.wf_set m a x h.1, Memory.below_set m x h.2 ha⟩

theorem BufferOk.setMany {α : Type} {cap a : Nat} {m : List (Nat × α)} (h : BufferOk cap m) (xs : List α)
    (ha : a + xs.length ≤ cap) : BufferOk cap (Memory.setMany m a xs) :=
  ⟨Memory.wf_setMany xs m a h.1, Memory.below_setMany xs m h.2 ha⟩

theorem filled_zero {α : Type} (m : List (Nat × α)) : Filled 0 m := fun _ hi => absurd hi (Nat.not_lt_zero _)

/-- A write right behind the units that hold values adds one. -/
theorem Filled.set {α : Type} {n : Nat} {m : List (Nat × α)} (h : Filled n m) (x : α) :
    Filled (n + 1) (Memory.set m n x) := by
  intro i hi
  rw [Memory.get_set]
  split_ifs with hin
  · rfl
  · exact h i (by omega)

/-- A write of any unit frees none. -/
theorem Filled.set_of_any {α : Type} {n : Nat} {m : List (Nat × α)} (h : Filled n m) (a : Nat) (x : α) :
    Filled n (Memory.set m a x) := by
  intro i hi
  rw [Memory.get_set]
  split_ifs
  · rfl
  · exact h i hi

/-- A sequence written right behind the units that hold values adds its length. -/
theorem Filled.setMany {α : Type} {n : Nat} {m : List (Nat × α)} (h : Filled n m) (xs : List α) :
    Filled (n + xs.length) (Memory.setMany m n xs) := by
  induction xs generalizing m n with
  | nil => exact h
  | cons x xs ih =>
    have := ih (h.set x)
    rwa [Nat.add_assoc, Nat.add_comm 1] at this

/-! ### The error exit (60_exceptions.md R310) -/

theorem StoreOk.raiseError (h : StoreOk s) (o : Origin) (c : ErrCode) : Inv (raiseError o c s) := by
  refine StoreOk.inv_of_idle ?_ (by simp) (statusOk_of_error (by simp) (raiseError_status s o c))
  cases o with
  | encodeStart => exact ⟨h.build, h.latch, h.inOk, h.bsOk, h.outOk, h.copyCount, h.output⟩
  | reservedStart => exact ⟨h.build, h.latch, h.inOk, h.bsOk, h.outOk, h.copyCount, h.output⟩
  | decodeStart =>
    exact ⟨h.build, h.latch, h.inOk, h.bsOk, bufferOk_nil _, h.copyCount, Nat.zero_le _, filled_zero _⟩
  | decodeStep =>
    exact ⟨h.build, h.latch, h.inOk, h.bsOk, bufferOk_nil _, h.copyCount, Nat.zero_le _, filled_zero _⟩

/-! ### Host steps -/

/-- The host's side and the value read are no part of what makes a state legal. -/
theorem Inv.withHostSide (h : Inv s) (q : List Instr) (sc : List Agent) (r : Word) (d : Nat) :
    Inv { s with hostQ := q, sched := sc, rdata := r, draws := d } :=
  { h with }

theorem Inv.tick (h : Inv s) : Inv (tick s) := h.withHostSide _ _ _ _

theorem Inv.hostReturns (h : Inv s) (v : Word) : Inv (hostReturns v s) := h.withHostSide _ _ _ _

theorem Inv.withIn (h : Inv s) {m : List Host.Cell} (hm : BufferOk s.par.inCap m) : Inv { s with inb := m } :=
  { h with inOk := hm }

/-- Registers that are neither STATUS nor OUT_LEN are free (10_state.md R43 to R47). -/
theorem Inv.withReg (h : Inv s) (r : Regs) (hs : r.status = s.reg.status) (ho : r.outLen = s.reg.outLen) :
    Inv { s with reg := r } := by
  have hst : StatusOk { s with reg := r } := by
    simp only [StatusOk, hs]
    exact h.status
  exact { h with status := hst, output := (h.storeOk.withReg r ho).output }

theorem regStore_status (r : Regs) (a : BitVec 8) (v : Word) : (regStore r a v).status = r.status := by
  unfold regStore
  split_ifs <;> rfl

theorem regStore_outLen (r : Regs) (a : BitVec 8) (v : Word) : (regStore r a v).outLen = r.outLen := by
  unfold regStore
  split_ifs <;> rfl

theorem StoreOk.beginCommand (h : StoreOk s) : StoreOk (beginCommand s) := h.withReg _ rfl

theorem StoreOk.clearOutLen (h : StoreOk s) : StoreOk (clearOutLen s) :=
  ⟨h.build, h.latch, h.inOk, h.bsOk, h.outOk, h.copyCount, Nat.zero_le _, filled_zero _⟩

theorem StoreOk.snapshot (h : StoreOk s) (n : Word) : StoreOk (snapshot n s) := h.withDp _ h.copyCount

/-- 60_exceptions.md R302: what the check of a command start admits. -/
theorem configLegal_iff (s : State) : configLegal s = true ↔
    1 ≤ s.reg.windowSize.toNat ∧ s.reg.windowSize.toNat ≤ s.par.wMax ∧
    2 ≤ s.reg.lookaheadCap.toNat ∧ s.reg.lookaheadCap.toNat ≤ s.par.laMax := by
  simp only [configLegal, Bool.and_eq_true, decide_eq_true_eq, and_assoc]

/-- The derived quantities of a 32-bit window size fit their registers (10_state.md R32). -/
theorem toNat_cow (w : Word) : (BitVec.ofNat 6 (offsetWidth w.toNat)).toNat = offsetWidth w.toNat := by
  have : offsetWidth w.toNat ≤ 32 := (bitlen_le_iff _ _).2 (by have := w.isLt; omega)
  rw [BitVec.toNat_ofNat]
  omega

theorem toNat_cmo (w : Word) : (BitVec.ofNat 32 (maxOffset w.toNat)).toNat = maxOffset w.toNat := by
  have : maxOffset w.toNat ≤ w.toNat := min_le_left _ _
  have := w.isLt
  rw [BitVec.toNat_ofNat]
  omega

/-- The snapshot of a legal configuration is legal with its derived quantities (43_encoder.md R201, 44_decoder.md
R231). -/
theorem snapshot_of_configLegal (hc : configLegal s = true) (n : Word) :
    1 ≤ (snapshot n s).dp.cw.toNat ∧ (snapshot n s).dp.cw.toNat ≤ s.par.wMax ∧
    2 ≤ (snapshot n s).dp.cla.toNat ∧ (snapshot n s).dp.cla.toNat ≤ s.par.laMax ∧
    (snapshot n s).dp.cow.toNat = offsetWidth (snapshot n s).dp.cw.toNat ∧
    (snapshot n s).dp.cmo.toNat = maxOffset (snapshot n s).dp.cw.toNat := by
  obtain ⟨h₁, h₂, h₃, h₄⟩ := (configLegal_iff s).1 hc
  exact ⟨h₁, h₂, h₃, h₄, toNat_cow _, toNat_cmo _⟩

/-- An accepted ENCODE starts in a legal state (45_host_interface.md R262). -/
theorem StoreOk.startEncode (h : StoreOk s) (hc : configLegal s = true) {n : Word} (hn : n.toNat ≤ s.par.inCap) :
    Inv (startEncode (Machine.snapshot n s)) :=
  { h.snapshot n with
    status := statusOk_of_running (by simp) (by simp)
    snapshot := fun _ => snapshot_of_configLegal hc n
    encoder := fun _ => ⟨Nat.zero_le _, hn, Nat.zero_le _, filled_zero _⟩
    decoder := fun hd => by simp at hd
    copy := fun hd => by simp at hd }

/-- An accepted DECODE starts in a legal state (45_host_interface.md R263). -/
theorem StoreOk.startDecode (h : StoreOk s) (hc : configLegal s = true) {n : Word} (hn : n.toNat ≤ s.par.bsCap) :
    Inv (startDecode (Machine.snapshot n s)) :=
  { h.snapshot n with
    status := statusOk_of_running (by simp) (by simp)
    snapshot := fun _ => snapshot_of_configLegal hc n
    encoder := fun he => by simp at he
    decoder := fun _ => ⟨Nat.zero_le _, hn, Nat.zero_le _, filled_zero _⟩
    copy := fun hd => by simp at hd }

theorem Inv.execEncode (h : Inv s) (ht : execEncode s = .next t) : Inv t := by
  have hb : StoreOk (beginCommand s) := h.storeOk.beginCommand
  unfold Machine.execEncode at ht
  split_ifs at ht with hidle hlegal hfit
  · cases ht
    exact h
  · cases ht
    exact hb.raiseError _ _
  · cases ht
    exact hb.raiseError _ _
  · cases ht
    have hc : configLegal s = true := by simpa using hlegal
    exact hb.startEncode hc (not_lt.1 hfit)

theorem Inv.execDecode (h : Inv s) (ht : execDecode s = .next t) : Inv t := by
  have hb : StoreOk (Machine.clearOutLen (beginCommand s)) := h.storeOk.beginCommand.clearOutLen
  unfold Machine.execDecode at ht
  split_ifs at ht with hidle hlegal hfit
  · cases ht
    exact h
  · cases ht
    exact hb.raiseError _ _
  · cases ht
    exact hb.raiseError _ _
  · cases ht
    have hc : configLegal s = true := by simpa using hlegal
    exact hb.startDecode hc (not_lt.1 hfit)

theorem Inv.execReservedCmd (h : Inv s) {op : BitVec 4} (ht : execReservedCmd op s = .next t) : Inv t := by
  unfold Machine.execReservedCmd at ht
  split_ifs at ht
  · cases ht
    exact h
  · cases ht
    exact h.storeOk.beginCommand.raiseError _ _

/-- A command keeps a state legal, started or ignored (45_host_interface.md R260 to R265). -/
theorem Inv.cmdWrite (h : Inv s) {v : Word} (ht : cmdWrite v s = .next t) : Inv t := by
  unfold Machine.cmdWrite at ht
  dsimp only at ht
  split_ifs at ht
  · cases ht
    exact h
  · exact h.execEncode ht
  · exact h.execDecode ht
  · exact h.execReservedCmd ht

theorem exec_decodeCmd (v : Word) (s : State) : exec (decodeCmd v) s = cmdWrite v s := by
  unfold decodeCmd cmdWrite
  dsimp only
  split_ifs <;> rfl

theorem Inv.execRegRead (h : Inv s) {a : BitVec 8} (ht : execRegRead a s = .next t) : Inv t := by
  unfold Machine.execRegRead at ht
  split_ifs at ht
  cases ht
  exact h.hostReturns _

theorem Inv.execRegWrite (h : Inv s) {a : BitVec 8} {v : Word} (ht : execRegWrite a v s = .next t) : Inv t := by
  unfold Machine.execRegWrite at ht
  split_ifs at ht
  · exact h.cmdWrite ht
  · cases ht
    exact h.withReg _ (regStore_status _ _ _) (regStore_outLen _ _ _)

theorem Inv.execInRead (h : Inv s) {i : Nat} (ht : execInRead i s = .next t) : Inv t := by
  unfold Machine.execInRead at ht
  split_ifs at ht
  · cases ht
    exact h.hostReturns _
  · cases ht
    exact h.tick.hostReturns _

theorem Inv.execInWrite (h : Inv s) {i : Nat} {b : Byte} (ht : execInWrite i b s = .next t) : Inv t := by
  unfold Machine.execInWrite at ht
  split_ifs at ht with hcap henc
  · cases ht
    exact h
  · cases ht
    exact h.withIn (h.inOk.set b (not_le.1 hcap))

theorem Inv.execBsReadByte (h : Inv s) {j : Nat} (ht : execBsReadByte j s = .next t) : Inv t := by
  unfold Machine.execBsReadByte at ht
  split_ifs at ht
  · cases ht
    exact h.hostReturns _
  · cases ht
    exact h.tick.hostReturns _
  · cases ht
    exact h.tick.hostReturns _

/-- A byte below the capacity writes eight bits below it, and only while the core is IDLE. -/
theorem Inv.execBsWriteByte (h : Inv s) {j : Nat} {b : Byte} (ht : execBsWriteByte j b s = .next t) : Inv t := by
  unfold Machine.execBsWriteByte at ht
  split_ifs at ht with hcap hidle
  · cases ht
    exact h
  · cases ht
    have hfit : 8 * j + (bin b.toNat 8).length ≤ s.par.bsCap := by
      rw [length_bin]
      omega
    exact (h.storeOk.withBs (h.bsOk.setMany _ hfit)).inv_of_idle (not_not.1 hidle) h.status

theorem Inv.execOutRead (h : Inv s) {i : Nat} (ht : execOutRead i s = .next t) : Inv t := by
  unfold Machine.execOutRead at ht
  split_ifs at ht
  · cases ht
    exact h.hostReturns _
  · cases ht
    exact h.tick.hostReturns _
  · cases ht
    exact h.tick.hostReturns _

/-- 70_reset_and_hazards.md R330: RESET frees every buffer and the datapath, each register within its width. -/
theorem Inv.execReset (h : Inv s) (ht : execReset s = .next t) : Inv t := by
  cases ht
  refine StoreOk.inv_of_idle ?_ rfl (statusOk_of_cleared rfl rfl)
  exact ⟨h.build, h.latch, bufferOk_nil _, bufferOk_nil _, bufferOk_nil _, toNat_lenField_lt _ _,
    Nat.zero_le _, filled_zero _⟩

/-- Every action of the host keeps a state legal; what is no action of the host decodes to none. -/
theorem Inv.exec_of_decodeAction (h : Inv s) {a i : Instr} (hd : decodeAction a = .ok i)
    (ht : exec i s = .next t) : Inv t := by
  cases a with
  | regWrite a v =>
    rw [decodeAction] at hd
    split_ifs at hd
    · cases hd
      exact h.cmdWrite (exec_decodeCmd v s ▸ ht)
    · cases hd
      exact h.execRegWrite ht
  | nop =>
    cases hd
    cases ht
    exact h
  | encode =>
    cases hd
    exact h.execEncode ht
  | decode =>
    cases hd
    exact h.execDecode ht
  | reservedCmd op =>
    cases hd
    exact h.execReservedCmd (op := op) ht
  | regRead a =>
    cases hd
    exact h.execRegRead ht
  | inRead k =>
    cases hd
    exact h.execInRead ht
  | inWrite k b =>
    cases hd
    exact h.execInWrite ht
  | bsReadByte j =>
    cases hd
    exact h.execBsReadByte ht
  | bsWriteByte j b =>
    cases hd
    exact h.execBsWriteByte ht
  | outRead k =>
    cases hd
    exact h.execOutRead ht
  | outWrite k b =>
    cases hd
    cases ht
    exact h
  | reset =>
    cases hd
    exact h.execReset ht
  | lit | matchTok | bsAppendBit | bsAppendUint | bsAppendBits | bsReadBit | bsReadUint | bsAtEnd | vlcEncode
  | vlcDecode | findLongestMatch => cases hd

theorem Inv.hostStep (h : Inv s) (ht : hostStep s = .next t) : Inv t := by
  unfold Machine.hostStep at ht
  split at ht
  · cases ht
    exact h
  · split at ht
    next hd => exact (h.withHostSide _ _ _ _).exec_of_decodeAction hd ht
    · cases ht

end Sys2Proof.Machine
end

section
/-! PROOFS: a step of DECODE keeps a state legal (44_decoder.md R231 to R237). -/

namespace Sys2Proof.Machine

variable {s t : State}

/-- A sum that fits the register does not wrap (log 13). -/
theorem toNat_add_ofNat (w : Word) {n : Nat} (h : w.toNat + n < 2 ^ 32) :
    (w + BitVec.ofNat 32 n).toNat = w.toNat + n := by
  rw [BitVec.toNat_add, BitVec.toNat_ofNat, Nat.add_mod_mod, Nat.mod_eq_of_lt h]

/-- While a command runs STATUS says the same of every state of the core. -/
theorem StatusOk.of_running (h : StatusOk s) (hs : s.dp.fsm ≠ .idle) (ht : t.dp.fsm ≠ .idle)
    (he : t.reg.status = s.reg.status) : StatusOk t := by
  rw [StatusOk, he]
  exact ⟨iff_of_true (h.1.2 hs) ht, h.2⟩

theorem Inv.tokenAborted (h : Inv s) (c : ErrCode) (used : Nat) : Inv (tokenAborted c used s) :=
  (h.storeOk.withDp (Machine.advance used (markToken s)).dp h.copyCount).raiseError _ _

/-- Bits are read up to the stream's end. -/
theorem Inv.advance (h : Inv s) (hf : s.dp.fsm = .dToken) {n : Nat} (hn : s.dp.rptr.toNat + n ≤ s.dp.cn.toNat) :
    Inv (advance n (markToken s)) := by
  obtain ⟨_, hcn, hol, hfill⟩ := h.decoder (.inl hf)
  have hr := toNat_add_ofNat s.dp.rptr (n := n) (hn.trans_lt s.dp.cn.isLt)
  exact { h with decoder := fun _ => ⟨hr.trans_le hn, hcn, hol, hfill⟩ }

/-- The output grows without wrapping while it is not full. -/
theorem toNat_olen_succ (hw : s.par.wf = true) (hlt : s.dp.olen.toNat < s.par.outCap) :
    (s.dp.olen + 1).toNat = s.dp.olen.toNat + 1 := by
  have hcap := Params.outCap_lt hw
  exact toNat_add_ofNat s.dp.olen (n := 1) (by omega)

/-- A byte written right behind the output leaves every byte of the longer output with a value. -/
theorem filled_putByte (hw : s.par.wf = true) (hlt : s.dp.olen.toNat < s.par.outCap)
    (hs : Filled s.dp.olen.toNat s.outb) (b : Byte) : Filled (s.dp.olen + 1).toNat (putByte b s).outb := by
  rw [toNat_olen_succ hw hlt]
  exact hs.set b

theorem StoreOk.putByte (h : StoreOk s) (hlt : s.dp.olen.toNat < s.par.outCap) (b : Byte) :
    StoreOk (putByte b s) :=
  ⟨h.build, h.latch, h.inOk, h.bsOk, h.outOk.set b hlt, h.copyCount, h.output.1, h.output.2.set_of_any _ b⟩

theorem Inv.putByte (h : Inv s) (hf : s.dp.fsm = .dToken) (hlt : s.dp.olen.toNat < s.par.outCap) (b : Byte) :
    Inv (putByte b s) := by
  obtain ⟨hr, hcn, _, hfill⟩ := h.decoder (.inl hf)
  exact
    { h.storeOk.putByte hlt b with
      status := h.status
      snapshot := h.snapshot
      encoder := h.encoder
      decoder := fun _ => ⟨hr, hcn, (toNat_olen_succ h.build hlt).trans_le hlt, filled_putByte h.build hlt hfill b⟩
      copy := fun hc => absurd (hf.symm.trans hc) (by decide) }

theorem Inv.execLit (h : Inv s) (hf : s.dp.fsm = .dToken) {b : Byte} (ht : execLit b s = .next t) : Inv t := by
  obtain ⟨c, used, rfl⟩ | ⟨hn, hlt, rfl⟩ := execLit_eq_next ht
  · exact h.tokenAborted c used
  · exact (h.advance hf hn).putByte hf hlt b

/-- A copy begins whose source lies in the output and whose bytes fit OUT (44_decoder.md R236). -/
theorem Inv.beginCopy (h : Inv s) (hf : s.dp.fsm = .dToken) {off len : Nat} (h1 : 1 ≤ len)
    (hlen : len < 2 ^ s.par.lenW) (hoff : 1 ≤ off) (hle : off ≤ s.dp.olen.toNat)
    (hfit : s.dp.olen.toNat + len ≤ s.par.outCap) : Inv (beginCopy off len s) := by
  have hw := Params.lenW_le h.build
  have hoffNat : (BitVec.ofNat 32 off).toNat = off :=
    Nat.mod_eq_of_lt (hle.trans_lt s.dp.olen.isLt)
  have hlenNat : (lenField s.par len).toNat = len := toNat_lenField s.par (by omega) hlen
  have hne : s.dp.fsm ≠ .idle := by simp [hf]
  exact
    { h.storeOk.withDp _ (toNat_lenField_lt s.par len) with
      status := h.status.of_running hne (by simp) rfl
      snapshot := fun _ => h.snapshot hne
      encoder := fun he => by simp at he
      decoder := fun _ => h.decoder (.inl hf)
      copy := fun _ => ⟨hoff.trans_eq hoffNat.symm, hoffNat.trans_le hle, h1.trans_eq hlenNat.symm, by
        simpa [hlenNat] using hfit⟩ }

theorem Inv.execMatch (h : Inv s) (hf : s.dp.fsm = .dToken) {off len pad : Nat} (h1 : 1 ≤ len)
    (ht : execMatch off len pad s = .next t) : Inv t := by
  obtain ⟨c, used, rfl⟩ | ⟨used, hn, hlen, hoff, hle, hfit, rfl⟩ := execMatch_eq_next ht
  · exact h.tokenAborted c used
  · exact (h.advance hf hn).beginCopy hf h1 hlen hoff hle hfit

/-- DECODE ends with the bytes it has written as its result (44_decoder.md R234). -/
theorem Inv.decodeExit (h : Inv s) (hf : s.dp.fsm = .dToken) : Inv (decodeExit s) := by
  obtain ⟨_, _, hol, hfill⟩ := h.decoder (.inl hf)
  refine StoreOk.inv_of_idle ?_ rfl (statusOk_of_done rfl rfl)
  exact ⟨h.build, h.latch, h.inOk, h.bsOk, h.outOk, h.copyCount, hol, hfill⟩

theorem Inv.tokenStep (h : Inv s) (hf : s.dp.fsm = .dToken) (ht : tokenStep s = .next t) : Inv t := by
  obtain ⟨_, rfl⟩ | ⟨_, ⟨e, used, rfl⟩ | ⟨b, hx⟩ | ⟨off, len, pad, h1, hx⟩⟩ := tokenStep_eq_next ht
  · exact h.decodeExit hf
  · exact h.tick.tokenAborted _ used
  · exact h.tick.execLit hf hx
  · exact h.tick.execMatch hf h1 hx

/-- One byte of a match is copied: the output grows by one and the count shrinks by one (44_decoder.md R237). -/
theorem Inv.copyStep (h : Inv s) (hf : s.dp.fsm = .dCopy) : Inv (copyStep s) := by
  obtain ⟨hr, hcn, _, hfill⟩ := h.decoder (.inr hf)
  obtain ⟨hoff, hle, h1, hfit⟩ := h.copy hf
  have hlt : s.dp.olen.toNat < s.par.outCap := by omega
  have hrest := toNat_copyRest s ((Params.lenW_le h.build).trans (by decide)) h1 h.copyCount
  have hcount : (copyRest s).toNat < 2 ^ s.par.lenW := toNat_lenField_lt s.par _
  have ho := toNat_olen_succ h.build hlt
  have hfsm : (Machine.copyStep s).dp.fsm = if copyRest s = 0 then .dToken else .dCopy := by
    rw [← hf]
    rfl
  have hrun : (Machine.copyStep s).dp.fsm = .dToken ∨ (Machine.copyStep s).dp.fsm = .dCopy := by
    rw [hfsm]
    split_ifs <;> simp
  have hne : s.dp.fsm ≠ .idle := by simp [hf]
  exact
    { (h.tick.storeOk.putByte hlt _).withDp (Machine.copyStep s).dp hcount with
      status := h.status.of_running hne (by rcases hrun with hr | hr <;> simp [hr]) rfl
      snapshot := fun _ => h.snapshot hne
      encoder := fun he => by simp [he] at hrun
      decoder := fun _ => ⟨hr, hcn, ho.trans_le hlt, filled_putByte (s := Machine.tick s) h.build hlt hfill _⟩
      copy := fun hc => by
        have hz : copyRest s ≠ 0 := fun hz => by simp [hfsm, hz] at hc
        have hpos : 1 ≤ (copyRest s).toNat := Nat.one_le_iff_ne_zero.2 fun h0 => hz (BitVec.eq_of_toNat_eq h0)
        have hsum : (s.dp.olen + 1).toNat + (copyRest s).toNat ≤ s.par.outCap := by omega
        have hsrc : s.dp.coff.toNat ≤ (s.dp.olen + 1).toNat := by omega
        exact ⟨hoff, hsrc, hpos, hsum⟩ }

end Sys2Proof.Machine
end

section
/-! PROOFS: a step of ENCODE keeps a state legal: R15 and R209 leave room for every token, and none costs more than the
bound for the bytes it covers (43_encoder.md R201 to R212). With the steps before, every step keeps a state legal. -/

namespace Sys2Proof

theorem bitlen_le_self (n : Nat) : bitlen n ≤ n := (bitlen_le_iff n n).2 Nat.lt_two_pow_self

theorem length_tailBits (v : Nat) : (tailBits v).length = bitlen v - 1 := length_bin _ _

/-- The length of the code of 2 and more (41_length_codec.md R162). -/
theorem length_vlc {n : Nat} (h : 2 ≤ n) : (vlc n).length = 2 * bitlen (bitlen n) + bitlen n + 1 := by
  have h₁ : 0 < bitlen n := bitlen_pos (by omega)
  have h₂ : 0 < bitlen (bitlen n) := bitlen_pos (by omega)
  rw [vlc, if_neg (by omega), List.length_append, List.length_replicate, List.length_cons, List.length_append,
    length_tailBits, length_tailBits]
  omega

theorem nine_le_bitsPerByte (ow : Nat) : 9 ≤ bitsPerByte ow := le_max_left _ _

theorem eight_add_le_two_mul_bitsPerByte (ow : Nat) : 8 + ow ≤ 2 * bitsPerByte ow := by
  have : ceilHalf (8 + ow) ≤ bitsPerByte ow := le_max_right _ _
  unfold ceilHalf at this
  omega

theorem bitsPerByte_mono {a b : Nat} (h : a ≤ b) : bitsPerByte a ≤ bitsPerByte b := by
  unfold bitsPerByte ceilHalf
  omega

theorem length_encodeLit (b : Byte) : (encodeLit b).length = 9 := by rw [encodeLit, List.length_cons, length_bin]

theorem length_encodeMatch {ow off len : Nat} (h : 2 ≤ len) :
    (encodeMatch ow off len 0).length = 2 + ow + 2 * bitlen (bitlen len) + bitlen len := by
  rw [encodeMatch, List.length_cons, List.length_append, length_bin, lenCode, if_neg (by omega), length_vlc h]
  omega

/-- No MATCH costs more than the bound for the bytes it covers (43_encoder.md R209): two bytes pay for the flag, the
offset and the code of a length of 2, and the code grows by less than 9 bits with each byte more. -/
theorem length_encodeMatch_le (ow off : Nat) {len : Nat} (h : 2 ≤ len) :
    (encodeMatch ow off len 0).length ≤ len * bitsPerByte ow := by
  obtain ⟨k, rfl⟩ := Nat.exists_eq_add_of_le h
  have hk : k * 9 ≤ k * bitsPerByte ow := Nat.mul_le_mul_left k (nine_le_bitsPerByte ow)
  have h₁ := bitlen_le_self (2 + k)
  have h₂ := bitlen_le_self (bitlen (2 + k))
  have h₃ := eight_add_le_two_mul_bitsPerByte ow
  rw [length_encodeMatch h, Nat.add_mul]
  omega

end Sys2Proof

namespace Sys2Proof.Machine

variable {s t : State}

/-- A match that is found ends inside the lookahead (40_matcher.md R145). -/
theorem le_maxLength_of_findMatch {off len : Nat} (h : findMatch s = (true, off, len)) : len ≤ maxLength s := by
  unfold findMatch at h
  split at h
  · cases h
  next hl =>
    have := ((greatestBelow_eq_some_iff _ _ _).1 hl).1
    split at h
    · cases h
    · cases h
      omega

/-- `s` after the emission of a token with the bits `bits` that covers `n` bytes. -/
def emitted (bits : Bits) (n : Nat) (s : State) : State :=
  advanceCursor n
    { s with
      bs := Memory.setMany s.bs s.dp.wptr.toNat bits
      dp := { s.dp with wptr := s.dp.wptr + BitVec.ofNat 32 bits.length } }

/-- The stream of the input's first `n` bytes fits BS (43_encoder.md R209, 00_scope.md R15). -/
theorem Inv.mul_bitsPerByte_le (h : Inv s) (hf : s.dp.fsm = .eToken) {n : Nat} (hn : n ≤ s.dp.cn.toNat) :
    n * bitsPerByte s.dp.cow.toNat ≤ s.par.bsCap := by
  obtain ⟨_, hw, _, _, hcow, _⟩ := h.snapshot (by simp [hf])
  obtain ⟨_, hcn, _⟩ := h.encoder hf
  have hmono : bitsPerByte s.dp.cow.toNat ≤ bitsPerByte (bitlen (s.par.wMax - 1)) :=
    bitsPerByte_mono (hcow.trans_le (bitlen_mono (Nat.sub_le_sub_right hw 1)))
  exact (Nat.mul_le_mul (hn.trans hcn) hmono).trans (Params.inCap_mul_le h.build)

/-- A token whose bits keep the bound for the bytes it covers fits behind the stream so far. -/
theorem Inv.wptr_add_length_le (h : Inv s) (hf : s.dp.fsm = .eToken) {bits : Bits} {n : Nat}
    (hn : s.dp.cur.toNat + n ≤ s.dp.cn.toNat) (hb : bits.length ≤ n * bitsPerByte s.dp.cow.toNat) :
    s.dp.wptr.toNat + bits.length ≤ s.par.bsCap := by
  obtain ⟨_, _, hwptr, _⟩ := h.encoder hf
  have hcap := h.mul_bitsPerByte_le hf hn
  rw [Nat.add_mul] at hcap
  omega

/-- A token that fits is emitted. -/
theorem Inv.appendBits_eq_emitted (h : Inv s) {bits : Bits} {n : Nat}
    (hfit : s.dp.wptr.toNat + bits.length ≤ s.par.bsCap) :
    andThen (appendBits bits s) (fun u => .next (advanceCursor n u)) = .next (emitted bits n s) := by
  rw [appendBits_of_le bits s (Params.bsCap_lt h.build) hfit]
  rfl

theorem Inv.emitted (h : Inv s) (hf : s.dp.fsm = .eToken) {bits : Bits} {n : Nat}
    (hn : s.dp.cur.toNat + n ≤ s.dp.cn.toNat) (hb : bits.length ≤ n * bitsPerByte s.dp.cow.toNat) :
    Inv (emitted bits n s) := by
  obtain ⟨_, hcn, hwptr, hfill⟩ := h.encoder hf
  have hfit := h.wptr_add_length_le hf hn hb
  have hc := toNat_add_ofNat s.dp.cur (n := n) (hn.trans_lt s.dp.cn.isLt)
  have hw := toNat_add_ofNat s.dp.wptr (n := bits.length) (hfit.trans_lt (Params.bsCap_lt h.build))
  have hbound : (s.dp.wptr + BitVec.ofNat 32 bits.length).toNat ≤
      (s.dp.cur + BitVec.ofNat 32 n).toNat * bitsPerByte s.dp.cow.toNat := by
    rw [hc, hw, Nat.add_mul]
    omega
  have hfill' : Filled (s.dp.wptr + BitVec.ofNat 32 bits.length).toNat
      (Memory.setMany s.bs s.dp.wptr.toNat bits) := hw ▸ hfill.setMany bits
  exact
    { (h.storeOk.withBs (h.bsOk.setMany bits hfit)).withDp (Machine.emitted bits n s).dp h.copyCount with
      status := h.status
      snapshot := h.snapshot
      encoder := fun _ => ⟨hc.trans_le hn, hcn, hbound, hfill'⟩
      decoder := h.decoder
      copy := h.copy }

/-- What a token step of ENCODE does from a legal state: it appends a token that covers at least one byte of the input
and keeps the bound of R209, and it always can (43_encoder.md R203 to R206). -/
theorem Inv.encoderStep_eq (h : Inv s) (hf : s.dp.fsm = .eToken) (hc : s.dp.cur ≠ s.dp.cn) :
    ∃ bits n, 1 ≤ n ∧ s.dp.cur.toNat + n ≤ s.dp.cn.toNat ∧ bits.length ≤ n * bitsPerByte s.dp.cow.toNat ∧
      encoderStep s = .next (Machine.tick (Machine.emitted bits n s)) := by
  obtain ⟨_, _, _, hla, _⟩ := h.snapshot (by simp [hf])
  obtain ⟨hcur, _⟩ := h.encoder hf
  have hlt : s.dp.cur.toNat < s.dp.cn.toNat := lt_of_le_of_ne hcur fun he => hc (BitVec.eq_of_toNat_eq he)
  rcases hm : findMatch s with ⟨valid, off, len⟩
  rw [encoderStep, if_neg hc, hm]
  dsimp only
  by_cases hv : (valid && decide (2 ≤ len)) = true
  · rw [if_pos hv]
    simp only [Bool.and_eq_true, decide_eq_true_eq] at hv
    obtain ⟨rfl, h2⟩ := hv
    have hmax : len ≤ min s.dp.cla.toNat (s.dp.cn.toNat - s.dp.cur.toNat) := le_maxLength_of_findMatch hm
    have hd : vlcInDomain s.par len = true := by
      have := Params.laMax_lt h.build
      simp only [vlcInDomain, Bool.and_eq_true, decide_eq_true_eq]
      omega
    have hn : s.dp.cur.toNat + len ≤ s.dp.cn.toNat := by omega
    have hb := length_encodeMatch_le s.dp.cow.toNat off h2
    refine ⟨encodeMatch s.dp.cow.toNat off len 0, len, by omega, hn, hb, ?_⟩
    rw [emitMatch_eq hd (by omega), h.appendBits_eq_emitted (h.wptr_add_length_le hf hn hb)]
    rfl
  · rw [if_neg hv]
    have hn : s.dp.cur.toNat + 1 ≤ s.dp.cn.toNat := hlt
    have hb : (encodeLit (inByte s s.dp.cur.toNat)).length ≤ 1 * bitsPerByte s.dp.cow.toNat := by
      rw [length_encodeLit, Nat.one_mul]
      exact nine_le_bitsPerByte _
    refine ⟨_, 1, le_rfl, hn, hb, ?_⟩
    rw [emitLit_eq, h.appendBits_eq_emitted (h.wptr_add_length_le hf hn hb)]
    rfl

/-- The padding ends at a multiple of 8, as the capacity of BS is one (43_encoder.md R212, 00_scope.md R15). -/
theorem Inv.encodeExit (h : Inv s) (hf : s.dp.fsm = .eToken) : Inv (encodeExit s) := by
  obtain ⟨hcur, _, hwptr, _⟩ := h.encoder hf
  have hcap := h.mul_bitsPerByte_le hf hcur
  have hmod := Params.bsCap_mod h.build
  have hfit : s.dp.wptr.toNat + (padding s.dp.wptr.toNat).length ≤ s.par.bsCap := by
    rw [padding, List.length_replicate]
    omega
  have hstore := ((h.storeOk.withBs (h.bsOk.setMany _ hfit)).withDp (Machine.encodeExit s).dp h.copyCount).withReg
    (Machine.encodeExit s).reg rfl
  exact hstore.inv_of_idle rfl (statusOk_of_done rfl rfl)

theorem Inv.encoderStep (h : Inv s) (hf : s.dp.fsm = .eToken) (ht : encoderStep s = .next t) : Inv t := by
  by_cases hc : s.dp.cur = s.dp.cn
  · rw [Machine.encoderStep, if_pos hc] at ht
    cases ht
    exact h.encodeExit hf
  · obtain ⟨bits, n, _, hn, hb, he⟩ := h.encoderStep_eq hf hc
    cases he.symm.trans ht
    exact (h.emitted hf hn hb).tick

theorem Inv.coreStep (h : Inv s) (ht : coreStep s = .next t) : Inv t := by
  obtain ⟨_, rfl⟩ | ⟨hf, ht⟩ | ⟨hf, ht⟩ | ⟨hf, rfl⟩ := coreStep_eq_next ht
  · exact h
  · exact h.encoderStep hf ht
  · exact h.tokenStep hf ht
  · exact h.copyStep hf

theorem Inv.takeTurn (h : Inv s) : Inv (takeTurn s) := by
  rw [takeTurn_eq]
  exact h.withHostSide _ _ _ _

/-- Settles O49: no sub-block operation is presented in a legal state, and the host's and the core's steps keep it. -/
theorem stepKeepsLegalStates : Obligations.StepKeepsLegalStates := by
  intro s t h hstep
  obtain ⟨_, ⟨u, i, hu, _, _⟩ | ⟨_, _, ht⟩ | ⟨_, _, ht⟩⟩ := step_eq_next hstep
  · cases h.latch.symm.trans hu
  · exact h.takeTurn.hostStep ht
  · exact h.takeTurn.coreStep ht

end Sys2Proof.Machine
end

section
/-! PROOFS: what no core step changes (10_state.md R57 to R59), and that a running command reads its snapshot and not
the host's registers (R32). -/

namespace Sys2Proof.Machine

variable {s t : State}

/-! ### Frame -/

/-- `t` is `s` but for what a step of ENCODE writes: the datapath, BS, BS_LEN, STATUS (43_encoder.md section 1). -/
def EncodeFrame (s t : State) : Prop :=
  ∃ dp m st bl d,
    t = { s with dp := dp, bs := m, reg := { s.reg with status := st, bsLen := bl }, draws := d }

/-- `t` is `s` but for what a step of DECODE writes: the datapath, OUT, OUT_LEN, STATUS and the error context
(44_decoder.md R230). -/
def DecodeFrame (s t : State) : Prop :=
  ∃ dp m st ol eb ey d,
    t =
      { s with
        dp := dp
        outb := m
        reg := { s.reg with status := st, outLen := ol, errBitpos := eb, errBytepos := ey }
        draws := d }

theorem encoderStep_frame (h : encoderStep s = .next t) : EncodeFrame s t := by
  obtain ⟨_, rfl⟩ | ⟨_, u, rfl, hl | ⟨off, len, _, h2, hm⟩⟩ := encoderStep_eq_next h
  · exact ⟨_, _, _, _, _, rfl⟩
  · obtain ⟨m, w, c, rfl⟩ := emitLit_frame hl
    exact ⟨_, _, _, _, _, rfl⟩
  · obtain ⟨m, w, c, rfl⟩ := emitMatch_frame (by omega) hm
    exact ⟨_, _, _, _, _, rfl⟩

theorem tokenStep_frame (h : tokenStep s = .next t) : DecodeFrame s t := by
  obtain ⟨_, rfl⟩ | ⟨_, ⟨e, used, rfl⟩ | ⟨b, hx⟩ | ⟨off, len, pad, _, hx⟩⟩ := tokenStep_eq_next h
  · exact ⟨_, _, _, _, _, _, _, rfl⟩
  · exact ⟨_, _, _, _, _, _, _, rfl⟩
  · obtain ⟨c, used, rfl⟩ | ⟨_, _, rfl⟩ := execLit_eq_next hx
    · exact ⟨_, _, _, _, _, _, _, rfl⟩
    · exact ⟨_, _, _, _, _, _, _, rfl⟩
  · obtain ⟨c, used, rfl⟩ | ⟨used, _, _, _, _, _, rfl⟩ := execMatch_eq_next hx
    · exact ⟨_, _, _, _, _, _, _, rfl⟩
    · exact ⟨_, _, _, _, _, _, _, rfl⟩

theorem copyStep_frame (s : State) : DecodeFrame s (copyStep s) := ⟨_, _, _, _, _, _, _, rfl⟩

/-- Settles O59: by the state of the core, from what a step of ENCODE or of DECODE writes. -/
theorem coreStepFrame : Obligations.CoreStepFrame := by
  intro s t h
  obtain ⟨hf, rfl⟩ | ⟨hf, he⟩ | ⟨hf, hd⟩ | ⟨hf, rfl⟩ := coreStep_eq_next h
  · simp [hf]
  · obtain ⟨dp, m, st, bl, d, rfl⟩ := encoderStep_frame he
    simp [hf]
  · obtain ⟨dp, m, st, ol, eb, ey, d, rfl⟩ := tokenStep_frame hd
    simp [hf]
  · obtain ⟨dp, m, st, ol, eb, ey, d, ht⟩ := copyStep_frame s
    simp [hf, ht]

/-! ### ENCODE: a token is found and appended without a look at any host register -/

variable (r : Regs)

theorem findMatch_withReg (s : State) : findMatch { s with reg := r } = findMatch s := rfl

theorem appendBits_withReg {bits : Bits} (h : appendBits bits s = .next t) :
    appendBits bits { s with reg := r } = .next { t with reg := r } := by
  induction bits generalizing s with
  | nil =>
    cases h
    rfl
  | cons b bits ih =>
    rw [appendBits, appendBit] at h
    rw [appendBits, appendBit]
    split_ifs at h with hcap
    · cases h
    · rw [if_neg hcap]
      exact ih h

theorem emitLit_withReg (h : emitLit s = .next t) : emitLit { s with reg := r } = .next { t with reg := r } := by
  rw [emitLit_eq] at h ⊢
  obtain ⟨u, hu, ht⟩ := andThen_eq_next h
  cases ht
  exact congrArg (andThen · _) (appendBits_withReg r hu)

theorem emitMatch_withReg {off len : Nat} (hl : len ≠ 1) (h : emitMatch off len s = .next t) :
    emitMatch off len { s with reg := r } = .next { t with reg := r } := by
  have hd : vlcInDomain s.par len = true := vlcInDomain_of_emitMatch h
  rw [emitMatch_eq hd hl] at h
  obtain ⟨u, hu, ht⟩ := andThen_eq_next h
  cases ht
  rw [emitMatch_eq (s := { s with reg := r }) hd hl]
  exact congrArg (andThen · _) (appendBits_withReg r hu)

theorem encoderStep_withReg (hc : s.dp.cur ≠ s.dp.cn) (h : encoderStep s = .next t) :
    encoderStep { s with reg := r } = .next { t with reg := r } := by
  unfold encoderStep at h ⊢
  rw [if_neg hc] at h
  rw [if_neg hc, findMatch_withReg]
  rcases hm : findMatch s with ⟨valid, off, len⟩
  rw [hm] at h
  obtain ⟨u, hu, ht⟩ := andThen_eq_next h
  cases ht
  dsimp only
  split_ifs at hu ⊢ with hv
  · simp only [Bool.and_eq_true, decide_eq_true_eq] at hv
    exact congrArg (andThen · _) (emitMatch_withReg r (by omega) hu)
  · exact congrArg (andThen · _) (emitLit_withReg r hu)

/-- What goes on in the same way whatever the registers hold leaves them as they are. -/
theorem encoderStep_reg (hc : s.dp.cur ≠ s.dp.cn) (h : encoderStep s = .next t) : t.reg = s.reg := by
  have heq : t = { t with reg := s.reg } :=
    Host.Outcome.next.inj (h.symm.trans (encoderStep_withReg s.reg hc h))
  rw [heq]

theorem coreStep_of_eToken (hf : s.dp.fsm = .eToken) : coreStep s = encoderStep s := by rw [coreStep, hf]

theorem encode_withConfig (hf : s.dp.fsm = .eToken) (w la n : Word) (h : encoderStep s = .next t) :
    coreStep { s with reg := { s.reg with windowSize := w, lookaheadCap := la, inLen := n } } =
      .next { t with reg := { t.reg with windowSize := w, lookaheadCap := la, inLen := n } } := by
  rw [coreStep_of_eToken (by exact hf)]
  by_cases hc : s.dp.cur = s.dp.cn
  · rw [encoderStep, if_pos hc] at h
    cases h
    exact if_pos hc
  · rw [encoderStep_reg hc h]
    exact encoderStep_withReg _ hc h

/-! ### DECODE: no register the host may write is looked at -/

/-- `s` with other values in the registers the host may write while a command runs (45_host_interface.md R267). -/
def withConfig (w la n bl : Word) (s : State) : State :=
  { s with reg := { s.reg with windowSize := w, lookaheadCap := la, inLen := n, bsLen := bl } }

variable (w la n bl : Word)

theorem execLit_withConfig {b : Byte} (h : execLit b s = .next t) :
    execLit b (withConfig w la n bl s) = .next (withConfig w la n bl t) := by
  unfold execLit at h
  split_ifs at h with h₁ h₂
  · cases h
    exact if_pos h₁
  · cases h
    exact (if_neg h₁).trans (if_pos h₂)
  · cases h
    exact (if_neg h₁).trans (if_neg h₂)

theorem execMatch_withConfig {off len pad : Nat} (h : execMatch off len pad s = .next t) :
    execMatch off len pad (withConfig w la n bl s) = .next (withConfig w la n bl t) := by
  unfold execMatch at h
  dsimp only at h
  split_ifs at h with h₁ h₂ h₃ h₄
  · cases h
    exact if_pos h₁
  · cases h
    exact (if_neg h₁).trans (if_pos h₂)
  · cases h
    exact (if_neg h₁).trans ((if_neg h₂).trans (if_pos h₃))
  · cases h
    exact (if_neg h₁).trans ((if_neg h₂).trans ((if_neg h₃).trans (if_pos h₄)))
  · cases h
    exact (if_neg h₁).trans ((if_neg h₂).trans ((if_neg h₃).trans (if_neg h₄)))

theorem tokenStep_withConfig (h : tokenStep s = .next t) :
    tokenStep (withConfig w la n bl s) = .next (withConfig w la n bl t) := by
  have hend : atEnd (withConfig w la n bl s) = atEnd s := rfl
  have hfetch : fetchToken (withConfig w la n bl s) = fetchToken s := rfl
  unfold tokenStep at h ⊢
  rw [hend, hfetch]
  by_cases hc : atEnd s = true
  · rw [if_pos hc] at h ⊢
    cases h
    rfl
  · rw [if_neg hc] at h ⊢
    cases hf : fetchToken s with
    | err e used =>
      rw [hf] at h
      cases h
      rfl
    | ok i used rest =>
      rw [hf] at h
      obtain ⟨b, rfl⟩ | ⟨off, len, pad, rfl, _⟩ := decodeToken_eq_ok hf
      · exact execLit_withConfig w la n bl h
      · exact execMatch_withConfig w la n bl h

theorem coreStep_of_dToken (hf : s.dp.fsm = .dToken) : coreStep s = tokenStep s := by rw [coreStep, hf]

theorem coreStep_of_dCopy (hf : s.dp.fsm = .dCopy) : coreStep s = .next (copyStep s) := by rw [coreStep, hf]

/-- Settles O58: the registers a command's own exit writes are not among those the host may write, BS_LEN of ENCODE
apart; what a DECODE step leaves of them is its frame. -/
theorem snapshotIsolatesCommand : Obligations.SnapshotIsolatesCommand := by
  intro s t w la n bl hne h
  obtain ⟨hf, _⟩ | ⟨hf, he⟩ | ⟨hf, hd⟩ | ⟨hf, rfl⟩ := coreStep_eq_next h
  · exact absurd hf hne
  · exact ⟨encode_withConfig hf w la n he, fun hn => absurd hf hn⟩
  · have key w la n bl : coreStep (withConfig w la n bl s) = .next (withConfig w la n bl t) :=
      (coreStep_of_dToken (s := withConfig w la n bl s) hf).trans (tokenStep_withConfig w la n bl hd)
    obtain ⟨dp, m, st, ol, eb, ey, d, rfl⟩ := tokenStep_frame hd
    exact ⟨key w la n s.reg.bsLen, fun _ => key s.reg.windowSize s.reg.lookaheadCap s.reg.inLen bl⟩
  · exact ⟨coreStep_of_dCopy hf, fun _ => coreStep_of_dCopy hf⟩

end Sys2Proof.Machine
end

section
/-! PROOFS: the state after reset (10_state.md R56), and which operation a step runs (R30, R31; 44_decoder.md R233;
45_host_interface.md R260). -/

namespace Sys2Proof.Machine

variable {s : State}

/-- Settles O48: the reset state is IDLE with STATUS clear, and its buffers and OUT_LEN are empty. -/
theorem resetStateIsLegal : Obligations.ResetStateIsLegal := by
  refine StoreOk.inv_of_idle ?_ rfl (statusOk_of_cleared rfl rfl)
  exact ⟨by decide, rfl, bufferOk_nil _, bufferOk_nil _, bufferOk_nil _, by decide, Nat.zero_le _, filled_zero _⟩

/-- Settles O1: the reset table read register by register. -/
theorem resetRegistersReadAsSpecified : Obligations.ResetRegistersReadAsSpecified :=
  ⟨rfl, by decide, rfl, rfl, rfl, rfl, rfl, by decide, rfl, rfl, rfl⟩

theorem step_of_unit (hw : s.par.wf = true) {u : UnitWord} {i : Instr} (hu : s.unitOp = some u)
    (hd : decodeUnit u = .ok i) : step s = exec i { s with unitOp := none } := by
  rw [step, if_pos hw, hu]
  dsimp only
  rw [unitStep, hd]

theorem step_of_host (hw : s.par.wf = true) (hu : s.unitOp = none) (hn : nextAgent s = .host) :
    step s = hostStep (takeTurn s) := by rw [step, if_pos hw, hu, hn]

theorem step_of_core (hw : s.par.wf = true) (hu : s.unitOp = none) (hn : nextAgent s = .core) :
    step s = coreStep (takeTurn s) := by rw [step, if_pos hw, hu, hn]

/-- A host step is the oldest action of the host, decoded. -/
theorem hostStep_of_cons {a i : Instr} {rest : List Instr} (hq : s.hostQ = a :: rest) (hd : decodeAction a = .ok i) :
    hostStep s = exec i { s with hostQ := rest } := by
  rw [hostStep, hq]
  dsimp only
  rw [hd]

/-! Whose turn it is (log 4), and what of `sched` is used up. -/

theorem nextAgent_of_hostQ_nil (hq : s.hostQ = []) : nextAgent s = .core := by simp [nextAgent, hq]

theorem nextAgent_of_idle (hq : s.hostQ ≠ []) (hf : s.dp.fsm = .idle) : nextAgent s = .host := by
  simp [nextAgent, hq, hf]

theorem nextAgent_of_sched_nil (hf : s.dp.fsm ≠ .idle) (hs : s.sched = []) : nextAgent s = .core := by
  simp [nextAgent, hf, hs]

theorem nextAgent_of_sched_cons (hq : s.hostQ ≠ []) (hf : s.dp.fsm ≠ .idle) {a : Agent} {more : List Agent}
    (hs : s.sched = a :: more) : nextAgent s = a := by simp [nextAgent, hq, hf, hs]

theorem takeTurn_of_contested (hq : s.hostQ ≠ []) (hf : s.dp.fsm ≠ .idle) :
    takeTurn s = { s with sched := s.sched.tail } := by simp [takeTurn, contested, hq, hf]

theorem takeTurn_of_sched_nil (hs : s.sched = []) : takeTurn s = s := by
  have htail : s.sched.tail = s.sched := by rw [hs, List.tail_nil]
  rw [takeTurn, htail, ite_self]

/-- Settles O17: the latch first, else the agent whose turn it is; a core step in D_TOKEN runs the token read. -/
theorem stepRunsDecodedInstruction : Obligations.StepRunsDecodedInstruction := by
  intro s hw
  refine ⟨fun u i hu hd => step_of_unit hw hu hd, fun hu => ⟨?_, ?_, ?_, ?_, ?_⟩, ?_, ?_⟩
  · intro a rest i hq hd hf
    have hne : s.hostQ ≠ [] := by simp [hq]
    rw [step_of_host hw hu (nextAgent_of_idle hne hf), takeTurn_of_idle s hf, hostStep_of_cons hq hd]
  · intro a rest i more hq hd hf hs
    have hne : s.hostQ ≠ [] := by simp [hq]
    rw [step_of_host hw hu (nextAgent_of_sched_cons hne hf hs), takeTurn_of_contested hne hf, hs]
    exact hostStep_of_cons hq hd
  · intro more hne hf hs
    rw [step_of_core hw hu (nextAgent_of_sched_cons hne hf hs), takeTurn_of_contested hne hf, hs]
    rfl
  · intro _ hf hs
    rw [step_of_core hw hu (nextAgent_of_sched_nil hf hs), takeTurn_of_sched_nil hs]
  · intro hq
    rw [step_of_core hw hu (nextAgent_of_hostQ_nil hq), takeTurn_of_hostQ_nil s hq]
  · intro hf
    rw [coreStep, hf]
  · intro i used rest hf hne hd
    have hfetch : fetchToken s = .ok i used rest := hd
    rw [coreStep_of_dToken hf, tokenStep, if_neg (by simpa [atEnd] using hne), hfetch]
    rfl

end Sys2Proof.Machine
end

section
/-! PROOFS of 20_memory.md: the byte view of BS (R84) and the refusal of misaligned register accesses (R89). -/

namespace Sys2Proof.Machine

variable {s : State}

theorem exec_regRead_of_misaligned {a : BitVec 8} (h : a.toNat % 4 ≠ 0) :
    exec (.regRead a) s = .refused (.misalignedRegister a) := by
  rw [exec, execRegRead, if_pos h]

theorem exec_regWrite_of_misaligned {a : BitVec 8} (v : Word) (h : a.toNat % 4 ≠ 0) :
    exec (.regWrite a v) s = .refused (.misalignedRegister a) := by
  rw [exec, execRegWrite, if_pos h]

/-- A byte written while IDLE is stored as its eight bits, the most significant first (45_host_interface.md R270). -/
theorem exec_bsWriteByte_of_idle (hf : s.dp.fsm = .idle) {j : Nat} (hj : j < s.par.bsCap / 8) (b : Byte) :
    exec (.bsWriteByte j b) s = .next { s with bs := Memory.setMany s.bs (8 * j) (bin b.toNat 8) } := by
  rw [exec, execBsWriteByte, if_neg (not_le.2 hj), if_neg (not_not.2 hf)]

/-- Unless ENCODE runs, a read returns the byte that BS holds (45_host_interface.md R269). -/
theorem exec_bsReadByte_of_not_encoding (hf : s.dp.fsm ≠ .eToken) {j : Nat} (hj : j < s.par.bsCap / 8) :
    exec (.bsReadByte j) s = .next (hostReturns ((bsByte s j).setWidth 32) (tick s)) := by
  rw [exec, execBsReadByte, if_neg (not_le.2 hj), if_neg hf]

/-- The eight bits of a byte view are the eight units that hold values there. -/
theorem bsByteBits_of_setMany {m : List (Nat × Bool)} {j : Nat} {bits : Bits} (hl : bits.length = 8)
    (hm : s.bs = Memory.setMany m (8 * j) bits) : bsByteBits s j = bits := by
  refine List.ext_getElem (by simp [bsByteBits, hl]) fun k _ hk => ?_
  have hget : Memory.get s.bs (8 * j + k) = some bits[k] := by
    rw [hm, Memory.get_setMany, if_pos (by omega), Nat.add_sub_cancel_left, List.getElem?_eq_getElem hk]
  simpa [bsByteBits] using bsBit_of_get hget

/-- A byte's binary digits, stored as BS byte `j`, are seen as that byte (20_memory.md R84). -/
theorem bsByte_of_setMany_bin {m : List (Nat × Bool)} {j : Nat} {b : Byte}
    (hm : s.bs = Memory.setMany m (8 * j) (bin b.toNat 8)) : bsByte s j = b := by
  rw [bsByte, bsByteBits_of_setMany (length_bin _ _) hm, val_bin, Nat.mod_eq_of_lt b.isLt, BitVec.ofNat_toNat,
    BitVec.setWidth_eq]

/-- Settles O40: both register accesses test the offset before anything else. -/
theorem misalignedRegisterRefused : Obligations.MisalignedRegisterRefused :=
  fun _ _ v h => ⟨exec_regRead_of_misaligned h, exec_regWrite_of_misaligned v h⟩

/-- Settles O44: the write leaves the core IDLE and the byte's digits in BS, which the read puts together again. -/
theorem bsByteReadAfterWrite : Obligations.BsByteReadAfterWrite := by
  intro s j b hf hj
  refine ⟨_, _, exec_bsWriteByte_of_idle hf hj b, exec_bsReadByte_of_not_encoding ?_ ?_, ?_⟩
  · simp [hf]
  · exact hj
  · rw [hostReturns_rdata, bsByte_of_setMany_bin rfl]

end Sys2Proof.Machine
end

section
/-! PROOFS of 30_encoding.md: the readers take exactly what the encoder writes (R112 to R118), the fields of a CMD word
(R125, R126), and so the round trips of the decoder and the encoder (R119). -/

namespace Sys2Proof

/-! ### Fields -/

theorem bin_mod (v w : Nat) {k : Nat} (h : w ≤ k) : bin (v % 2 ^ k) w = bin v w := by
  induction w with
  | zero => rfl
  | succ w ih => rw [bin, bin, ih (by omega), Nat.testBit_mod_two_pow, decide_eq_true (by omega), Bool.true_and]

/-- A bit sequence is the field of its value (00_scope.md R22). -/
theorem bin_val (xs : Bits) : bin (val xs) xs.length = xs := by
  induction xs with
  | nil => rfl
  | cons b xs ih =>
    have hlow : val (b :: xs) % 2 ^ xs.length = val xs := by
      rw [val_cons, Nat.mul_add_mod', Nat.mod_eq_of_lt (val_lt xs)]
    have hhigh : (val (b :: xs)).testBit xs.length = b := by
      rw [Nat.testBit_eq_decide_div_mod_eq, val_cons, Nat.mul_comm, Nat.mul_add_div (Nat.two_pow_pos _),
        Nat.div_eq_of_lt (val_lt xs)]
      cases b <;> rfl
    rw [List.length_cons, bin, hhigh, ← bin_mod _ _ le_rfl, hlow, ih]

/-- A field is read as its value, and from its own bits alone (42_bitstream.md R185, R188). -/
theorem readUint_zero_eq_some_iff {w n : Nat} {bs rest : Bits} :
    readUint w 0 bs = some (n, rest) ↔ n < 2 ^ w ∧ bs = bin n w ++ rest := by
  constructor
  · intro h
    obtain ⟨hbs, hlen, hn⟩ := readUint_eq_some h
    rw [Nat.zero_mul, Nat.zero_add] at hn
    have hfield := bin_val (bs.take w)
    have hlt := val_lt (bs.take w)
    rw [hlen, ← hn] at hfield hlt
    exact ⟨hlt, by rw [hfield, ← hbs]⟩
  · rintro ⟨hlt, rfl⟩
    rw [readUint_bin, Nat.mod_eq_of_lt hlt, Nat.zero_mul, Nat.zero_add]

theorem bitlen_zero : bitlen 0 = 0 := rfl

theorem bitlen_eq_succ_iff {n w : Nat} : bitlen n = w + 1 ↔ 2 ^ w ≤ n ∧ n < 2 ^ (w + 1) := by
  have h₁ := bitlen_le_iff n w
  have h₂ := bitlen_le_iff n (w + 1)
  omega

/-- Behind a leading 1, `w` bits are read as a number of `w + 1` digits, and they are its tail
(41_length_codec.md R165). -/
theorem readUint_one_eq_some_iff {w n : Nat} {bs rest : Bits} :
    readUint w 1 bs = some (n, rest) ↔ bitlen n = w + 1 ∧ bs = tailBits n ++ rest := by
  constructor
  · intro h
    obtain ⟨hbs, hlen, hn⟩ := readUint_eq_some h
    have hlt := val_lt (bs.take w)
    rw [hlen] at hlt
    rw [Nat.one_mul] at hn
    have hbit : bitlen n = w + 1 := bitlen_eq_succ_iff.2 (by rw [pow_succ]; omega)
    have hmod : n % 2 ^ w = val (bs.take w) := by rw [hn, Nat.add_mod_left, Nat.mod_eq_of_lt hlt]
    have hfield := bin_val (bs.take w)
    rw [hlen] at hfield
    exact ⟨hbit, by rw [tailBits, hbit, Nat.add_sub_cancel, hmod, hfield, ← hbs]⟩
  · rintro ⟨hbit, rfl⟩
    obtain ⟨hle, hlt⟩ := bitlen_eq_succ_iff.1 hbit
    rw [tailBits, hbit, Nat.add_sub_cancel, readUint_bin, Nat.mod_mod, Nat.one_mul]
    congr 2
    rw [pow_succ] at hlt
    rw [Nat.mod_eq_sub_mod hle, Nat.mod_eq_of_lt (by omega)]
    omega

/-! ### The length code -/

/-- A unary prefix that is read after `u` one-bits: more of them, not past the limit, and a zero-bit. -/
theorem readUnary_eq_ok {umax u k used : Nat} {bs rest : Bits} (hu : u ≤ umax)
    (h : readUnary umax u bs = .ok k used rest) :
    u ≤ k ∧ k ≤ umax ∧ used = k + 1 ∧ bs = List.replicate (k - u) true ++ false :: rest := by
  induction bs generalizing u with
  | nil => cases h
  | cons b bs ih =>
    cases b with
    | false =>
      cases h
      simp [hu]
    | true =>
      rw [readUnary] at h
      split_ifs at h with hmax
      obtain ⟨hle, hk, hused, rfl⟩ := ih (by omega) h
      refine ⟨by omega, hk, hused, ?_⟩
      rw [show k - u = k - (u + 1) + 1 by omega, List.replicate_succ, List.cons_append]

theorem readUnary_zero_eq_ok_iff {umax k used : Nat} {bs rest : Bits} :
    readUnary umax 0 bs = .ok k used rest ↔
      k ≤ umax ∧ used = k + 1 ∧ bs = List.replicate k true ++ false :: rest := by
  constructor
  · intro h
    exact (readUnary_eq_ok (Nat.zero_le _) h).2
  · rintro ⟨hk, rfl, rfl⟩
    simpa using readUnary_replicate umax 0 k rest (by omega)

/-- Behind a prefix of `u` one-bits stand the tails of the length's digit count, which has `u − 2` digits and is at most
LEN_W, and of the length (41_length_codec.md R165). -/
theorem readLengthTail_eq_ok_iff {lenW u used used' n pad : Nat} {bs rest : Bits} (hu : 3 ≤ u) :
    readLengthTail lenW u used bs = .ok (n, pad) used' rest ↔
      bitlen (bitlen n) = u - 2 ∧ bitlen n ≤ lenW ∧ pad = (if u ≤ 3 then u else 0) ∧
      used' = used + (u - 3) + (bitlen n - 1) ∧ bs = tailBits (bitlen n) ++ (tailBits n ++ rest) := by
  have hclen : u - 3 + 1 = u - 2 := by omega
  have hpos {m : Nat} (hm : bitlen m = u - 2) : m ≠ 0 := by
    rintro rfl
    rw [bitlen_zero] at hm
    omega
  constructor
  · intro h
    unfold readLengthTail at h
    split at h
    · cases h
    next blen bs' hblen =>
      obtain ⟨hdigits, rfl⟩ := readUint_one_eq_some_iff.1 hblen
      by_cases hover : lenW < blen
      · rw [if_pos hover] at h
        cases h
      · rw [if_neg hover] at h
        split at h
        · cases h
        next hn =>
          cases h
          obtain ⟨hbit, rfl⟩ := readUint_one_eq_some_iff.1 hn
          have := hpos (hdigits.trans hclen)
          obtain rfl : bitlen n = blen := by omega
          exact ⟨hdigits.trans hclen, not_lt.1 hover, rfl, rfl, rfl⟩
  · rintro ⟨hdigits, hfit, rfl, rfl, rfl⟩
    have := hpos hdigits
    have hblen : readUint (u - 3) 1 (tailBits (bitlen n) ++ (tailBits n ++ rest)) =
        some (bitlen n, tailBits n ++ rest) :=
      readUint_one_eq_some_iff.2 ⟨hdigits.trans hclen.symm, rfl⟩
    have hn : readUint (bitlen n - 1) 1 (tailBits n ++ rest) = some (n, rest) :=
      readUint_one_eq_some_iff.2 ⟨by omega, rfl⟩
    simp only [readLengthTail, hblen, hn, if_neg (not_lt.2 hfit)]

theorem bitlen_eq_one_iff {n : Nat} : bitlen n = 1 ↔ n = 1 := by
  rw [bitlen_eq_succ_iff]
  omega

/-- The codes with a prefix of 3 one-bits and more: a prefix of 3 is the last non-canonical code of 1, a longer one is
the canonical code of a length of at least 2 (30_encoding.md R115, R116, R118). -/
theorem lenCode_of_prefix {u n : Nat} (hu : 3 ≤ u) (hdigits : bitlen (bitlen n) = u - 2) :
    lenCode n (if u ≤ 3 then u else 0) =
      List.replicate u true ++ false :: (tailBits (bitlen n) ++ tailBits n) := by
  by_cases hn : n = 1
  · obtain rfl : u = 3 := by
      rw [bitlen_eq_one_iff.2 hn, bitlen_eq_one_iff.2 rfl] at hdigits
      omega
    subst hn
    decide
  · rw [lenCode, if_neg hn, vlc, if_neg hn, hdigits, Nat.sub_add_cancel (by omega)]

theorem length_lenCode_of_prefix {u n : Nat} (hu : 3 ≤ u) (hdigits : bitlen (bitlen n) = u - 2) :
    (lenCode n (if u ≤ 3 then u else 0)).length = u + 1 + (u - 3) + (bitlen n - 1) := by
  rw [lenCode_of_prefix hu hdigits, List.length_append, List.length_replicate, List.length_cons, List.length_append,
    length_tailBits, length_tailBits, hdigits]
  omega

theorem lenCode_one (pad : Nat) : lenCode 1 pad = List.replicate pad true ++ [false] := rfl

/-- The operands of a length code are those of a prefix of at most 2 one-bits, or those of a longer one. -/
theorem lenCode_operands_iff {n pad : Nat} :
    (1 ≤ n ∧ pad ≤ 3 ∧ (pad = 0 ∨ n = 1)) ↔
      (n = 1 ∧ pad ≤ 2) ∨ ∃ u, 3 ≤ u ∧ bitlen (bitlen n) = u - 2 ∧ pad = if u ≤ 3 then u else 0 := by
  have hzero : n = 0 → bitlen (bitlen n) = 0 := by
    rintro rfl
    rfl
  have hone : bitlen (bitlen n) = 1 ↔ n = 1 := bitlen_eq_one_iff.trans bitlen_eq_one_iff
  constructor
  · rintro ⟨hpos, hpad, hcanonical⟩
    by_cases hshort : n = 1 ∧ pad ≤ 2
    · exact .inl hshort
    · have hdigits : 0 < bitlen (bitlen n) := bitlen_pos (bitlen_pos (by omega)).ne'
      refine .inr ⟨bitlen (bitlen n) + 2, by omega, by omega, ?_⟩
      split <;> omega
  · rintro (⟨rfl, hpad⟩ | ⟨u, hu, hdigits, rfl⟩)
    · omega
    · split <;> omega

/-- The length reader takes exactly the code of a length that LEN_W bits hold (30_encoding.md R115 to R118). -/
theorem readLength_eq_ok_iff {lenW n pad used : Nat} {bs rest : Bits} (hw : 1 ≤ lenW) :
    readLength lenW bs = .ok (n, pad) used rest ↔
      (1 ≤ n ∧ pad ≤ 3 ∧ (pad = 0 ∨ n = 1)) ∧ n < 2 ^ lenW ∧
      used = (lenCode n pad).length ∧ bs = lenCode n pad ++ rest := by
  rw [lenCode_operands_iff, ← bitlen_le_iff]
  constructor
  · intro h
    unfold readLength at h
    split at h
    · cases h
    next u _ _ hprefix =>
      obtain ⟨-, rfl, rfl⟩ := readUnary_zero_eq_ok_iff.1 hprefix
      by_cases hu : u ≤ 2
      · rw [if_pos hu] at h
        cases h
        exact ⟨.inl ⟨rfl, hu⟩, hw, by simp [lenCode_one], by simp [lenCode_one]⟩
      · rw [if_neg hu] at h
        have hu : 3 ≤ u := by omega
        obtain ⟨hdigits, hfit, rfl, rfl, rfl⟩ := (readLengthTail_eq_ok_iff hu).1 h
        exact ⟨.inr ⟨u, hu, hdigits, rfl⟩, hfit, (length_lenCode_of_prefix hu hdigits).symm,
          by simp [lenCode_of_prefix hu hdigits]⟩
  · rintro ⟨⟨rfl, hpad⟩ | ⟨u, hu, hdigits, rfl⟩, hfit, rfl, rfl⟩
    · have hprefix : readUnary (uMax lenW) 0 (lenCode 1 pad ++ rest) = .ok pad (pad + 1) rest :=
        readUnary_zero_eq_ok_iff.2 ⟨by unfold uMax; omega, rfl, by simp [lenCode_one]⟩
      have hlen : (lenCode 1 pad).length = pad + 1 := by simp [lenCode_one]
      simp only [readLength, hprefix, if_pos hpad, hlen]
    · have hmax : u ≤ uMax lenW := by
        have := bitlen_mono hfit
        unfold uMax
        omega
      have hprefix (bs : Bits) : readUnary (uMax lenW) 0 (List.replicate u true ++ false :: bs) = .ok u (u + 1) bs :=
        readUnary_zero_eq_ok_iff.2 ⟨hmax, rfl, rfl⟩
      rw [length_lenCode_of_prefix hu hdigits, lenCode_of_prefix hu hdigits, List.append_assoc, List.cons_append,
        List.append_assoc]
      simp only [readLength, hprefix, if_neg (show ¬ u ≤ 2 by omega)]
      exact (readLengthTail_eq_ok_iff hu).2 ⟨hdigits, hfit, rfl, rfl, rfl⟩

/-! ### Tokens -/

theorem Instr.wf_matchTok_iff {lenW ow off len pad : Nat} :
    (Instr.matchTok off len pad).wf lenW ow = true ↔
      off < 2 ^ ow ∧ (1 ≤ len ∧ pad ≤ 3 ∧ (pad = 0 ∨ len = 1)) ∧ len < 2 ^ lenW := by
  simp only [Instr.wf, Bool.and_eq_true, Bool.or_eq_true, decide_eq_true_eq]
  tauto

theorem readLit_eq_ok_iff {bs rest : Bits} {i : Instr} {used : Nat} :
    readLit bs = .ok i used rest ↔ ∃ b : Byte, i = .lit b ∧ used = 9 ∧ bs = bin b.toNat 8 ++ rest := by
  constructor
  · intro h
    unfold readLit at h
    split at h
    · cases h
    next v _ hv =>
      cases h
      obtain ⟨hlt, rfl⟩ := readUint_zero_eq_some_iff.1 hv
      exact ⟨BitVec.ofNat 8 v, rfl, rfl, by rw [BitVec.toNat_ofNat, Nat.mod_eq_of_lt hlt]⟩
  · rintro ⟨b, rfl, rfl, rfl⟩
    have hb : readUint 8 0 (bin b.toNat 8 ++ rest) = some (b.toNat, rest) :=
      readUint_zero_eq_some_iff.2 ⟨b.isLt, rfl⟩
    simp only [readLit, hb, BitVec.ofNat_toNat, BitVec.setWidth_eq]

theorem readMatch_eq_ok_iff {lenW ow used : Nat} {bs rest : Bits} {i : Instr} (hw : 1 ≤ lenW) :
    readMatch lenW ow bs = .ok i used rest ↔
      ∃ off len pad, i = .matchTok off len pad ∧ i.wf lenW ow = true ∧
        used = 1 + ow + (lenCode len pad).length ∧ bs = bin off ow ++ (lenCode len pad ++ rest) := by
  constructor
  · intro h
    unfold readMatch at h
    split at h
    · cases h
    next off _ hoff =>
      obtain ⟨hlt, rfl⟩ := readUint_zero_eq_some_iff.1 hoff
      split at h
      · cases h
      next len pad _ _ hlen =>
        cases h
        obtain ⟨hoperands, hfit, rfl, rfl⟩ := (readLength_eq_ok_iff hw).1 hlen
        exact ⟨off, len, pad, rfl, Instr.wf_matchTok_iff.2 ⟨hlt, hoperands, hfit⟩, rfl, rfl⟩
  · rintro ⟨off, len, pad, rfl, hwf, rfl, rfl⟩
    obtain ⟨hlt, hoperands, hfit⟩ := Instr.wf_matchTok_iff.1 hwf
    have hoff : readUint ow 0 (bin off ow ++ (lenCode len pad ++ rest)) = some (off, lenCode len pad ++ rest) :=
      readUint_zero_eq_some_iff.2 ⟨hlt, rfl⟩
    have hlen : readLength lenW (lenCode len pad ++ rest) = .ok (len, pad) (lenCode len pad).length rest :=
      (readLength_eq_ok_iff hw).2 ⟨hoperands, hfit, rfl, rfl⟩
    simp only [readMatch, hoff, hlen]

theorem Instr.one_le_lenW_of_wf {lenW ow off len pad : Nat} (h : (Instr.matchTok off len pad).wf lenW ow = true) :
    1 ≤ lenW := by
  obtain ⟨-, ⟨hpos, -⟩, hfit⟩ := Instr.wf_matchTok_iff.1 h
  by_contra h0
  obtain rfl : lenW = 0 := by omega
  omega

/-- Only the two tokens have bits in the stream (30_encoding.md R111). -/
theorem encode_eq_tokenBits_iff {ow : Nat} {i : Instr} {bits : Bits} :
    encode ow i = .tokenBits bits ↔
      (∃ b, i = .lit b ∧ bits = encodeLit b) ∨
      ∃ off len pad, i = .matchTok off len pad ∧ bits = encodeMatch ow off len pad := by
  cases i <;> simp [encode, eq_comm]

theorem length_encodeMatch_eq (ow off len pad : Nat) :
    (encodeMatch ow off len pad).length = 1 + ow + (lenCode len pad).length := by
  rw [encodeMatch, List.length_cons, List.length_append, length_bin]
  omega

/-- The decoder reads a well-formed token from its bits, whatever follows them (30_encoding.md R119). -/
theorem decodeToken_append {lenW ow : Nat} {i : Instr} {bits : Bits} (hwf : i.wf lenW ow = true)
    (henc : encode ow i = .tokenBits bits) (rest : Bits) :
    decodeToken lenW ow (bits ++ rest) = .ok i bits.length rest := by
  obtain ⟨b, rfl, rfl⟩ | ⟨off, len, pad, rfl, rfl⟩ := encode_eq_tokenBits_iff.1 henc
  · exact readLit_eq_ok_iff.2 ⟨b, rfl, length_encodeLit b, rfl⟩
  · exact (readMatch_eq_ok_iff (Instr.one_le_lenW_of_wf hwf)).2
      ⟨off, len, pad, rfl, hwf, length_encodeMatch_eq .., List.append_assoc ..⟩

/-- Settles O55: the decoder's answer on the longer sequence is the one token and the other at once. -/
theorem tokensAreSelfDelimiting : Obligations.TokensAreSelfDelimiting := by
  intro lenW ow i bits hwf henc
  refine ⟨decodeToken_append hwf henc, fun j rest hwfj hencj => ?_⟩
  have hj := decodeToken_append hwfj hencj []
  rw [List.append_nil, decodeToken_append hwf henc rest] at hj
  injection hj with hij _ hrest
  exact ⟨hij.symm, hrest⟩

/-- Settles O56: each token's reader takes exactly its code. -/
theorem decodedTokenReencodes : Obligations.DecodedTokenReencodes := by
  intro lenW ow bs i used rest hw h
  match bs with
  | [] => cases h
  | false :: bs =>
    obtain ⟨b, rfl, rfl, rfl⟩ := readLit_eq_ok_iff.1 h
    exact ⟨rfl, _, rfl, rfl, (length_encodeLit b).symm⟩
  | true :: bs =>
    obtain ⟨off, len, pad, rfl, hwf, rfl, rfl⟩ := (readMatch_eq_ok_iff hw).1 h
    exact ⟨hwf, _, rfl, by rw [encodeMatch, List.cons_append, List.append_assoc], (length_encodeMatch_eq ..).symm⟩

/-! ### CMD words -/

/-- OPCODE is the low four bits of a CMD word (30_encoding.md R125). -/
theorem opcode_eq_ofNat_iff (v : Word) {k : Nat} (hk : k < 16) :
    v.extractLsb' 0 4 = BitVec.ofNat 4 k ↔ v.toNat % 16 = k := by
  rw [← BitVec.toNat_inj, BitVec.extractLsb'_toNat, BitVec.toNat_ofNat, Nat.shiftRight_zero, Nat.mod_eq_of_lt hk]

/-- The command of a CMD word by the value of its OPCODE field (30_encoding.md R126). -/
theorem decodeCmd_eq (v : Word) :
    decodeCmd v =
      if v.toNat % 16 = 0 then .nop
      else if v.toNat % 16 = 1 then .encode
      else if v.toNat % 16 = 2 then .decode
      else .reservedCmd (BitVec.ofNat 4 v.toNat) := by
  have hop {k : Nat} (hk : k < 16) := opcode_eq_ofNat_iff v hk
  simp only [← hop (show 0 < 16 by omega), ← hop (show 1 < 16 by omega), ← hop (show 2 < 16 by omega)]
  rfl

/-- Settles O9: the four clauses are the four answers for an OPCODE. -/
theorem commandWordFields : Obligations.CommandWordFields := by
  intro lenW ow v
  simp only [decode, decodeCmd_eq]
  refine ⟨fun h => ?_, fun h => ?_, fun h => ?_, fun h => ?_⟩
  · rw [if_pos h]
  · rw [if_neg (by omega), if_pos h]
  · rw [if_neg (by omega), if_neg (by omega), if_pos h]
  · rw [if_neg (by omega), if_neg (by omega), if_neg (by omega)]

theorem decodeCmd_reserved {op : BitVec 4} (h : 3 ≤ op.toNat) : decodeCmd (op.setWidth 32) = .reservedCmd op := by
  have hlow : (op.setWidth 32).toNat = op.toNat := BitVec.toNat_setWidth_of_le (by omega)
  have hmod : op.toNat % 16 = op.toNat := Nat.mod_eq_of_lt op.isLt
  rw [decodeCmd_eq, hlow, hmod, if_neg (by omega), if_neg (by omega), if_neg (by omega), BitVec.ofNat_toNat,
    BitVec.setWidth_eq]

/-! ### The whole decoder -/

theorem decode_tokenBits {lenW ow : Nat} {i : Instr} {bits : Bits} (hwf : i.wf lenW ow = true)
    (henc : encode ow i = .tokenBits bits) : decode lenW ow (encode ow i) = .ok i := by
  have h := decodeToken_append hwf henc []
  rw [List.append_nil] at h
  rw [henc, decode, h]

/-- A register write that is no command is itself (45_host_interface.md R267). -/
theorem decodeAction_regWrite {a : BitVec 8} (ha : a ≠ 0) (v : Word) :
    decodeAction (.regWrite a v) = .ok (.regWrite a v) := if_neg ha

/-- Settles O54: tokens by their reader, reserved commands by their OPCODE field, a register write by its offset; every
other encoding is one the decoder looks up. -/
theorem decodeInvertsEncode : Obligations.DecodeInvertsEncode := by
  intro lenW ow i hwf
  cases i with
  | lit b => exact decode_tokenBits hwf rfl
  | matchTok off len pad => exact decode_tokenBits hwf rfl
  | reservedCmd op => exact congrArg Except.ok (decodeCmd_reserved (of_decide_eq_true hwf))
  | regWrite a v =>
    obtain ⟨-, ha⟩ := Bool.and_eq_true_iff.1 hwf
    exact decodeAction_regWrite (of_decide_eq_true ha) v
  | _ => rfl

/-- Settles O18: the model evaluated on the nine words. -/
theorem writtenOutWordsDecode : Obligations.WrittenOutWordsDecode := by
  unfold Obligations.WrittenOutWordsDecode
  decide

end Sys2Proof
end

section
/-! PROOFS of 40_matcher.md: the condition of an occurrence (R142), the result of the search (R143), and what the two
give: its ranges (R145) and its agreement with the source's growing search (R144). -/

namespace Sys2Proof.Machine

variable {s : State}

/-! ### Occurrences -/

theorem occurs_iff (s : State) (len p : Nat) : occurs s len p = true ↔
    windowStart s ≤ p ∧ p < s.dp.cur.toNat ∧ 1 ≤ len ∧ len ≤ maxLength s ∧
    (∀ i < len, inByte s (p + i) = inByte s (s.dp.cur.toNat + i)) ∧
    (s.par.scope = .window → p + len ≤ s.dp.cur.toNat) := by
  have hscope : s.par.scope = .overlap ∨ p + len ≤ s.dp.cur.toNat ↔
      (s.par.scope = .window → p + len ≤ s.dp.cur.toNat) := by
    cases s.par.scope <;> simp
  simp only [occurs, Bool.and_eq_true, Bool.or_eq_true, decide_eq_true_eq, List.all_eq_true, List.mem_range, and_assoc,
    hscope]
  rw [and_comm (a := _ → _)]

/-- A shorter part of the lookahead occurs wherever a longer one does (40_matcher.md R144). -/
theorem occurs_of_le {len len' p : Nat} (h : occurs s len p = true) (hpos : 1 ≤ len') (hle : len' ≤ len) :
    occurs s len' p = true := by
  obtain ⟨hws, hcur, -, hmax, hbytes, hscope⟩ := (occurs_iff s len p).1 h
  have hend : s.par.scope = .window → p + len' ≤ s.dp.cur.toNat := fun hw =>
    (Nat.add_le_add_left hle p).trans (hscope hw)
  exact (occurs_iff s len' p).2
    ⟨hws, hcur, hpos, hle.trans hmax, fun i hi => hbytes i (hi.trans_le hle), hend⟩

/-! ### The result of the search -/

/-- The lookahead's first `len` bytes occur at `p`, no greater length occurs anywhere, and that one does not occur further
right (40_matcher.md R143, `Lbest` and `pbest`). -/
structure LongestNearest (s : State) (len p : Nat) : Prop where
  found : occurs s len p = true
  longest : ∀ len' p', occurs s len' p' = true → len' ≤ len
  nearest : ∀ p', occurs s len p' = true → p' ≤ p

theorem greatestBelow_ne_none {f : Nat → Bool} {n j : Nat} (hj : j < n) (hf : f j = true) :
    greatestBelow f n ≠ none := fun hnone =>
  Bool.false_ne_true (((greatestBelow_eq_none_iff f n).1 hnone j hj).symm.trans hf)

theorem le_of_greatestBelow_eq_some {f : Nat → Bool} {n j k : Nat} (h : greatestBelow f n = some k) (hj : j < n)
    (hf : f j = true) : j ≤ k := by
  obtain ⟨-, -, hnone⟩ := (greatestBelow_eq_some_iff f n k).1 h
  exact not_lt.1 fun hgt => Bool.false_ne_true ((hnone j hgt hj).symm.trans hf)

theorem nearestPos_eq_some {len p : Nat} (h : nearestPos s len = some p) :
    occurs s len p = true ∧ ∀ p', occurs s len p' = true → p' ≤ p := by
  obtain ⟨-, hocc, -⟩ := (greatestBelow_eq_some_iff _ _ _).1 h
  refine ⟨hocc, fun p' hp' => ?_⟩
  obtain ⟨-, hcur, -⟩ := (occurs_iff s len p').1 hp'
  exact le_of_greatestBelow_eq_some h hcur hp'

/-- The length of an occurrence is one that the search for the longest tries, and finds to occur. -/
theorem searched_of_occurs {len p : Nat} (h : occurs s len p = true) :
    len < maxLength s + 1 ∧ (nearestPos s len).isSome = true := by
  obtain ⟨-, hcur, -, hmax, -⟩ := (occurs_iff s len p).1 h
  exact ⟨Nat.lt_succ_of_le hmax, Option.isSome_iff_ne_none.2 (greatestBelow_ne_none hcur h)⟩

theorem occurs_eq_false_of_longestLength (h : longestLength s = none) (len p : Nat) : occurs s len p = false := by
  by_contra hocc
  obtain ⟨hlt, hsome⟩ := searched_of_occurs (Bool.eq_true_of_not_eq_false hocc)
  exact greatestBelow_ne_none hlt hsome h

theorem longestLength_eq_some {len : Nat} (h : longestLength s = some len) :
    (nearestPos s len).isSome = true ∧ ∀ len' p, occurs s len' p = true → len' ≤ len := by
  obtain ⟨-, hsome, -⟩ := (greatestBelow_eq_some_iff _ _ _).1 h
  refine ⟨hsome, fun len' p hocc => ?_⟩
  obtain ⟨hlt, hsome'⟩ := searched_of_occurs hocc
  exact le_of_greatestBelow_eq_some h hlt hsome'

/-- Everything the matcher can answer (40_matcher.md R143). -/
theorem findMatch_cases (s : State) :
    (findMatch s = (false, 0, 0) ∧ ∀ len p, occurs s len p = false) ∨
    ∃ len p, findMatch s = (true, s.dp.cur.toNat - p, len) ∧ LongestNearest s len p := by
  cases hlen : longestLength s with
  | none => exact .inl ⟨by rw [findMatch, hlen], occurs_eq_false_of_longestLength hlen⟩
  | some len =>
    obtain ⟨hsome, hlongest⟩ := longestLength_eq_some hlen
    obtain ⟨p, hpos⟩ := Option.isSome_iff_exists.1 hsome
    obtain ⟨hocc, hnearest⟩ := nearestPos_eq_some hpos
    exact .inr ⟨len, p, by simp only [findMatch, hlen, hpos], hocc, hlongest, hnearest⟩

/-! ### The statements -/

/-- Settles O33: the operation returns the triple and counts one draw. -/
theorem matcherWritesNothing : Obligations.MatcherWritesNothing :=
  fun s => ⟨(findMatch s).1, (findMatch s).2.1, (findMatch s).2.2, rfl, rfl⟩

/-- Settles O34: the Boolean search's condition as a proposition. -/
theorem occurrenceCondition : Obligations.OccurrenceCondition := occurs_iff

/-- Settles O35: by the two answers of the matcher. -/
theorem matcherFindsLongestNearest : Obligations.MatcherFindsLongestNearest := by
  intro s
  obtain ⟨hfind, hnone⟩ | ⟨len, p, hfind, hbest⟩ := findMatch_cases s
  · rw [hfind]
    exact ⟨nofun, fun _ => ⟨rfl, rfl, hnone⟩⟩
  · obtain ⟨-, hcur, -⟩ := (occurs_iff s len p).1 hbest.found
    have hpos : s.dp.cur.toNat - (s.dp.cur.toNat - p) = p := Nat.sub_sub_self hcur.le
    rw [hfind]
    refine ⟨fun _ => ?_, nofun⟩
    rw [hpos]
    refine ⟨Nat.sub_le _ _, hbest.found, fun len' p' hocc => ⟨hbest.longest len' p' hocc, ?_⟩⟩
    rintro rfl
    exact hbest.nearest p' hocc

/-- Settles O36: a valid result occurs, so the window and the lookahead bound it; MAX_OFFSET is within the offset field
and the window size by its definition (00_scope.md R17). -/
theorem matcherResultRanges : Obligations.MatcherResultRanges := by
  intro s hinv hfsm
  obtain ⟨hfind, -⟩ | ⟨len, p, hfind, hbest⟩ := findMatch_cases s
  · rw [hfind]
    exact ⟨nofun, fun _ => ⟨rfl, rfl⟩⟩
  · obtain ⟨hws, hcur, hlen, hmax, -, hscope⟩ := (occurs_iff s len p).1 hbest.found
    obtain ⟨-, -, -, -, hcow, hcmo⟩ := hinv.snapshot (by simp [hfsm])
    have hwindow : s.dp.cmo.toNat ≤ s.dp.cw.toNat := hcmo ▸ min_le_left _ _
    have hfield : s.dp.cmo.toNat ≤ 2 ^ s.dp.cow.toNat - 1 := hcmo ▸ hcow ▸ min_le_right _ _
    have hreach : s.dp.cur.toNat - p ≤ s.dp.cmo.toNat := by
      rw [windowStart] at hws
      omega
    rw [hfind]
    refine ⟨fun _ => ?_, nofun⟩
    exact ⟨Nat.sub_pos_of_lt hcur, Nat.sub_le _ _, hreach, hreach.trans hfield, hreach.trans hwindow, hlen,
      hmax.trans (min_le_left _ _), hmax.trans (min_le_right _ _), fun hw => Nat.le_sub_of_add_le' (hscope hw)⟩

/-- Settles O37: every length up to the longest occurs at that one's position, and no length occurs beyond it. -/
theorem matcherAgreesWithGrowingPrefix : Obligations.MatcherAgreesWithGrowingPrefix := by
  intro s
  refine ⟨fun len p hlen hocc => occurs_of_le hocc (Nat.le_sub_one_of_lt hlen) (Nat.sub_le _ _), fun len => ?_⟩
  obtain ⟨hfind, hnone⟩ | ⟨best, p, hfind, hbest⟩ := findMatch_cases s
  · rw [hfind]
    constructor
    · rintro ⟨p, hocc⟩
      rw [hnone len p] at hocc
      cases hocc
    · rintro ⟨hpos, hzero⟩
      exact absurd hpos hzero.not_gt
  · rw [hfind]
    constructor
    · rintro ⟨p', hocc⟩
      obtain ⟨-, -, hpos, -⟩ := (occurs_iff s len p').1 hocc
      exact ⟨hpos, hbest.longest len p' hocc⟩
    · rintro ⟨hpos, hle⟩
      exact ⟨p, occurs_of_le hbest.found hpos hle⟩

end Sys2Proof.Machine
end

section
/-! PROOFS of 41_length_codec.md: VLC_ENCODE and the length of the code (R161, R162), what the reader answers on a code,
on a code cut short and on one too wide (R165 to R167), and VLC_DECODE as an operation (R164). -/

namespace Sys2Proof

/-! ### The code -/

theorem lenCode_zero (n : Nat) : lenCode n 0 = vlc n := by
  by_cases h : n = 1
  · subst h
    rfl
  · rw [lenCode, if_neg h]

theorem two_pow_le_and_lt_bitlen {n : Nat} (h : n ≠ 0) : 2 ^ (bitlen n - 1) ≤ n ∧ n < 2 ^ (bitlen n - 1) * 2 := by
  have hpos := bitlen_pos h
  rw [← pow_succ]
  exact bitlen_eq_succ_iff.1 (by omega)

/-- The digits behind the leading 1 are those of what the leading 1 leaves (00_scope.md R22). -/
theorem tailBits_eq_bin_sub {n : Nat} (h : n ≠ 0) :
    tailBits n = bin (n - 2 ^ (bitlen n - 1)) (bitlen n - 1) := by
  obtain ⟨hle, hlt⟩ := two_pow_le_and_lt_bitlen h
  rw [tailBits, Nat.mod_eq_sub_mod hle, Nat.mod_eq_of_lt (by omega)]

theorem two_pow_add_val_tailBits {n : Nat} (h : n ≠ 0) : 2 ^ (bitlen n - 1) + val (tailBits n) = n := by
  obtain ⟨hle, hlt⟩ := two_pow_le_and_lt_bitlen h
  rw [tailBits_eq_bin_sub h, val_bin, Nat.mod_eq_of_lt (by omega)]
  omega

theorem vlc_of_two_le {n : Nat} (h : 2 ≤ n) :
    vlc n =
      List.replicate (bitlen (bitlen n) + 2) true ++ false :: (tailBits (bitlen n) ++ tailBits n) := by
  rw [vlc, if_neg (by omega)]

theorem length_vlc_one : (vlc 1).length = 1 := rfl

theorem length_vlc_mono {n m : Nat} (hn : 1 ≤ n) (h : n ≤ m) : (vlc n).length ≤ (vlc m).length := by
  obtain rfl | hm := hn.eq_or_lt
  · obtain rfl | hm := h.eq_or_lt
    · exact le_rfl
    · rw [length_vlc_one, length_vlc hm]
      omega
  · have h₁ := bitlen_mono h
    have h₂ := bitlen_mono h₁
    rw [length_vlc hm, length_vlc (hm.trans_le h)]
    omega

theorem seven_le_length_vlc {n : Nat} (h : 2 ≤ n) : 7 ≤ (vlc n).length :=
  length_vlc_mono (n := 2) (by omega) h

/-! ### The reader on a code -/

/-- Bits on which the reader ends with LENGTH_OVERFLOW, up to the last it reads: one one-bit too many, or a prefix and a
`blen` above LEN_W (41_length_codec.md R165). -/
def OverflowCode (lenW : Nat) (code : Bits) : Prop :=
  code = List.replicate (uMax lenW + 1) true ∨
  ∃ u blenBits, 3 ≤ u ∧ u ≤ uMax lenW ∧ blenBits.length = u - 3 ∧ lenW < 2 ^ (u - 3) + val blenBits ∧
    code = List.replicate u true ++ false :: blenBits

theorem readUnary_replicate_overflow {umax u k : Nat} (hu : u ≤ umax) (hk : umax + 1 = u + k) (rest : Bits) :
    readUnary umax u (List.replicate k true ++ rest) = .err .lengthOverflow (umax + 1) := by
  induction k generalizing u with
  | zero => omega
  | succ k ih =>
    rw [List.replicate_succ, List.cons_append, readUnary]
    split_ifs with hmax
    · congr 1
      omega
    · exact ih (by omega) (by omega)

theorem readLength_overflowCode {lenW : Nat} {code : Bits} (h : OverflowCode lenW code) (rest : Bits) :
    readLength lenW (code ++ rest) = .err .lengthOverflow code.length := by
  obtain rfl | ⟨u, blenBits, hu, hmax, hlen, hover, rfl⟩ := h
  · simp only [readLength, readUnary_replicate_overflow (Nat.zero_le _) (Nat.zero_add _).symm, List.length_replicate]
  · have hprefix : readUnary (uMax lenW) 0 (List.replicate u true ++ false :: (blenBits ++ rest)) =
        .ok u (u + 1) (blenBits ++ rest) := readUnary_zero_eq_ok_iff.2 ⟨hmax, rfl, rfl⟩
    have hblen := readUint_append blenBits rest 1
    rw [hlen, Nat.one_mul] at hblen
    rw [List.append_assoc, List.cons_append]
    simp only [readLength, hprefix, if_neg (show ¬ u ≤ 2 by omega), readLengthTail, hblen, if_pos hover]
    rw [List.length_append, List.length_replicate, List.length_cons, hlen]
    congr 1
    omega

/-- A prefix read after `u` one-bits that is none: the sequence ends, or one one-bit is too many. -/
theorem readUnary_eq_err {umax u used : Nat} {bs : Bits} {e : DecodeError} (hu : u ≤ umax)
    (h : readUnary umax u bs = .err e used) :
    e = .truncated ∨
    e = .lengthOverflow ∧ used = umax + 1 ∧ ∃ rest, bs = List.replicate (umax + 1 - u) true ++ rest := by
  induction bs generalizing u with
  | nil =>
    cases h
    exact .inl rfl
  | cons b bs ih =>
    cases b with
    | false => cases h
    | true =>
      rw [readUnary] at h
      split_ifs at h with hmax
      · cases h
        obtain rfl : u = umax := by omega
        exact .inr ⟨rfl, rfl, bs, by rw [Nat.add_sub_cancel_left, List.replicate_one, List.singleton_append]⟩
      · refine (ih (by omega) h).imp_right ?_
        rintro ⟨he, hused, rest, rfl⟩
        exact ⟨he, hused, rest, by
          rw [show umax + 1 - u = umax + 1 - (u + 1) + 1 by omega, List.replicate_succ, List.cons_append]⟩

theorem readLengthTail_eq_err {lenW u used used' : Nat} {bs : Bits} {e : DecodeError}
    (h : readLengthTail lenW u used bs = .err e used') :
    e = .truncated ∨
    e = .lengthOverflow ∧ used' = used + (u - 3) ∧
      ∃ blenBits rest, blenBits.length = u - 3 ∧ lenW < 2 ^ (u - 3) + val blenBits ∧ bs = blenBits ++ rest := by
  unfold readLengthTail at h
  split at h
  · cases h
    exact .inl rfl
  next blen bs' hblen =>
    obtain ⟨hbs, hlen, hval⟩ := readUint_eq_some hblen
    by_cases hover : lenW < blen
    · rw [if_pos hover] at h
      cases h
      rw [hval, Nat.one_mul] at hover
      exact .inr ⟨rfl, rfl, bs.take (u - 3), bs', hlen, hover, hbs⟩
    · rw [if_neg hover] at h
      split at h
      · cases h
        exact .inl rfl
      · cases h

/-- The errors of the reader: the sequence ends, or a code that is too wide was read. -/
theorem readLength_eq_err {lenW used : Nat} {bs : Bits} {e : DecodeError} (h : readLength lenW bs = .err e used) :
    e = .truncated ∨
    e = .lengthOverflow ∧ ∃ code rest, OverflowCode lenW code ∧ used = code.length ∧ bs = code ++ rest := by
  unfold readLength at h
  split at h
  next hprefix =>
    cases h
    refine (readUnary_eq_err (Nat.zero_le _) hprefix).imp_right ?_
    rintro ⟨he, hused, rest, rfl⟩
    exact ⟨he, _, rest, .inl rfl, by rw [List.length_replicate, hused], rfl⟩
  next u _ _ hprefix =>
    obtain ⟨hmax, rfl, rfl⟩ := readUnary_zero_eq_ok_iff.1 hprefix
    by_cases hu : u ≤ 2
    · rw [if_pos hu] at h
      cases h
    · rw [if_neg hu] at h
      refine (readLengthTail_eq_err h).imp_right ?_
      rintro ⟨he, rfl, blenBits, rest, hlen, hover, rfl⟩
      refine ⟨he, _, rest, .inr ⟨u, blenBits, by omega, hmax, hlen, hover, rfl⟩, ?_, by simp⟩
      rw [List.length_append, List.length_replicate, List.length_cons, hlen]
      omega

open Machine (lengthBits)

/-- The reader takes the code of a length that fits, whatever follows it (41_length_codec.md R166, R167). -/
theorem readLength_lenCode_append {lenW n pad : Nat} (hcode : 1 ≤ n ∧ pad ≤ 3 ∧ (pad = 0 ∨ n = 1))
    (hfit : n < 2 ^ lenW) (rest : Bits) :
    readLength lenW (lenCode n pad ++ rest) = .ok (n, pad) (lenCode n pad).length rest := by
  have hw : 1 ≤ lenW := (bitlen_pos (by omega)).trans_le ((bitlen_le_iff n lenW).2 hfit)
  exact (readLength_eq_ok_iff hw).2 ⟨hcode, hfit, rfl, rfl⟩

/-- The code of a length too wide for LEN_W begins with bits on which the reader ends, as many as `lengthBits` says. -/
theorem exists_overflowCode {lenW n : Nat} (hn : 2 ≤ n) (hwide : 2 ^ lenW ≤ n) :
    ∃ code rest, OverflowCode lenW code ∧ code.length = lengthBits lenW n 0 ∧ vlc n = code ++ rest := by
  have hblen : bitlen n ≠ 0 := (bitlen_pos (by omega)).ne'
  have hclen := bitlen_pos hblen
  rw [lengthBits, if_neg hwide.not_gt, vlc_of_two_le hn]
  split_ifs with hmax
  · obtain ⟨more, hmore⟩ := Nat.exists_eq_add_of_le hmax
    rw [hmore, List.replicate_add, List.append_assoc]
    exact ⟨_, _, .inl rfl, List.length_replicate, rfl⟩
  · have hover : lenW < bitlen n := not_le.1 (mt (bitlen_le_iff n lenW).1 hwide.not_gt)
    refine ⟨List.replicate (bitlen (bitlen n) + 2) true ++ false :: tailBits (bitlen n), tailBits n,
      .inr ⟨bitlen (bitlen n) + 2, tailBits (bitlen n), by omega, by omega, length_tailBits _, ?_, rfl⟩, ?_, ?_⟩
    · rwa [Nat.add_sub_add_right _ 2 1, two_pow_add_val_tailBits hblen]
    · rw [List.length_append, List.length_replicate, List.length_cons, length_tailBits]
      omega
    · rw [List.append_assoc, List.cons_append]

/-- On a code alone the reader reads `lengthBits` bits and answers by whether the length fits LEN_W. -/
theorem readLength_lenCode {lenW n pad : Nat} (hw : 1 ≤ lenW) (hcode : 1 ≤ n ∧ pad ≤ 3 ∧ (pad = 0 ∨ n = 1)) :
    readLength lenW (lenCode n pad) = .ok (n, pad) (lengthBits lenW n pad) [] ∨
    readLength lenW (lenCode n pad) = .err .lengthOverflow (lengthBits lenW n pad) := by
  by_cases hfit : n < 2 ^ lenW
  · have hread := readLength_lenCode_append hcode hfit []
    rw [List.append_nil] at hread
    rw [lengthBits, if_pos hfit]
    exact .inl hread
  · have htwo : 2 ≤ 2 ^ lenW := Nat.le_self_pow (by omega) 2
    obtain rfl : pad = 0 := by omega
    obtain ⟨code, rest, hover, hlen, hvlc⟩ := exists_overflowCode (by omega) (not_lt.1 hfit)
    rw [lenCode_zero, hvlc, ← hlen]
    exact .inr (readLength_overflowCode hover rest)

/-- Cut before the last bit the reader reads of it, a code is TRUNCATED_STREAM: any other answer would be the answer on
the whole code, with fewer bits read. -/
theorem readLength_take_lenCode {lenW n pad k : Nat} (hw : 1 ≤ lenW)
    (hcode : 1 ≤ n ∧ pad ≤ 3 ∧ (pad = 0 ∨ n = 1)) (hk : k < lengthBits lenW n pad) :
    ∃ used, readLength lenW ((lenCode n pad).take k) = .err .truncated used := by
  have hcut := List.take_append_drop k (lenCode n pad)
  have hle := List.length_take_le k (lenCode n pad)
  have hwhole := readLength_lenCode hw hcode
  cases h : readLength lenW ((lenCode n pad).take k) with
  | ok v used rest =>
    obtain ⟨hv, hfit, -, htake⟩ := (readLength_eq_ok_iff hw).1 h
    rw [htake, List.length_append] at hle
    rw [← hcut, htake, List.append_assoc, readLength_lenCode_append hv hfit] at hwhole
    obtain hok | herr := hwhole
    · injection hok with _ hused
      omega
    · cases herr
  | err e used =>
    obtain rfl | ⟨rfl, code, rest, hover, -, htake⟩ := readLength_eq_err h
    · exact ⟨used, rfl⟩
    · rw [htake, List.length_append] at hle
      rw [← hcut, htake, List.append_assoc, readLength_overflowCode hover] at hwhole
      obtain hok | herr := hwhole
      · cases hok
      · injection herr with _ hused
        omega

end Sys2Proof

namespace Sys2Proof.Machine

variable {s : State}

/-! ### The operations -/

theorem vlcInDomain_iff {p : Params} {n : Nat} : vlcInDomain p n = true ↔ 1 ≤ n ∧ n < 2 ^ p.lenW := by
  simp [vlcInDomain]

theorem exec_vlcEncode_of_inDomain {n : Nat} (hpos : 1 ≤ n) (hfit : n < 2 ^ s.par.lenW) :
    exec (.vlcEncode n) s = .next (unitReturns (.seq (vlc n)) s) := by
  rw [exec, execVlcEncode, if_pos (vlcInDomain_iff.2 ⟨hpos, hfit⟩)]

theorem exec_vlcEncode_of_outside {n : Nat} (h : n = 0 ∨ 2 ^ s.par.lenW ≤ n) :
    exec (.vlcEncode n) s = .fault .vlcEncodeDomain := by
  rw [exec, execVlcEncode, if_neg (by rw [vlcInDomain_iff]; omega)]

theorem exec_vlcDecode_of_ok {n pad used : Nat} {rest : Bits}
    (h : readLength s.par.lenW (streamBits s) = .ok (n, pad) used rest) :
    exec .vlcDecode s = .next (unitReturns (.num n) (advance used (tick s))) := by
  simp only [exec, execVlcDecode, h]

/-- An error of the reader takes the error exit of DECODE, for the token that began at `dp.tstart` (log 7). -/
theorem exec_vlcDecode_of_err {e : DecodeError} {used : Nat}
    (h : readLength s.par.lenW (streamBits s) = .err e used) :
    ∃ t, exec .vlcDecode s = .next t ∧ EndsInError (errNumber (tokenErrCode e)) s.dp.tstart s t :=
  ⟨raiseError .decodeStep (tokenErrCode e) (advance used (tick s)), by simp only [exec, execVlcDecode, h],
    rfl, rfl, rfl, rfl, rfl, rfl, rfl, rfl, rfl⟩

theorem exec_vlcDecode_of_overflowCode {code rest : Bits} (hcode : OverflowCode s.par.lenW code)
    (hs : streamBits s = code ++ rest) :
    ∃ t, exec .vlcDecode s = .next t ∧ EndsInError 4 s.dp.tstart s t :=
  exec_vlcDecode_of_err (hs ▸ readLength_overflowCode hcode rest)

/-! ### The statements -/

/-- Settles O26: the formula `length_vlc` and its growth; the shortest code is that of 2. -/
theorem vlcCodeLength : Obligations.VlcCodeLength :=
  ⟨length_vlc_one, fun _ => length_vlc, fun _ _ => length_vlc_mono, by decide, by decide,
    fun _ => seven_le_length_vlc⟩

/-- Settles O27: `VLC(n)` is the canonical length code of `n`, which the reader takes. -/
theorem vlcRoundTrip : Obligations.VlcRoundTrip := by
  intro lenW n rest hpos hfit
  rw [← lenCode_zero]
  exact readLength_lenCode_append ⟨hpos, Nat.zero_le _, .inl rfl⟩ hfit rest

/-- Settles O28: the reader takes the code from the stream's bits. -/
theorem vlcDecodeReadsCode : Obligations.VlcDecodeReadsCode :=
  fun _ _ _ rest hpos hfit hpad hcanonical hs =>
    exec_vlcDecode_of_ok (hs ▸ readLength_lenCode_append ⟨hpos, hpad, hcanonical⟩ hfit rest)

/-- Settles O29: a code cut short, and the two kinds of bits on which the reader ends with LENGTH_OVERFLOW. -/
theorem vlcDecodeRaisesErrors : Obligations.VlcDecodeRaisesErrors := by
  refine ⟨fun s n pad k hw hpos hpad hcanonical hk hs => ?_, fun s rest hs => ?_,
    fun s blenBits rest clen hpos hmax hlen hover hs => ?_⟩
  · obtain ⟨used, herr⟩ := readLength_take_lenCode hw ⟨hpos, hpad, hcanonical⟩ hk
    exact exec_vlcDecode_of_err (hs ▸ herr)
  · exact exec_vlcDecode_of_overflowCode (.inl rfl) hs
  · refine exec_vlcDecode_of_overflowCode (rest := rest)
      (.inr ⟨clen + 2, blenBits, by omega, Nat.add_le_add_right hmax 2, hlen, hover, rfl⟩) ?_
    rw [hs, List.append_assoc, List.cons_append]

/-- Settles O25: by whether `n` is in the domain; `tail` is written out as the field of what the leading 1 leaves. -/
theorem vlcEncodeReturnsCode : Obligations.VlcEncodeReturnsCode := by
  refine fun s n => ⟨?_, fun htwo hfit => ?_, exec_vlcEncode_of_outside⟩
  · rintro rfl hfit
    exact exec_vlcEncode_of_inDomain le_rfl hfit
  · have hblen : bitlen n ≠ 0 := (bitlen_pos (by omega)).ne'
    rw [exec_vlcEncode_of_inDomain (by omega) hfit, vlc_of_two_le htwo, tailBits_eq_bin_sub hblen,
      tailBits_eq_bin_sub (by omega)]
    rfl

/-- Settles O30: the reader takes the codes of 1 with one-bits in front; a canonical code has 1 bit or at least 7. -/
theorem nonCanonicalCodesAreOne : Obligations.NonCanonicalCodesAreOne := by
  refine fun lenW k rest hw hpos hmax => ⟨?_, fun n hn heq => ?_⟩
  · have hfit : 1 < 2 ^ lenW := Nat.one_lt_two_pow (by omega)
    simpa [lenCode_one] using readLength_lenCode_append ⟨le_rfl, hmax, .inr rfl⟩ hfit rest
  · have hlen : (vlc n).length = k + 1 := by simp [heq]
    obtain rfl | htwo := hn.eq_or_lt
    · rw [length_vlc_one] at hlen
      omega
    · have := seven_le_length_vlc htwo
      omega

end Sys2Proof.Machine
end

section
/-! PROOFS of 42_bitstream.md: the writer's three appends (R181 to R183) and the reader's three operations (R184 to
R186). -/

namespace Sys2Proof.Machine

variable {s : State}

/-! ### The writer -/

theorem exec_bsAppendBit (b : Bool) (s : State) : exec (.bsAppendBit b) s = appendBit b s := rfl

theorem exec_bsAppendBits (bits : Bits) (s : State) : exec (.bsAppendBits bits) s = appendBits bits s := rfl

/-- A field is appended as the sequence of its bits (42_bitstream.md R182). -/
theorem exec_bsAppendUint (v w : Nat) (s : State) :
    exec (.bsAppendUint v w) s = exec (.bsAppendBits (bin v w)) s := rfl

theorem bin_ne_nil (v : Nat) {w : Nat} (h : 0 < w) : bin v w ≠ [] := by
  rwa [← List.length_pos_iff, length_bin]

/-- Settles O19: by whether the write pointer is below the capacity. -/
theorem appendBitWritesOneBit : Obligations.AppendBitWritesOneBit := by
  intro s b
  rw [exec_bsAppendBit]
  exact ⟨appendBit_of_lt b s, appendBit_of_le b s⟩

/-- Settles O21: a sequence that fits is one write of consecutive units. -/
theorem appendBitsWritesSequence : Obligations.AppendBitsWritesSequence := by
  intro s bits hwf
  rw [exec_bsAppendBits]
  have hcap := Params.bsCap_lt hwf
  exact ⟨fun hfit => ⟨_, appendBits_of_le bits s hcap hfit, Memory.get_setMany bits s.bs s.dp.wptr.toNat⟩,
    fun hne hover => appendBits_of_gt bits s hcap hover hne⟩

/-- Settles O20: the field is a sequence of `w` bits, of which bit `k` is bit `w - 1 - k` of the value. -/
theorem appendUintWritesField : Obligations.AppendUintWritesField := by
  intro s v w hwf
  obtain ⟨hfits, hover⟩ := appendBitsWritesSequence s (bin v w) hwf
  rw [length_bin] at hfits hover
  rw [exec_bsAppendUint]
  refine ⟨fun hfit => ?_, ?_, fun hpos => hover (bin_ne_nil v hpos)⟩
  · obtain ⟨m, hexec, hget⟩ := hfits hfit
    refine ⟨m, hexec, fun i => ?_⟩
    rw [hget]
    by_cases hi : s.dp.wptr.toNat ≤ i ∧ i < s.dp.wptr.toNat + w
    · rw [if_pos hi, if_pos hi, getElem?_bin v w _ (by omega)]
    · rw [if_neg hi, if_neg hi]
  · rintro rfl
    rfl

/-! ### The reader -/

/-- The bits that a read of `w` bits takes, from `BS[dp.rptr]` on (42_bitstream.md R185). -/
def nextBits (w : Nat) (s : State) : Bits := (List.range' s.dp.rptr.toNat w).map (bsBit s)

@[simp] theorem length_nextBits (w : Nat) (s : State) : (nextBits w s).length = w := by simp [nextBits]

theorem getElem?_nextBits_of_get {w k : Nat} {b : Bool} (hk : k < w)
    (hb : Memory.get s.bs (s.dp.rptr.toNat + k) = some b) : (nextBits w s)[k]? = some b := by
  simp [nextBits, hk, bsBit_of_get hb]

theorem exec_bsReadBit_of_lt (h : s.dp.rptr.toNat < s.dp.cn.toNat) :
    exec .bsReadBit s = .next (unitReturns (.bit (bsBit s s.dp.rptr.toNat)) (advance 1 (tick s))) := by
  rw [exec, execBsReadBit, if_neg (not_le.2 h)]

theorem exec_bsReadBit_of_le (h : s.dp.cn.toNat ≤ s.dp.rptr.toNat) :
    exec .bsReadBit s = .next (raiseError .decodeStep .truncatedStream s) := by
  rw [exec, execBsReadBit, if_pos h]

theorem exec_bsReadUint_of_le {w : Nat} (h : w = 0 ∨ s.dp.rptr.toNat + w ≤ s.dp.cn.toNat) :
    exec (.bsReadUint w) s = .next (unitReturns (.num (val (nextBits w s))) (advance w (tick s))) := by
  rw [exec, execBsReadUint, if_neg (by omega)]
  rfl

theorem exec_bsReadUint_of_lt {w : Nat} (hpos : 0 < w) (h : s.dp.cn.toNat < s.dp.rptr.toNat + w) :
    exec (.bsReadUint w) s = .next (raiseError .decodeStep .truncatedStream s) := by
  rw [exec, execBsReadUint, if_pos ⟨hpos.ne', h⟩]

theorem exec_bsAtEnd (s : State) : exec .bsAtEnd s = .next (unitReturns (.bit (atEnd s)) s) := rfl

/-- The error exit of a core step of DECODE, for the token that began at `dp.tstart` (60_exceptions.md R310). -/
theorem endsInError_raiseError_decodeStep (c : ErrCode) (s : State) :
    EndsInError (errNumber c) s.dp.tstart s (raiseError .decodeStep c s) :=
  ⟨rfl, rfl, rfl, rfl, rfl, rfl, rfl, rfl, rfl⟩

/-- Settles O22: by whether the read pointer is before the end of the stream. -/
theorem readBitReturnsNextBit : Obligations.ReadBitReturnsNextBit :=
  fun s => ⟨fun hbefore => ⟨bsBit s s.dp.rptr.toNat, fun _ => bsBit_of_get, exec_bsReadBit_of_lt hbefore⟩,
    fun hend => ⟨_, exec_bsReadBit_of_le hend, endsInError_raiseError_decodeStep .truncatedStream s⟩⟩

/-- Settles O23: by whether the field is empty or ends within the stream; its bits are `nextBits w s`. -/
theorem readUintReturnsField : Obligations.ReadUintReturnsField :=
  fun s w => ⟨fun hfits => ⟨nextBits w s, length_nextBits w s, fun _ hk _ => getElem?_nextBits_of_get hk,
      exec_bsReadUint_of_le hfits⟩,
    fun hpos hpast => ⟨_, exec_bsReadUint_of_lt hpos hpast, endsInError_raiseError_decodeStep .truncatedStream s⟩⟩

/-- Settles O24: the answer is the comparison of the two pointers. -/
theorem atEndComparesPointers : Obligations.AtEndComparesPointers := by
  intro s
  rw [exec_bsAtEnd, atEnd]
  refine ⟨fun heq => ?_, fun hne => ?_⟩
  · rw [decide_eq_true heq]
    rfl
  · rw [decide_eq_false hne]
    rfl

end Sys2Proof.Machine
end

section
/-! PROOFS of 43_encoder.md: the start of ENCODE (R201), its token step (R203 to R205), its exit (R212), and the run
from any state of it to the exit (R208). -/

namespace Sys2Proof.Machine

variable {s t : State}

/-! ### The start -/

/-- The acceptance of ENCODE (45_host_interface.md R262). -/
theorem exec_encode_of_legal (hf : s.dp.fsm = .idle) (hc : configLegal s = true)
    (hn : s.reg.inLen.toNat ≤ s.par.inCap) :
    exec .encode s = .next (startEncode (snapshot s.reg.inLen (beginCommand s))) := by
  have hlegal : configLegal s ≠ false := by simp [hc]
  rw [exec, execEncode, if_neg (not_not_intro hf), if_neg hlegal, if_neg (not_lt.2 hn)]

/-- Settles O4: the accepted command's state with the derived quantities of the window size in their registers. -/
theorem encodeStartLoadsSnapshot : Obligations.EncodeStartLoadsSnapshot := by
  intro s hf hw₁ hw₂ hla₁ hla₂ hn
  refine ⟨BitVec.ofNat 6 (offsetWidth s.reg.windowSize.toNat), BitVec.ofNat 32 (maxOffset s.reg.windowSize.toNat),
    toNat_cow _, ?_, exec_encode_of_legal hf ((configLegal_iff s).2 ⟨hw₁, hw₂, hla₁, hla₂⟩) hn⟩
  rw [toNat_cow]
  exact toNat_cmo _

/-! ### The exit -/

theorem coreStep_of_encodeEnd (hf : s.dp.fsm = .eToken) (hc : s.dp.cur = s.dp.cn) :
    coreStep s = .next (encodeExit s) := by
  rw [coreStep_of_eToken hf, encoderStep, if_pos hc]

/-- The padding is zero bits up to the next multiple of 8 (43_encoder.md R212). -/
theorem get_setMany_padding (m : List (Nat × Bool)) (n i : Nat) :
    Memory.get (Memory.setMany m n (padding n)) i =
      if n ≤ i ∧ i < 8 * ((n + 7) / 8) then some false else Memory.get m i := by
  have hend : n + (padding n).length = 8 * ((n + 7) / 8) := by
    rw [padding, List.length_replicate]
    omega
  rw [Memory.get_setMany, hend]
  split_ifs with hi
  · exact List.getElem?_replicate_of_lt (by omega)
  · rfl

/-- Settles O15: the exit's state, whose BS is the old one with the padding behind the stream. -/
theorem encodeExitPadsStream : Obligations.EncodeExitPadsStream :=
  fun s hf hc => ⟨_, coreStep_of_encodeEnd hf hc, get_setMany_padding s.bs s.dp.wptr.toNat⟩

/-! ### The token step -/

/-- The encoder takes the matcher's result for a MATCH (43_encoder.md R203). -/
abbrev TakesMatch (s : State) : Prop := (findMatch s).1 = true ∧ 2 ≤ (findMatch s).2.2

/-- The bits of the token that the encoder emits next (43_encoder.md R204, R205). -/
def nextToken (s : State) : Bits :=
  if TakesMatch s then encodeMatch s.dp.cow.toNat (findMatch s).2.1 (findMatch s).2.2 0
  else encodeLit (inByte s s.dp.cur.toNat)

/-- How many bytes of the input that token stands for. -/
def bytesTaken (s : State) : Nat := if TakesMatch s then (findMatch s).2.2 else 1

theorem nextToken_ne_nil (s : State) : nextToken s ≠ [] := by
  unfold nextToken
  split_ifs
  · exact List.cons_ne_nil _ _
  · exact List.cons_ne_nil _ _

/-- Before the end of the input the encoder emits a MATCH or a LIT (43_encoder.md R203). -/
theorem encoderStep_of_ne (hc : s.dp.cur ≠ s.dp.cn) :
    encoderStep s =
      andThen (if TakesMatch s then emitMatch (findMatch s).2.1 (findMatch s).2.2 s else emitLit s)
        fun u => .next (tick u) := by
  rw [encoderStep, if_neg hc]
  simp only [Bool.and_eq_true, decide_eq_true_eq]

/-- A token step that answers a state appends the next token and moves the cursor behind its bytes. -/
theorem appendBits_nextToken_of_encoderStep (hc : s.dp.cur ≠ s.dp.cn) (h : encoderStep s = .next t) :
    ∃ u, t = tick u ∧
      andThen (appendBits (nextToken s) s) (fun v => .next (advanceCursor (bytesTaken s) v)) = .next u := by
  rw [encoderStep_of_ne hc] at h
  obtain ⟨u, hu, ht⟩ := andThen_eq_next h
  cases ht
  refine ⟨u, rfl, ?_⟩
  unfold nextToken bytesTaken
  split_ifs at hu ⊢ with hm
  · obtain ⟨-, hlen⟩ := hm
    rwa [← emitMatch_eq (vlcInDomain_of_emitMatch hu) (by omega)]
  · rwa [← emitLit_eq]

/-- From a legal state the token step emits the next token: it answers a state, so the token fits BS. -/
theorem Inv.encoderStep_eq_nextToken (h : Inv s) (hf : s.dp.fsm = .eToken) (hc : s.dp.cur ≠ s.dp.cn) :
    Machine.encoderStep s = .next (Machine.tick (Machine.emitted (nextToken s) (bytesTaken s) s)) := by
  obtain ⟨_, _, _, _, _, hstep⟩ := h.encoderStep_eq hf hc
  obtain ⟨u, ht, happend⟩ := appendBits_nextToken_of_encoderStep hc hstep
  have hfit : s.dp.wptr.toNat + (nextToken s).length ≤ s.par.bsCap := by
    by_contra hover
    rw [appendBits_of_gt _ s (Params.bsCap_lt h.build) (not_le.1 hover) (nextToken_ne_nil s)] at happend
    cases happend
  cases (h.appendBits_eq_emitted hfit).symm.trans happend
  rw [hstep, ht]

/-- Settles O16: the next token's bits behind the stream, the cursor behind the bytes it stands for. -/
theorem encoderEmitsOneToken : Obligations.EncoderEmitsOneToken :=
  fun s h hf hc => ⟨_, (coreStep_of_eToken hf).trans (h.encoderStep_eq_nextToken hf hc),
    Memory.get_setMany (nextToken s) s.bs s.dp.wptr.toNat⟩

/-! ### The run -/

/-- A token step covers at least one byte of the input and none past its end, and ENCODE goes on (43_encoder.md
R208). -/
theorem Inv.coreStep_raises_cur (h : Inv s) (hf : s.dp.fsm = .eToken) (hc : s.dp.cur ≠ s.dp.cn) :
    ∃ t, Machine.coreStep s = .next t ∧ s.dp.cur.toNat < t.dp.cur.toNat ∧ t.dp.cur.toNat ≤ t.dp.cn.toNat ∧
      t.dp.cn = s.dp.cn ∧ t.dp.fsm = .eToken ∧ t.hostQ = s.hostQ := by
  obtain ⟨bits, n, hpos, hn, _, hstep⟩ := h.encoderStep_eq hf hc
  have hcur : (s.dp.cur + BitVec.ofNat 32 n).toNat = s.dp.cur.toNat + n :=
    toNat_add_ofNat s.dp.cur (hn.trans_lt s.dp.cn.isLt)
  exact ⟨_, (Machine.coreStep_of_eToken hf).trans hstep, (Nat.lt_add_of_pos_right hpos).trans_eq hcur.symm,
    hcur.trans_le hn, rfl, hf, rfl⟩

/-- With no host step to come a step of a legal state is the core's (10_state.md R30). -/
theorem Inv.step_of_hostQ_nil (h : Inv s) (hq : s.hostQ = []) : step s = Machine.coreStep s := by
  rw [step_of_core h.build h.latch (nextAgent_of_hostQ_nil hq), takeTurn_of_hostQ_nil s hq]

/-- A run begins with its first step. -/
theorem run_succ_of_step (h : step s = .next t) (k : Nat) :
    Host.Core.run Sys2Proof.core (k + 1) s = Host.Core.run Sys2Proof.core k t := by
  have hcore : Sys2Proof.core.step s = .next t := h
  simp only [Host.Core.run, hcore]

/-- The run of R208, by induction on the bytes still to encode. -/
theorem Inv.encode_run (h : Inv s) (hf : s.dp.fsm = .eToken) (hq : s.hostQ = []) :
    ∃ k t, k ≤ s.dp.cn.toNat - s.dp.cur.toNat + 1 ∧
      Host.Core.run Sys2Proof.core k s = .next t ∧ Succeeded t := by
  induction hleft : s.dp.cn.toNat - s.dp.cur.toNat using Nat.strong_induction_on generalizing s with
  | _ left ih =>
    have hstep := h.step_of_hostQ_nil hq
    by_cases hc : s.dp.cur = s.dp.cn
    · rw [coreStep_of_encodeEnd hf hc] at hstep
      exact ⟨1, _, by omega, run_succ_of_step hstep 0, rfl, rfl⟩
    · obtain ⟨t, ht, hlt, hle, hcn, hft, hqt⟩ := h.coreStep_raises_cur hf hc
      rw [hcn] at hle
      obtain ⟨k, u, hk, hrun, hu⟩ := ih (s.dp.cn.toNat - t.dp.cur.toNat) (by omega) (h.coreStep ht) hft
        (hqt.trans hq) (by rw [hcn])
      exact ⟨k + 1, u, by omega, (run_succ_of_step (hstep.trans ht) k).trans hrun, hu⟩

/-- Settles O51: each token step covers input, and by induction the run reaches the exit. -/
theorem encodeRunsToSuccess : Obligations.EncodeRunsToSuccess := by
  refine ⟨fun s t h hf hc ht => ?_, fun s h hf hq => h.encode_run hf hq⟩
  obtain ⟨t', ht', hlt, hle, hcn, hft, _⟩ := h.coreStep_raises_cur hf hc
  cases ht'.symm.trans ht
  exact ⟨hlt, hle, hcn, hft⟩

end Sys2Proof.Machine
end

section
/-! PROOFS of 44_decoder.md: the start of DECODE (R231), what each of its steps does (R233 to R237), and the copy of a
match from its first step to its last (R238). -/

namespace Sys2Proof.Machine

variable {s t : State}

/-! ### The start and the exit -/

/-- The acceptance of DECODE (45_host_interface.md R263). -/
theorem exec_decode_of_legal (hf : s.dp.fsm = .idle) (hc : configLegal s = true)
    (hn : s.reg.bsLen.toNat ≤ s.par.bsCap) :
    exec .decode s = .next (startDecode (snapshot s.reg.bsLen (clearOutLen (beginCommand s)))) := by
  have hlegal : configLegal s ≠ false := by simp [hc]
  rw [exec, execDecode, if_neg (not_not_intro hf), if_neg hlegal, if_neg (not_lt.2 hn)]

/-- Settles O5: the accepted command's state with the derived quantities of the window size in their registers. -/
theorem decodeStartLoadsSnapshot : Obligations.DecodeStartLoadsSnapshot := by
  intro s hf hw₁ hw₂ hla₁ hla₂ hn
  refine ⟨BitVec.ofNat 6 (offsetWidth s.reg.windowSize.toNat), BitVec.ofNat 32 (maxOffset s.reg.windowSize.toNat),
    toNat_cow _, ?_, exec_decode_of_legal hf ((configLegal_iff s).2 ⟨hw₁, hw₂, hla₁, hla₂⟩) hn⟩
  rw [toNat_cow]
  exact toNat_cmo _

theorem tokenStep_of_end (hr : s.dp.rptr = s.dp.cn) : tokenStep s = .next (decodeExit s) :=
  if_pos (decide_eq_true hr)

/-- Settles O14: the token step at the end of the stream is the success exit. -/
theorem decodeExitPublishesLength : Obligations.DecodeExitPublishesLength :=
  fun _ hf hr => (coreStep_of_dToken hf).trans (tokenStep_of_end hr)

/-! ### LIT -/

/-- The error exit of a token records where the token began (60_exceptions.md R310). -/
theorem endsInError_tokenAborted (c : ErrCode) (used : Nat) (s : State) :
    EndsInError (errNumber c) s.dp.rptr s (tokenAborted c used s) :=
  ⟨rfl, rfl, rfl, rfl, rfl, rfl, rfl, rfl, rfl⟩

variable (b : Byte)

theorem exec_lit_of_cut (hcut : s.dp.cn.toNat < s.dp.rptr.toNat + 9) :
    exec (.lit b) s = .next (tokenAborted .truncatedStream 1 s) :=
  if_pos hcut

theorem exec_lit_of_full (hbits : s.dp.rptr.toNat + 9 ≤ s.dp.cn.toNat) (hfull : s.par.outCap ≤ s.dp.olen.toNat) :
    exec (.lit b) s = .next (tokenAborted .outputOverflow 9 s) :=
  (if_neg (not_lt.2 hbits)).trans (if_pos hfull)

theorem exec_lit_of_room (hbits : s.dp.rptr.toNat + 9 ≤ s.dp.cn.toNat) (hroom : s.dp.olen.toNat < s.par.outCap) :
    exec (.lit b) s = .next (putByte b (advance 9 (markToken s))) :=
  (if_neg (not_lt.2 hbits)).trans (if_neg (not_le.2 hroom))

/-- Settles O10: by whether the stream ends inside the token, and by whether OUT is full. -/
theorem litAppendsByte : Obligations.LitAppendsByte :=
  fun s b => ⟨exec_lit_of_room b,
    fun hcut => ⟨_, exec_lit_of_cut b hcut, endsInError_tokenAborted .truncatedStream 1 s⟩,
    fun hbits hfull => ⟨_, exec_lit_of_full b hbits hfull, endsInError_tokenAborted .outputOverflow 9 s⟩⟩

/-- LIT ends DECODE or appends its byte; it always answers a state. -/
theorem exec_lit_cases (s : State) :
    (∃ c used, exec (.lit b) s = .next (tokenAborted c used s)) ∨
    (s.dp.rptr.toNat + 9 ≤ s.dp.cn.toNat ∧ s.dp.olen.toNat < s.par.outCap ∧
      exec (.lit b) s = .next (putByte b (advance 9 (markToken s)))) := by
  rcases lt_or_ge s.dp.cn.toNat (s.dp.rptr.toNat + 9) with hcut | hbits
  · exact .inl ⟨_, _, exec_lit_of_cut b hcut⟩
  · rcases lt_or_ge s.dp.olen.toNat s.par.outCap with hroom | hfull
    · exact .inr ⟨hbits, hroom, exec_lit_of_room b hbits hroom⟩
    · exact .inl ⟨_, _, exec_lit_of_full b hbits hfull⟩

/-! ### MATCH -/

/-- How many bits of a MATCH are read: flag, offset, length code (44_decoder.md R236). -/
def matchBits (s : State) (len pad : Nat) : Nat := 1 + s.dp.cow.toNat + lengthBits s.par.lenW len pad

theorem matchBits_of_lt {len : Nat} (pad : Nat) (hlen : len < 2 ^ s.par.lenW) :
    matchBits s len pad = 1 + s.dp.cow.toNat + (lenCode len pad).length := by
  rw [matchBits, lengthBits, if_pos hlen]

variable {off len pad : Nat}

theorem exec_matchTok_of_cut (hcut : s.dp.cn.toNat < s.dp.rptr.toNat + matchBits s len pad) :
    exec (.matchTok off len pad) s = .next (tokenAborted .truncatedStream 1 s) :=
  if_pos hcut

section Complete

variable (hbits : s.dp.rptr.toNat + matchBits s len pad ≤ s.dp.cn.toNat)
include hbits

theorem exec_matchTok_of_long (hlong : 2 ^ s.par.lenW ≤ len) :
    exec (.matchTok off len pad) s = .next (tokenAborted .lengthOverflow (matchBits s len pad) s) :=
  (if_neg (not_lt.2 hbits)).trans (if_pos hlong)

variable (hlen : len < 2 ^ s.par.lenW)
include hlen

theorem exec_matchTok_of_dangling (hdangling : off = 0 ∨ s.dp.olen.toNat < off) :
    exec (.matchTok off len pad) s = .next (tokenAborted .danglingReference (matchBits s len pad) s) :=
  (if_neg (not_lt.2 hbits)).trans ((if_neg (not_le.2 hlen)).trans (if_pos hdangling))

variable (hoff : off ≠ 0) (hsrc : off ≤ s.dp.olen.toNat)
include hoff hsrc

theorem exec_matchTok_of_full (hfull : s.par.outCap < s.dp.olen.toNat + len) :
    exec (.matchTok off len pad) s = .next (tokenAborted .outputOverflow (matchBits s len pad) s) :=
  (if_neg (not_lt.2 hbits)).trans ((if_neg (not_le.2 hlen)).trans ((if_neg (by omega)).trans (if_pos hfull)))

theorem exec_matchTok_of_room (hroom : s.dp.olen.toNat + len ≤ s.par.outCap) :
    exec (.matchTok off len pad) s = .next (beginCopy off len (advance (matchBits s len pad) (markToken s))) :=
  (if_neg (not_lt.2 hbits)).trans
    ((if_neg (not_le.2 hlen)).trans ((if_neg (by omega)).trans (if_neg (not_lt.2 hroom))))

end Complete

/-- Settles O11: by the rule's checks in their order. -/
theorem matchBeginsCopy : Obligations.MatchBeginsCopy := by
  intro s off len pad
  refine ⟨fun hbits hlen hoff hsrc hroom => ?_, fun hcut => ?_, fun hbits hlong => ?_, fun hbits hlen hdangling => ?_,
    fun hbits hlen hoff hsrc hfull => ?_⟩
  · rw [exec_matchTok_of_room hbits hlen hoff hsrc hroom, matchBits_of_lt pad hlen, ← lenField_of_lt s.par hlen]
    rfl
  · exact ⟨_, exec_matchTok_of_cut (not_le.1 hcut), endsInError_tokenAborted .truncatedStream _ s⟩
  · exact ⟨_, exec_matchTok_of_long hbits hlong, endsInError_tokenAborted .lengthOverflow _ s⟩
  · exact ⟨_, exec_matchTok_of_dangling hbits hlen hdangling, endsInError_tokenAborted .danglingReference _ s⟩
  · exact ⟨_, exec_matchTok_of_full hbits hlen hoff hsrc hfull, endsInError_tokenAborted .outputOverflow _ s⟩

/-- MATCH ends DECODE or begins its copy; it always answers a state. -/
theorem exec_matchTok_cases (off len pad : Nat) (s : State) :
    (∃ c used, exec (.matchTok off len pad) s = .next (tokenAborted c used s)) ∨
    (s.dp.rptr.toNat + matchBits s len pad ≤ s.dp.cn.toNat ∧
      exec (.matchTok off len pad) s = .next (beginCopy off len (advance (matchBits s len pad) (markToken s)))) := by
  rcases lt_or_ge s.dp.cn.toNat (s.dp.rptr.toNat + matchBits s len pad) with hcut | hbits
  · exact .inl ⟨_, _, exec_matchTok_of_cut hcut⟩
  rcases lt_or_ge len (2 ^ s.par.lenW) with hlen | hlong
  swap
  · exact .inl ⟨_, _, exec_matchTok_of_long hbits hlong⟩
  by_cases hdangling : off = 0 ∨ s.dp.olen.toNat < off
  · exact .inl ⟨_, _, exec_matchTok_of_dangling hbits hlen hdangling⟩
  obtain ⟨hoff, hsrc⟩ := not_or.1 hdangling
  rcases lt_or_ge s.par.outCap (s.dp.olen.toNat + len) with hfull | hroom
  · exact .inl ⟨_, _, exec_matchTok_of_full hbits hlen hoff (not_lt.1 hsrc) hfull⟩
  · exact .inr ⟨hbits, exec_matchTok_of_room hbits hlen hoff (not_lt.1 hsrc) hroom⟩

/-! ### The copy step -/

variable {b}

/-- A word that has no bit above the field is kept as it is, also by a field wider than the word. -/
theorem lenField_toNat {p : Params} {w : Word} (h : w.toNat < 2 ^ p.lenW) : lenField p w.toNat = w := by
  rw [lenField_of_lt p h, BitVec.ofNat_toNat, BitVec.setWidth_eq]

/-- The copy count goes down by 1 from a count that the register holds, whatever the width of the register. -/
theorem toNat_copyRest_add_one (hpos : 1 ≤ s.dp.crem.toNat) (hfit : s.dp.crem.toNat < 2 ^ s.par.lenW) :
    (copyRest s).toNat + 1 = s.dp.crem.toNat := by
  have hpred : (s.dp.crem - 1).toNat + 1 = s.dp.crem.toNat := by bv_omega
  rwa [copyRest, lenField_toNat (by omega)]

/-- The copy step moves a byte that is held (44_decoder.md R237). -/
theorem copyStep_of_get (hb : Memory.get s.outb (s.dp.olen.toNat - s.dp.coff.toNat) = some b) :
    copyStep s =
      { s with
        outb := Memory.set s.outb s.dp.olen.toNat b
        dp :=
          { s.dp with
            olen := s.dp.olen + 1
            crem := copyRest s
            fsm := if copyRest s = 0 then .dToken else s.dp.fsm }
        draws := s.draws + 1 } := by
  rw [copyStep, outByte_of_get hb]
  rfl

/-- Settles O12: the new count is that of `copyRest`. -/
theorem copyStepCopiesOneByte : Obligations.CopyStepCopiesOneByte := by
  intro s b hf _ hb
  refine ⟨copyRest s, ?_, toNat_lenField_lt s.par _, toNat_copyRest_add_one⟩
  rw [coreStep_of_dCopy hf, copyStep_of_get hb, hf]

/-! ### The copy of a match -/

/-- `s` after the copy of its match, with `m` in OUT: `dp.crem` bytes more, and a token comes next. -/
def matchCopied (m : List Host.Cell) (d : Nat) (s : State) : State :=
  { s with
    outb := m
    dp := { s.dp with olen := s.dp.olen + s.dp.crem, crem := 0, fsm := .dToken }
    draws := d }

/-- OUT with `m` is that of `s` with `n` bytes more, which repeat the last `dp.coff` of its bytes (44_decoder.md
R238). -/
def RepeatsPeriod (n : Nat) (s : State) (m : List Host.Cell) : Prop :=
  (∀ k < n, Memory.get m (s.dp.olen.toNat + k) =
    Memory.get s.outb (s.dp.olen.toNat - s.dp.coff.toNat + k % s.dp.coff.toNat)) ∧
  ∀ i < s.dp.olen.toNat, Memory.get m i = Memory.get s.outb i

/-- A copy of `n` bytes behind the copy step is one of `n + 1` bytes: the source of each byte is the output `dp.coff`
behind it, which may be a byte of the copy itself. -/
theorem RepeatsPeriod.of_copyStep {n : Nat} {m : List Host.Cell} (hol : (s.dp.olen + 1).toNat = s.dp.olen.toNat + 1)
    (hoff : 1 ≤ s.dp.coff.toNat) (hsrc : s.dp.coff.toNat ≤ s.dp.olen.toNat)
    (hb : Memory.get s.outb (s.dp.olen.toNat - s.dp.coff.toNat) = some b)
    (hrest : RepeatsPeriod n (copyStep s) m) : RepeatsPeriod (n + 1) s m := by
  rw [copyStep_of_get hb, RepeatsPeriod] at hrest
  dsimp only at hrest
  rw [hol] at hrest
  obtain ⟨hnew, hold⟩ := hrest
  refine ⟨fun k hk => ?_, fun i hi => ?_⟩
  · cases k with
    | zero => rw [Nat.add_zero, hold _ (Nat.lt_succ_self _), Memory.get_set_self, Nat.zero_mod, Nat.add_zero, hb]
    | succ k =>
      have hmod := Nat.mod_lt k hoff
      rw [← Nat.add_assoc, Nat.add_right_comm, hnew k (by omega), ← Nat.mod_add_mod k]
      by_cases hlast : k % s.dp.coff.toNat + 1 = s.dp.coff.toNat
      · rw [hlast, Nat.mod_self,
          show s.dp.olen.toNat + 1 - s.dp.coff.toNat + k % s.dp.coff.toNat = s.dp.olen.toNat by omega,
          Memory.get_set_self]
        exact hb.symm
      · rw [Nat.mod_eq_of_lt (by omega : k % s.dp.coff.toNat + 1 < s.dp.coff.toNat),
          Memory.get_set_of_ne _ _ (by omega)]
        congr 1
        omega
  · rw [hold i (hi.trans (Nat.lt_succ_self _)), Memory.get_set_of_ne _ _ hi.ne]

/-- The copy of a match, by induction on the bytes still to copy (44_decoder.md R238). -/
theorem Inv.copy_run (h : Inv s) (hf : s.dp.fsm = .dCopy) (hq : s.hostQ = []) :
    ∃ m d, Host.Core.run Sys2Proof.core s.dp.crem.toNat s = .next (matchCopied m d s) ∧
      RepeatsPeriod s.dp.crem.toNat s m := by
  induction hcount : s.dp.crem.toNat generalizing s with
  | zero =>
    obtain ⟨-, -, hpos, -⟩ := h.copy hf
    omega
  | succ n ih =>
    obtain ⟨hoff, hsrc, hpos, hroom⟩ := h.copy hf
    obtain ⟨-, -, -, hfill⟩ := h.decoder (.inr hf)
    obtain ⟨b, hb⟩ := Option.isSome_iff_exists.1 (hfill (s.dp.olen.toNat - s.dp.coff.toNat) (by omega))
    have hrest : (copyRest s).toNat = n := by
      have := toNat_copyRest_add_one hpos h.copyCount
      omega
    have hfirst : step s = .next (Machine.copyStep s) := (h.step_of_hostQ_nil hq).trans (coreStep_of_dCopy hf)
    have hperiod {m : List Host.Cell} : RepeatsPeriod n (Machine.copyStep s) m → RepeatsPeriod (n + 1) s m :=
      RepeatsPeriod.of_copyStep (toNat_olen_succ h.build (by omega)) hoff hsrc hb
    by_cases hlast : copyRest s = 0
    · obtain rfl : n = 0 := by simpa [hlast] using hrest.symm
      have hend : Machine.copyStep s = matchCopied (Machine.copyStep s).outb (Machine.copyStep s).draws s := by
        have hadd : s.dp.olen + 1 = s.dp.olen + s.dp.crem := by bv_omega
        rw [copyStep_of_get hb, matchCopied, ← hadd, if_pos hlast, hlast]
      exact ⟨_, _, (run_succ_of_step hfirst 0).trans (congrArg _ hend), hperiod ⟨nofun, fun _ _ => rfl⟩⟩
    · have hgo : (Machine.copyStep s).dp.fsm = .dCopy := by
        rw [copyStep_of_get hb]
        exact (if_neg hlast).trans hf
      obtain ⟨m, d, hrun, hrep⟩ := ih (h.copyStep hf) hgo hq hrest
      have hend : matchCopied m d (Machine.copyStep s) = matchCopied m d s := by
        have hadd : s.dp.olen + 1 + copyRest s = s.dp.olen + s.dp.crem := by bv_omega
        rw [copyStep_of_get hb, matchCopied, matchCopied, ← hadd]
      exact ⟨m, d, (run_succ_of_step hfirst n).trans (hrun.trans (congrArg _ hend)), hperiod hrep⟩

/-- Settles O13: the copy's run ends in `matchCopied`, and the sum of its length and the output's fits OUT. -/
theorem matchCopyRepeatsPeriod : Obligations.MatchCopyRepeatsPeriod := by
  intro s h hf hq
  obtain ⟨m, d, hrun, hnew, hold⟩ := h.copy_run hf hq
  obtain ⟨-, -, -, hroom⟩ := h.copy hf
  have hcap := Params.outCap_lt h.build
  have hol : (s.dp.olen + s.dp.crem).toNat = s.dp.olen.toNat + s.dp.crem.toNat :=
    BitVec.toNat_add_of_lt (by omega)
  exact ⟨_, hrun, rfl, hol, hnew, hold⟩

end Sys2Proof.Machine
end

section
/-! PROOFS of 44_decoder.md R242: every step of DECODE reads bits, writes a byte or ends the command, so DECODE ends. -/

namespace Sys2Proof.Machine

variable {s t : State}

/-- A token step from a token's first bit on: it ends DECODE with an error, or it reads at least one bit and none past
the end of the stream, and then appends a byte or begins a copy. It always answers a state (44_decoder.md R233,
R242). -/
theorem tokenStep_cases (hr : s.dp.rptr ≠ s.dp.cn) :
    (∃ c used, tokenStep s = .next (tokenAborted c used (tick s))) ∨
    ∃ used, 1 ≤ used ∧ s.dp.rptr.toNat + used ≤ s.dp.cn.toNat ∧
      ((∃ b, s.dp.olen.toNat < s.par.outCap ∧ tokenStep s = .next (putByte b (advance used (markToken (tick s))))) ∨
       ∃ off len, tokenStep s = .next (beginCopy off len (advance used (markToken (tick s))))) := by
  have hgo : ¬(atEnd s = true) := by simpa [atEnd] using hr
  rw [tokenStep, if_neg hgo]
  cases hfetch : fetchToken s with
  | err e used => exact .inl ⟨tokenErrCode e, used, rfl⟩
  | ok i used rest =>
    obtain ⟨b, rfl⟩ | ⟨off, len, pad, rfl, -⟩ := decodeToken_eq_ok hfetch
    · refine (exec_lit_cases b (tick s)).imp_right ?_
      rintro ⟨hbits, hroom, hexec⟩
      exact ⟨9, by decide, hbits, .inl ⟨b, hroom, hexec⟩⟩
    · refine (exec_matchTok_cases off len pad (tick s)).imp_right ?_
      rintro ⟨hbits, hexec⟩
      exact ⟨_, by unfold matchBits; omega, hbits, .inr ⟨off, len, hexec⟩⟩

/-- How many steps a DECODE can take before its last one: one for each bit left and one for each byte free in OUT. -/
def stepsLeft (s : State) : Nat :=
  (s.dp.cn.toNat - s.dp.rptr.toNat) + (s.par.outCap - s.dp.olen.toNat)

/-- DECODE runs. -/
abbrev Decodes (s : State) : Prop := s.dp.fsm = .dToken ∨ s.dp.fsm = .dCopy

theorem Inv.tokenStep_lowers (h : Inv s) (hf : s.dp.fsm = .dToken) :
    ∃ t, Machine.tokenStep s = .next t ∧ (t.dp.fsm = .idle ∨ Decodes t ∧ stepsLeft t < stepsLeft s) := by
  by_cases hr : s.dp.rptr = s.dp.cn
  · exact ⟨_, tokenStep_of_end hr, .inl rfl⟩
  obtain ⟨c, used, ht⟩ | ⟨used, hpos, hbits, ⟨b, hroom, ht⟩ | ⟨off, len, ht⟩⟩ := tokenStep_cases hr
  · exact ⟨_, ht, .inl rfl⟩
  all_goals
    have hrptr := toNat_add_ofNat s.dp.rptr (hbits.trans_lt s.dp.cn.isLt)
  · have hol := toNat_olen_succ h.build hroom
    refine ⟨_, ht, .inr ⟨.inl hf, ?_⟩⟩
    simp only [stepsLeft, putByte_dp, putByte_par, advance_dp, advance_par, markToken_dp, markToken_par, tick_dp,
      tick_par, hrptr, hol]
    omega
  · refine ⟨_, ht, .inr ⟨.inr rfl, ?_⟩⟩
    simp only [stepsLeft, beginCopy_dp, beginCopy_par, advance_dp, advance_par, markToken_dp, markToken_par, tick_dp,
      tick_par, hrptr]
    omega

theorem Inv.copyStep_crem_lt (h : Inv s) (hf : s.dp.fsm = .dCopy) :
    (Machine.copyStep s).dp.crem.toNat < s.dp.crem.toNat := by
  obtain ⟨-, -, hpos, -⟩ := h.copy hf
  exact Nat.lt_of_succ_le (toNat_copyRest_add_one hpos h.copyCount).le

theorem decodes_copyStep (hf : s.dp.fsm = .dCopy) : Decodes (copyStep s) := by
  have hfsm : (copyStep s).dp.fsm = if copyRest s = 0 then .dToken else s.dp.fsm := rfl
  rw [Decodes, hfsm]
  split_ifs
  · exact .inl rfl
  · exact .inr hf

theorem Inv.stepsLeft_copyStep_lt (h : Inv s) (hf : s.dp.fsm = .dCopy) :
    stepsLeft (Machine.copyStep s) < stepsLeft s := by
  obtain ⟨-, -, hpos, hroom⟩ := h.copy hf
  have hlt : s.dp.olen.toNat < s.par.outCap := by omega
  have hol : (Machine.copyStep s).dp.olen.toNat = s.dp.olen.toNat + 1 := toNat_olen_succ h.build hlt
  have hcn : (Machine.copyStep s).dp.cn = s.dp.cn := rfl
  have hrptr : (Machine.copyStep s).dp.rptr = s.dp.rptr := rfl
  have hpar : (Machine.copyStep s).par = s.par := rfl
  rw [stepsLeft, stepsLeft, hol, hcn, hrptr, hpar]
  omega

/-- A step of DECODE ends it or leaves fewer steps; it always answers a state. -/
theorem Inv.coreStep_lowers (h : Inv s) (hd : Decodes s) :
    ∃ t, Machine.coreStep s = .next t ∧ (t.dp.fsm = .idle ∨ Decodes t ∧ stepsLeft t < stepsLeft s) := by
  rcases hd with hf | hf
  · rw [coreStep_of_dToken hf]
    exact h.tokenStep_lowers hf
  · exact ⟨_, coreStep_of_dCopy hf, .inr ⟨decodes_copyStep hf, h.stepsLeft_copyStep_lt hf⟩⟩

/-- The run of R242, by induction on the steps left. -/
theorem Inv.decode_run (h : Inv s) (hd : Decodes s) (hq : s.hostQ = []) :
    ∃ k t, k ≤ stepsLeft s + 1 ∧ Host.Core.run Sys2Proof.core k s = .next t ∧ t.dp.fsm = .idle := by
  induction hleft : stepsLeft s using Nat.strong_induction_on generalizing s with
  | _ left ih =>
    subst hleft
    obtain ⟨t, ht, hidle | ⟨hdt, hlt⟩⟩ := h.coreStep_lowers hd
    all_goals have hstep : step s = .next t := (h.step_of_hostQ_nil hq).trans ht
    · exact ⟨1, t, Nat.le_add_left _ _, run_succ_of_step hstep 0, hidle⟩
    · obtain ⟨-, -, hqt, -⟩ := coreStepFrame s t ht
      obtain ⟨k, u, hk, hrun, hu⟩ := ih _ hlt (h.coreStep ht) hdt (hqt.trans hq) rfl
      exact ⟨k + 1, u, by omega, (run_succ_of_step hstep k).trans hrun, hu⟩

/-- A token step that does not end DECODE reads bits, and a copy it begins fits the count's register. -/
theorem tokenStep_reads (hf : s.dp.fsm = .dToken) (hr : s.dp.rptr ≠ s.dp.cn) (ht : tokenStep s = .next t)
    (hne : t.dp.fsm ≠ .idle) :
    s.dp.rptr.toNat < t.dp.rptr.toNat ∧ t.dp.rptr.toNat ≤ t.dp.cn.toNat ∧ t.dp.cn = s.dp.cn ∧
      (t.dp.fsm = .dCopy → t.dp.crem.toNat < 2 ^ s.par.lenW) := by
  obtain ⟨c, used, ht'⟩ | ⟨used, hpos, hbits, ⟨b, hroom, ht'⟩ | ⟨off, len, ht'⟩⟩ := tokenStep_cases hr
  all_goals cases ht'.symm.trans ht
  · exact absurd rfl hne
  all_goals
    have hrptr := toNat_add_ofNat s.dp.rptr (hbits.trans_lt s.dp.cn.isLt)
    refine ⟨(Nat.lt_add_of_pos_right hpos).trans_eq hrptr.symm, hrptr.trans_le hbits, rfl, fun hc => ?_⟩
  · exact absurd (hf.symm.trans hc) (by decide)
  · exact toNat_lenField_lt s.par len

/-- Settles O52: each step lowers its measure, and by induction the run reaches the end. -/
theorem decodeRunsToEnd : Obligations.DecodeRunsToEnd := by
  refine ⟨fun s t h hf hr ht hne => ?_, fun s t h hf ht => ?_, fun s h hd hq => h.decode_run hd hq⟩
  · exact tokenStep_reads hf hr ((coreStep_of_dToken hf).symm.trans ht) hne
  · cases (coreStep_of_dCopy hf).symm.trans ht
    exact h.copyStep_crem_lt hf

end Sys2Proof.Machine
end

section
/-! PROOFS of 44_decoder.md R243: ENCODE leaves a stream whose tokens stand for the input, and DECODE of such a stream
gives the input back. -/

namespace Sys2Proof.Machine

variable {s t : State}

/-! ### Runs -/

/-- A run that answers a state after a step and more took that step. -/
theorem run_succ_eq_next {k : Nat} (h : Host.Core.run Sys2Proof.core (k + 1) s = .next t) :
    ∃ u, step s = .next u ∧ Host.Core.run Sys2Proof.core k u = .next t := by
  cases hstep : step s with
  | next u => exact ⟨u, rfl, (run_succ_of_step hstep k).symm.trans h⟩
  | fault e =>
    have hcore : Sys2Proof.core.step s = .fault e := hstep
    simp [Host.Core.run, hcore] at h
  | refused e =>
    have hcore : Sys2Proof.core.step s = .refused e := hstep
    simp [Host.Core.run, hcore] at h

theorem run_add_of_run {j : Nat} (h : Host.Core.run Sys2Proof.core j s = .next t) (k : Nat) :
    Host.Core.run Sys2Proof.core (j + k) s = Host.Core.run Sys2Proof.core k t := by
  induction j generalizing s with
  | zero =>
    cases h
    rw [Nat.zero_add]
  | succ j ih =>
    obtain ⟨u, hstep, hrun⟩ := run_succ_eq_next h
    rw [Nat.add_right_comm, run_succ_of_step hstep, ih hrun]

theorem Inv.of_run (h : Inv s) {k : Nat} (hrun : Host.Core.run Sys2Proof.core k s = .next t) : Inv t := by
  induction k generalizing s with
  | zero =>
    cases hrun
    exact h
  | succ k ih =>
    obtain ⟨u, hstep, hrun⟩ := run_succ_eq_next hrun
    exact ih (stepKeepsLegalStates s u h hstep) hrun

/-! ### Units held in a buffer -/

section Holds

variable {α : Type} {m : List (Nat × α)} {a : Nat} {xs ys : List α}

/-- From index `a` on, the buffer holds the units `xs`. -/
def Holds (m : List (Nat × α)) (a : Nat) (xs : List α) : Prop := ∀ k < xs.length, Memory.get m (a + k) = xs[k]?

theorem holds_nil (m : List (Nat × α)) (a : Nat) : Holds m a [] := nofun

theorem holds_setMany (m : List (Nat × α)) (a : Nat) (xs : List α) : Holds (Memory.setMany m a xs) a xs := by
  intro k hk
  rw [Memory.get_setMany, if_pos ⟨by omega, by omega⟩, Nat.add_sub_cancel_left]

theorem holds_append_iff : Holds m a (xs ++ ys) ↔ Holds m a xs ∧ Holds m (a + xs.length) ys := by
  simp only [Holds, List.length_append]
  constructor
  · intro h
    refine ⟨fun k hk => ?_, fun k hk => ?_⟩
    · rw [h k (by omega), List.getElem?_append_left hk]
    · rw [Nat.add_assoc, h _ (by omega), List.getElem?_append_right (by omega), Nat.add_sub_cancel_left]
  · rintro ⟨hx, hy⟩ k hk
    rcases lt_or_ge k xs.length with hlt | hge
    · rw [hx k hlt, List.getElem?_append_left hlt]
    · obtain ⟨i, rfl⟩ := Nat.exists_eq_add_of_le hge
      rw [← Nat.add_assoc, hy i (by omega), List.getElem?_append_right hge, Nat.add_sub_cancel_left]

theorem Holds.congr {m' : List (Nat × α)} (h : Holds m a xs)
    (heq : ∀ i < a + xs.length, Memory.get m' i = Memory.get m i) : Holds m' a xs :=
  fun k hk => (heq _ (by omega)).trans (h k hk)

end Holds

/-- The reader's bits are those that BS holds up to the stream's end. -/
theorem streamBits_of_holds {bits : Bits} (h : Holds s.bs s.dp.rptr.toNat bits)
    (hcn : s.dp.cn.toNat = s.dp.rptr.toNat + bits.length) : streamBits s = bits := by
  refine List.ext_getElem? fun k => ?_
  rcases lt_or_ge k bits.length with hk | hk
  · rw [getElem?_streamBits s k (by omega), List.getElem?_eq_getElem hk]
    exact congrArg some (bsBit_of_get ((h k hk).trans (List.getElem?_eq_getElem hk)))
  · rw [List.getElem?_eq_none hk, List.getElem?_eq_none (by rw [length_streamBits]; omega)]

/-! ### Streams of an input -/

section StandsFor

variable {lenW ow n c : Nat} {input : Nat → Option Byte} {bits : Bits}

/-- The bits are tokens that stand for the bytes of `input` from index `c` up to `n`: a LIT for the byte at its place,
a MATCH for bytes that repeat those `off` before (30_encoding.md R112, R113). -/
inductive StandsFor (lenW ow : Nat) (input : Nat → Option Byte) (n : Nat) : Nat → Bits → Prop where
  | done : StandsFor lenW ow input n n []
  | lit {c : Nat} {b : Byte} {bits : Bits} :
    input c = some b → StandsFor lenW ow input n (c + 1) bits →
      StandsFor lenW ow input n c (encodeLit b ++ bits)
  | copy {c off len : Nat} {bits : Bits} :
    (Instr.matchTok off len 0).wf lenW ow = true → off ≠ 0 → off ≤ c →
      (∀ k < len, input (c + k) = input (c - off + k)) → StandsFor lenW ow input n (c + len) bits →
      StandsFor lenW ow input n c (encodeMatch ow off len 0 ++ bits)

theorem StandsFor.le (h : StandsFor lenW ow input n c bits) : c ≤ n := by
  induction h with
  | done => exact le_rfl
  | lit _ _ ih => omega
  | copy _ _ _ _ _ ih => omega

/-- Bytes that repeat those `off` before repeat the last `off` bytes before them (44_decoder.md R238). -/
theorem eq_of_repeats {off len : Nat} (hoff : off ≠ 0) (hsrc : off ≤ c)
    (hrep : ∀ k < len, input (c + k) = input (c - off + k)) {k : Nat} (hk : k < len) :
    input (c + k) = input (c - off + k % off) := by
  induction k using Nat.strong_induction_on with
  | _ k ih =>
    rw [hrep k hk]
    rcases lt_or_ge k off with hlt | hge
    · rw [Nat.mod_eq_of_lt hlt]
    · rw [Nat.mod_eq_sub_mod hge, ← ih (k - off) (by omega) (by omega)]
      congr 1
      omega

end StandsFor

/-! ### ENCODE writes a stream of its input -/

theorem get_inb_of_isSome {i : Nat} (h : (Memory.get s.inb i).isSome = true) :
    Memory.get s.inb i = some (inByte s i) := by
  obtain ⟨b, hb⟩ := Option.isSome_iff_exists.1 h
  rw [hb, inByte_of_get hb]

/-- The offset and the length of a MATCH that the encoder takes fit their fields, the source lies before the cursor,
and the bytes end with the input at the latest (40_matcher.md R145). -/
theorem Inv.takesMatch_ranges (h : Inv s) (hf : s.dp.fsm = .eToken) (hm : TakesMatch s) :
    (Instr.matchTok (findMatch s).2.1 (findMatch s).2.2 0).wf s.par.lenW s.dp.cow.toNat = true ∧
    (findMatch s).2.1 ≠ 0 ∧ (findMatch s).2.1 ≤ s.dp.cur.toNat ∧
    s.dp.cur.toNat + (findMatch s).2.2 ≤ s.dp.cn.toNat := by
  obtain ⟨hvalid, hlen⟩ := hm
  obtain ⟨hoff, hcur, -, hfield, -, -, hcla, hinput, -⟩ := (matcherResultRanges s h hf).1 hvalid
  obtain ⟨-, -, -, hla, -, -⟩ := h.snapshot (by simp [hf])
  obtain ⟨hle, -⟩ := h.encoder hf
  have hmax := Params.laMax_lt h.build
  have hpow := Nat.two_pow_pos s.dp.cow.toNat
  exact ⟨Instr.wf_matchTok_iff.2 ⟨by omega, ⟨by omega, by omega, .inl rfl⟩, by omega⟩, by omega, hcur, by omega⟩

/-- The matcher's result repeats bytes of the input (40_matcher.md R142). -/
theorem Inv.takesMatch_repeats (h : Inv s) (hf : s.dp.fsm = .eToken) (hm : TakesMatch s)
    (hin : Filled s.dp.cn.toNat s.inb) {k : Nat} (hk : k < (findMatch s).2.2) :
    Memory.get s.inb (s.dp.cur.toNat + k) = Memory.get s.inb (s.dp.cur.toNat - (findMatch s).2.1 + k) := by
  obtain ⟨-, -, -, hend⟩ := h.takesMatch_ranges hf hm
  obtain ⟨-, hocc, -⟩ := (matcherFindsLongestNearest s).1 hm.1
  obtain ⟨-, -, -, -, hbytes, -⟩ := (occurs_iff _ _ _).1 hocc
  rw [get_inb_of_isSome (hin _ (by omega)), get_inb_of_isSome (hin _ (by omega)), hbytes k hk]

/-- The next token stands for the bytes at the cursor. -/
theorem Inv.standsFor_nextToken (h : Inv s) (hf : s.dp.fsm = .eToken) (hlt : s.dp.cur.toNat < s.dp.cn.toNat)
    (hin : Filled s.dp.cn.toNat s.inb) {bits : Bits}
    (hrest : StandsFor s.par.lenW s.dp.cow.toNat (Memory.get s.inb) s.dp.cn.toNat
      (s.dp.cur.toNat + bytesTaken s) bits) :
    StandsFor s.par.lenW s.dp.cow.toNat (Memory.get s.inb) s.dp.cn.toNat s.dp.cur.toNat (nextToken s ++ bits) := by
  unfold bytesTaken at hrest
  unfold nextToken
  split_ifs at hrest ⊢ with hm
  · obtain ⟨hwf, hoff, hsrc, -⟩ := h.takesMatch_ranges hf hm
    exact .copy hwf hoff hsrc (fun _ hk => h.takesMatch_repeats hf hm hin hk) hrest
  · exact .lit (get_inb_of_isSome (hin _ hlt)) hrest

/-- The next token covers input that is there, at no more bits than R209 allows. -/
theorem Inv.nextToken_bounds (h : Inv s) (hf : s.dp.fsm = .eToken) (hlt : s.dp.cur.toNat < s.dp.cn.toNat) :
    1 ≤ bytesTaken s ∧ s.dp.cur.toNat + bytesTaken s ≤ s.dp.cn.toNat ∧
      (nextToken s).length ≤ bytesTaken s * bitsPerByte s.dp.cow.toNat := by
  unfold bytesTaken nextToken
  split_ifs with hm
  · obtain ⟨-, -, -, hend⟩ := h.takesMatch_ranges hf hm
    exact ⟨by omega, hend, length_encodeMatch_le _ _ hm.2⟩
  · refine ⟨le_rfl, hlt, ?_⟩
    rw [length_encodeLit, Nat.one_mul]
    exact nine_le_bitsPerByte _

/-- `s` after the token that the encoder emits next. -/
def afterToken (s : State) : State := tick (emitted (nextToken s) (bytesTaken s) s)

theorem Inv.step_eq_afterToken (h : Inv s) (hf : s.dp.fsm = .eToken) (hq : s.hostQ = []) (hc : s.dp.cur ≠ s.dp.cn) :
    step s = .next (afterToken s) :=
  (h.step_of_hostQ_nil hq).trans ((coreStep_of_eToken hf).trans (h.encoderStep_eq_nextToken hf hc))

theorem Inv.toNat_afterToken_cur (h : Inv s) (hf : s.dp.fsm = .eToken) (hlt : s.dp.cur.toNat < s.dp.cn.toNat) :
    (afterToken s).dp.cur.toNat = s.dp.cur.toNat + bytesTaken s := by
  obtain ⟨-, hend, -⟩ := h.nextToken_bounds hf hlt
  exact toNat_add_ofNat s.dp.cur (hend.trans_lt s.dp.cn.isLt)

theorem Inv.toNat_afterToken_wptr (h : Inv s) (hf : s.dp.fsm = .eToken) (hlt : s.dp.cur.toNat < s.dp.cn.toNat) :
    (afterToken s).dp.wptr.toNat = s.dp.wptr.toNat + (nextToken s).length := by
  obtain ⟨-, hend, hcost⟩ := h.nextToken_bounds hf hlt
  exact toNat_add_ofNat s.dp.wptr ((h.wptr_add_length_le hf hend hcost).trans_lt (Params.bsCap_lt h.build))

theorem EncodeFrame.trans {u : State} (h₁ : EncodeFrame s t) (h₂ : EncodeFrame t u) : EncodeFrame s u := by
  obtain ⟨_, _, _, _, _, rfl⟩ := h₁
  obtain ⟨_, _, _, _, _, rfl⟩ := h₂
  exact ⟨_, _, _, _, _, rfl⟩

theorem EncodeFrame.config (h : EncodeFrame s t) :
    t.par = s.par ∧ t.hostQ = s.hostQ ∧ t.reg.windowSize = s.reg.windowSize := by
  obtain ⟨_, _, _, _, _, rfl⟩ := h
  exact ⟨rfl, rfl, rfl⟩

/-- ENCODE went on from `s` to its end in `t` and wrote `bits` behind the stream so far. -/
structure EncodedTo (s t : State) (bits : Bits) : Prop where
  legal : Inv t
  success : Succeeded t
  frame : EncodeFrame s t
  stands : StandsFor s.par.lenW s.dp.cow.toNat (Memory.get s.inb) s.dp.cn.toNat s.dp.cur.toNat bits
  length : t.reg.bsLen.toNat = s.dp.wptr.toNat + bits.length
  fits : t.reg.bsLen.toNat ≤ t.par.bsCap
  held : Holds t.bs s.dp.wptr.toNat bits
  kept : ∀ i < s.dp.wptr.toNat, Memory.get t.bs i = Memory.get s.bs i

theorem Inv.encodedTo_encodeExit (h : Inv s) (hf : s.dp.fsm = .eToken) (hc : s.dp.cur = s.dp.cn) :
    EncodedTo s (Machine.encodeExit s) [] := by
  obtain ⟨hcur, -, hwptr, -⟩ := h.encoder hf
  refine ⟨h.encodeExit hf, ⟨rfl, rfl⟩, ⟨_, _, _, _, _, rfl⟩, hc ▸ .done, rfl,
    hwptr.trans (h.mul_bitsPerByte_le hf hcur), holds_nil _ _, fun i hi => ?_⟩
  rw [encodeExit_bs, get_setMany_padding, if_neg (by omega)]

/-- What ENCODE wrote behind its next token is what it writes from here behind that token. -/
theorem Inv.encodedTo_nextToken (h : Inv s) (hf : s.dp.fsm = .eToken) (hlt : s.dp.cur.toNat < s.dp.cn.toNat)
    (hin : Filled s.dp.cn.toNat s.inb) {bits : Bits}
    (ht : EncodedTo (afterToken s) t bits) : EncodedTo s t (nextToken s ++ bits) := by
  obtain ⟨hlegal, hsuccess, hframe, hstands, hlength, hfits, hheld, hkept⟩ := ht
  rw [h.toNat_afterToken_cur hf hlt] at hstands
  rw [h.toNat_afterToken_wptr hf hlt] at hlength hheld hkept
  refine ⟨hlegal, hsuccess, .trans ⟨_, _, _, _, _, rfl⟩ hframe, h.standsFor_nextToken hf hlt hin hstands, ?_, hfits,
    holds_append_iff.2 ⟨(holds_setMany s.bs _ _).congr hkept, hheld⟩, fun i hi => ?_⟩
  · rw [hlength, List.length_append, Nat.add_assoc]
  · refine (hkept i (by omega)).trans ((Memory.get_setMany _ s.bs _ i).trans (if_neg ?_))
    omega

/-- The run of ENCODE, by induction on the bytes still to encode (43_encoder.md R208). -/
theorem Inv.encode_run_encodedTo (h : Inv s) (hf : s.dp.fsm = .eToken) (hq : s.hostQ = [])
    (hin : Filled s.dp.cn.toNat s.inb) :
    ∃ j t bits, Host.Core.run Sys2Proof.core j s = .next t ∧ EncodedTo s t bits := by
  induction hleft : s.dp.cn.toNat - s.dp.cur.toNat using Nat.strong_induction_on generalizing s with
  | _ left ih =>
    by_cases hc : s.dp.cur = s.dp.cn
    · have hstep := (h.step_of_hostQ_nil hq).trans (coreStep_of_encodeEnd hf hc)
      exact ⟨1, _, [], run_succ_of_step hstep 0, h.encodedTo_encodeExit hf hc⟩
    · have hstep := h.step_eq_afterToken hf hq hc
      obtain ⟨hcur, -⟩ := h.encoder hf
      have hlt : s.dp.cur.toNat < s.dp.cn.toNat := lt_of_le_of_ne hcur fun he => hc (BitVec.eq_of_toNat_eq he)
      obtain ⟨hpos, hend, -⟩ := h.nextToken_bounds hf hlt
      obtain ⟨j, t, bits, hrun, ht⟩ := ih _ (by omega) (stepKeepsLegalStates s _ h hstep) hf hq hin
        (congrArg (s.dp.cn.toNat - ·) (h.toNat_afterToken_cur hf hlt))
      exact ⟨j + 1, t, _, (run_succ_of_step hstep j).trans hrun, h.encodedTo_nextToken hf hlt hin ht⟩

/-! ### DECODE of a stream gives what it stands for -/

section Decode

variable {p : Params} {ow : Nat} {input : Nat → Option Byte} {bits : Bits}

/-- DECODE is before a token of a stream of which `bits` are left to read, and its output is `input` so far. -/
structure Decoding (p : Params) (ow : Nat) (input : Nat → Option Byte) (bits : Bits) (s : State) : Prop where
  legal : Inv s
  token : s.dp.fsm = .dToken
  quiet : s.hostQ = []
  build : s.par = p
  width : s.dp.cow.toNat = ow
  held : Holds s.bs s.dp.rptr.toNat bits
  left : s.dp.cn.toNat = s.dp.rptr.toNat + bits.length
  output : ∀ i < s.dp.olen.toNat, Memory.get s.outb i = input i

theorem Decoding.step_of_nil (h : Decoding p ow input [] s) : step s = .next (decodeExit s) := by
  have hr : s.dp.rptr = s.dp.cn := BitVec.eq_of_toNat_eq h.left.symm
  rw [h.legal.step_of_hostQ_nil h.quiet, coreStep_of_dToken h.token, tokenStep_of_end hr]

/-- The token at the head of the stream is executed (44_decoder.md R233). -/
theorem Decoding.step_of_token {tok : Bits} {i : Instr} (h : Decoding p ow input (tok ++ bits) s)
    (hwf : i.wf p.lenW ow = true) (henc : encode ow i = .tokenBits tok) (hne : 0 < tok.length) :
    step s = exec i (tick s) := by
  have hgo : ¬(atEnd s = true) := by
    have hleft := h.left
    rw [List.length_append] at hleft
    rw [atEnd, decide_eq_true_eq]
    intro hr
    rw [hr] at hleft
    omega
  have hfetch : fetchToken s = .ok i tok.length bits := by
    rw [fetchToken, h.build, h.width, streamBits_of_holds h.held h.left, decodeToken_append hwf henc]
  rw [h.legal.step_of_hostQ_nil h.quiet, coreStep_of_dToken h.token, tokenStep, if_neg hgo, hfetch]

/-- The pointer behind a token of the stream, and what is left to read behind it. -/
theorem Decoding.behind {tok : Bits} (h : Decoding p ow input (tok ++ bits) s) :
    (s.dp.rptr + BitVec.ofNat 32 tok.length).toNat = s.dp.rptr.toNat + tok.length ∧
    Holds s.bs (s.dp.rptr.toNat + tok.length) bits ∧
    s.dp.cn.toNat = s.dp.rptr.toNat + tok.length + bits.length := by
  obtain ⟨-, hheld⟩ := holds_append_iff.1 h.held
  have hleft := h.left
  rw [List.length_append, ← Nat.add_assoc] at hleft
  have := s.dp.cn.isLt
  exact ⟨toNat_add_ofNat s.dp.rptr (by omega), hheld, hleft⟩

theorem Decoding.lit {b : Byte} (h : Decoding p ow input (encodeLit b ++ bits) s)
    (hroom : s.dp.olen.toNat < p.outCap) (hb : input s.dp.olen.toNat = some b) :
    ∃ t, step s = .next t ∧ Decoding p ow input bits t ∧ t.dp.olen.toNat = s.dp.olen.toNat + 1 := by
  obtain ⟨hrptr, hheld, hleft⟩ := h.behind
  rw [← hrptr] at hheld hleft
  rw [length_encodeLit] at hrptr hheld hleft
  rw [← h.build] at hroom
  have hol := toNat_olen_succ h.legal.build hroom
  have hbits : s.dp.rptr.toNat + 9 ≤ s.dp.cn.toNat := by omega
  have hstep := (h.step_of_token rfl rfl (by simp [encodeLit])).trans
    (exec_lit_of_room (s := tick s) b hbits hroom)
  have houtput (i : Nat) (hi : i < (s.dp.olen + 1).toNat) :
      Memory.get (Memory.set s.outb s.dp.olen.toNat b) i = input i := by
    rw [Memory.get_set]
    split_ifs with heq
    · rw [heq, hb]
    · exact h.output i (by omega)
  exact ⟨_, hstep, ⟨stepKeepsLegalStates s _ h.legal hstep, h.token, h.quiet, h.build, h.width, hheld, hleft, houtput⟩,
    hol⟩

/-- A MATCH that the input bears out begins its copy. -/
theorem Decoding.step_beginCopy {off len : Nat} (h : Decoding p ow input (encodeMatch ow off len 0 ++ bits) s)
    (hwf : (Instr.matchTok off len 0).wf p.lenW ow = true) (hoff : off ≠ 0) (hsrc : off ≤ s.dp.olen.toNat)
    (hroom : s.dp.olen.toNat + len ≤ p.outCap) :
    step s = .next (beginCopy off len (advance (encodeMatch ow off len 0).length (markToken (tick s)))) := by
  obtain ⟨-, -, hlen⟩ := Instr.wf_matchTok_iff.1 hwf
  obtain ⟨-, -, hleft⟩ := h.behind
  rw [← h.build] at hlen hroom
  have htok : matchBits (tick s) len 0 = (encodeMatch ow off len 0).length := by
    rw [matchBits_of_lt (s := tick s) 0 hlen, length_encodeMatch_eq, ← h.width, tick_dp]
  have hbits : s.dp.rptr.toNat + matchBits (tick s) len 0 ≤ s.dp.cn.toNat := by omega
  rw [h.step_of_token hwf rfl (by simp [encodeMatch]),
    exec_matchTok_of_room (s := tick s) hbits hlen hoff hsrc hroom, htok]

/-- A copy behind output that is the input so far gives the bytes of an input that repeats. -/
theorem RepeatsPeriod.get_eq {off len : Nat} {m : List Host.Cell} (h : RepeatsPeriod len s m)
    (hcoff : s.dp.coff.toNat = off) (hoff : off ≠ 0) (hsrc : off ≤ s.dp.olen.toNat)
    (hout : ∀ i < s.dp.olen.toNat, Memory.get s.outb i = input i)
    (hrep : ∀ k < len, input (s.dp.olen.toNat + k) = input (s.dp.olen.toNat - off + k)) {i : Nat}
    (hi : i < s.dp.olen.toNat + len) : Memory.get m i = input i := by
  obtain ⟨hnew, hold⟩ := h
  rcases lt_or_ge i s.dp.olen.toNat with hlt | hge
  · rw [hold i hlt, hout i hlt]
  · obtain ⟨k, rfl⟩ := Nat.exists_eq_add_of_le hge
    have hk : k < len := by omega
    have hmod := Nat.mod_lt k (Nat.pos_of_ne_zero hoff)
    rw [hnew k hk, hcoff, hout _ (by omega), eq_of_repeats hoff hsrc hrep hk]

theorem Decoding.copy {off len : Nat} (h : Decoding p ow input (encodeMatch ow off len 0 ++ bits) s)
    (hwf : (Instr.matchTok off len 0).wf p.lenW ow = true) (hoff : off ≠ 0) (hsrc : off ≤ s.dp.olen.toNat)
    (hroom : s.dp.olen.toNat + len ≤ p.outCap)
    (hrep : ∀ k < len, input (s.dp.olen.toNat + k) = input (s.dp.olen.toNat - off + k)) :
    ∃ k t, Host.Core.run Sys2Proof.core k s = .next t ∧ Decoding p ow input bits t ∧
      t.dp.olen.toNat = s.dp.olen.toNat + len := by
  obtain ⟨hrptr, hheld, hleft⟩ := h.behind
  rw [← hrptr] at hheld hleft
  have hbegin := h.step_beginCopy hwf hoff hsrc hroom
  obtain ⟨-, -, hlen⟩ := Instr.wf_matchTok_iff.1 hwf
  rw [← h.build] at hlen hroom
  have hlenW := Params.lenW_le h.legal.build
  have hcap := Params.outCap_lt h.legal.build
  have hcrem : (lenField s.par len).toNat = len := toNat_lenField s.par (by omega) hlen
  have hcoff : (BitVec.ofNat 32 off).toNat = off := Nat.mod_eq_of_lt (by omega)
  have hol : (s.dp.olen + lenField s.par len).toNat = s.dp.olen.toNat + len := by
    rw [BitVec.toNat_add_of_lt (by omega), hcrem]
  obtain ⟨m, d, hcopy, hperiod⟩ := (stepKeepsLegalStates s _ h.legal hbegin).copy_run rfl h.quiet
  have hrun := (run_succ_of_step hbegin _).trans hcopy
  have houtput (i : Nat) (hi : i < (s.dp.olen + lenField s.par len).toNat) : Memory.get m i = input i :=
    hperiod.get_eq hcoff hoff hsrc h.output (fun k hk => hrep k (hk.trans_eq hcrem)) (by rwa [hol, ← hcrem] at hi)
  exact ⟨_, _, hrun, ⟨h.legal.of_run hrun, rfl, h.quiet, h.build, h.width, hheld, hleft, houtput⟩, hol⟩

/-- DECODE of a stream of an input that fits OUT ends with the input as its output, by induction on the tokens. -/
theorem Decoding.run {n c : Nat} (h : Decoding p ow input bits s)
    (hstands : StandsFor p.lenW ow input n c bits) (hc : s.dp.olen.toNat = c) (hn : n ≤ p.outCap) :
    ∃ k t, Host.Core.run Sys2Proof.core k s = .next t ∧ Succeeded t ∧ t.reg.outLen.toNat = n ∧
      ∀ i < n, Memory.get t.outb i = input i := by
  induction hstands generalizing s with
  | done =>
    subst hc
    exact ⟨1, _, run_succ_of_step h.step_of_nil 0, ⟨rfl, rfl⟩, rfl, h.output⟩
  | lit hb hrest ih =>
    subst hc
    have := hrest.le
    obtain ⟨u, hstep, hu, hol⟩ := h.lit (by omega) hb
    obtain ⟨k, t, hrun, ht⟩ := ih hu hol
    exact ⟨k + 1, t, (run_succ_of_step hstep k).trans hrun, ht⟩
  | copy hwf hoff hsrc hrep hrest ih =>
    subst hc
    have := hrest.le
    obtain ⟨j, u, hcopy, hu, hol⟩ := h.copy hwf hoff hsrc (by omega) hrep
    obtain ⟨k, t, hrun, ht⟩ := ih hu hol
    exact ⟨j + k, t, (run_add_of_run hcopy k).trans hrun, ht⟩

end Decode

/-- DECODE of a stream that stands for an input that fits OUT, from its start to its end. -/
theorem Inv.decode_of_stream (h : Inv s) (hf : s.dp.fsm = .idle) (hq : s.hostQ = []) (hc : configLegal s = true)
    {bits : Bits} {input : Nat → Option Byte} {n : Nat} (hlen : s.reg.bsLen.toNat = bits.length)
    (hcap : s.reg.bsLen.toNat ≤ s.par.bsCap) (hheld : Holds s.bs 0 bits)
    (hstands : StandsFor s.par.lenW (offsetWidth s.reg.windowSize.toNat) input n 0 bits) (hn : n ≤ s.par.outCap) :
    ∃ u k t, exec .decode s = .next u ∧ Host.Core.run Sys2Proof.core k u = .next t ∧ Succeeded t ∧
      t.reg.outLen.toNat = n ∧ ∀ i < n, Memory.get t.outb i = input i := by
  have hstart := exec_decode_of_legal hf hc hcap
  have hbegin : Decoding s.par (offsetWidth s.reg.windowSize.toNat) input bits
      (startDecode (Machine.snapshot s.reg.bsLen (Machine.clearOutLen (Machine.beginCommand s)))) :=
    ⟨h.execDecode hstart, rfl, hq, rfl, toNat_cow _, hheld, hlen.trans (Nat.zero_add _).symm, nofun⟩
  obtain ⟨k, t, hrun, ht⟩ := hbegin.run hstands rfl hn
  exact ⟨_, k, t, hstart, hrun, ht⟩

/-- Settles O53: ENCODE ends with a stream that stands for the input, and DECODE of it gives the input back. -/
theorem decodeOfEncodeIsIdentity : Obligations.DecodeOfEncodeIsIdentity := by
  intro s h hf hq hw₁ hw₂ hla₁ hla₂ hn hout hin
  have hstart := exec_encode_of_legal hf ((configLegal_iff s).2 ⟨hw₁, hw₂, hla₁, hla₂⟩) hn
  obtain ⟨j, u, bits, hencode, hu⟩ := (h.execEncode hstart).encode_run_encodedTo rfl hq hin
  refine ⟨_, j, u, hstart, hencode, hu.success, fun la hla₁' hla₂' => ?_⟩
  obtain ⟨hidle, -⟩ := hu.success
  obtain ⟨hpar, hhost, hwindow⟩ := hu.frame.config
  have hconfig : configLegal { u with reg := { u.reg with lookaheadCap := la } } = true := by
    rw [configLegal_iff, hpar, hwindow]
    exact ⟨hw₁, hw₂, hla₁', hla₂'⟩
  have hstands : StandsFor u.par.lenW (offsetWidth u.reg.windowSize.toNat) (Memory.get s.inb) s.reg.inLen.toNat 0
      bits := by
    rw [hpar, hwindow, ← toNat_cow]
    exact hu.stands
  obtain ⟨v, k, t, hdecode, hrun, hsuccess, hlen, hbytes⟩ :=
    (hu.legal.withReg { u.reg with lookaheadCap := la } rfl rfl).decode_of_stream hidle (hhost.trans hq) hconfig
      (hu.length.trans (Nat.zero_add _)) hu.fits hu.held hstands (hout.trans_eq (congrArg _ hpar.symm))
  exact ⟨v, k, t, hdecode, hrun, hsuccess, BitVec.eq_of_toNat_eq hlen, hbytes⟩

end Sys2Proof.Machine
end

section
/-! PROOFS of 45_host_interface.md sections 1 and 2: the commands (R260, R261, R264) and the register map (R266,
R267). -/

namespace Sys2Proof.Machine

variable {s : State}

/-! ### Commands -/

/-- Settles O3: NOP answers the state it runs in. -/
theorem nopChangesNothing : Obligations.NopChangesNothing := fun _ => rfl

theorem exec_encode_of_busy (hf : s.dp.fsm ≠ .idle) : exec .encode s = .next s := if_pos hf

theorem exec_decode_of_busy (hf : s.dp.fsm ≠ .idle) : exec .decode s = .next s := if_pos hf

theorem exec_reservedCmd_of_busy (hf : s.dp.fsm ≠ .idle) (op : BitVec 4) : exec (.reservedCmd op) s = .next s :=
  if_pos hf

theorem exec_reservedCmd_of_idle (hf : s.dp.fsm = .idle) (op : BitVec 4) :
    exec (.reservedCmd op) s = .next (raiseError .reservedStart .illegalCommand (beginCommand s)) :=
  if_neg (not_not_intro hf)

/-- Settles O7: the error exit leaves an IDLE core's datapath as it is. -/
theorem reservedCommandIsIllegal : Obligations.ReservedCommandIsIllegal := by
  intro s op hf _
  have hdp : { s.dp with fsm := .idle } = s.dp := by rw [← hf]
  rw [exec_reservedCmd_of_idle hf, raiseError, beginCommand_dp, hdp]
  rfl

/-- A write to REG offset 0 is the command of its word (45_host_interface.md R260). -/
theorem exec_regWrite_zero (v : Word) (s : State) : exec (.regWrite 0x00 v) s = exec (decodeCmd v) s :=
  (exec_decodeCmd v s).symm

/-- A command keeps the state while another runs (45_host_interface.md R265). -/
theorem exec_decodeCmd_of_busy (hf : s.dp.fsm ≠ .idle) (v : Word) : exec (decodeCmd v) s = .next s := by
  rw [decodeCmd_eq]
  split_ifs
  · rfl
  · exact exec_encode_of_busy hf
  · exact exec_decode_of_busy hf
  · exact exec_reservedCmd_of_busy hf _

/-- Settles O8: by the OPCODE of the word, while the core is busy and while it is IDLE. -/
theorem commandWriteDispatch : Obligations.CommandWriteDispatch := by
  intro s v
  rw [exec_regWrite_zero]
  refine ⟨fun hf => ⟨exec_decodeCmd_of_busy hf v, rfl, exec_encode_of_busy hf, exec_decode_of_busy hf,
    exec_reservedCmd_of_busy hf⟩, fun _ => ?_⟩
  have hexec {i : Instr} (hi : decode s.par.lenW 0 (.cmdWord v) = .ok i) : exec (decodeCmd v) s = exec i s :=
    congrArg (exec · s) (Except.ok.inj hi)
  obtain ⟨hnop, hencode, hdecode, hreserved⟩ := commandWordFields s.par.lenW 0 v
  exact ⟨fun h => hexec (hnop h), fun h => hexec (hencode h), fun h => hexec (hdecode h), fun h => hexec (hreserved h)⟩

/-! ### Registers -/

theorem exec_regRead_of_aligned {a : BitVec 8} (h : a.toNat % 4 = 0) :
    exec (.regRead a) s = .next (hostReturns (regValue s a) s) :=
  if_neg (not_not_intro h)

/-- The offsets from 0x40 on are reserved and read 0 (10_state.md R54). -/
theorem regValue_of_reserved {a : BitVec 8} (h : 0x40 ≤ a.toNat) : regValue s a = 0 := by
  have hne {k : BitVec 8} (hk : k.toNat < 0x40) : a ≠ k := by
    rintro rfl
    omega
  simp [regValue, hne]

theorem statusWord_eq (st : Status) : statusWord st =
    BitVec.ofNat 32 (st.busy.toNat + st.done.toNat * 2 + st.err.toNat * 4 + st.errCode.toNat * 256) := by
  rw [statusWord, Nat.mul_comm 2, Nat.mul_comm 4, Nat.mul_comm 256]

theorem featuresWord_of_window {p : Params} (h : p.scope = .window) :
    featuresWord p = BitVec.ofNat 32 (p.lenW * 256) := by
  rw [featuresWord, h, if_neg nofun, Nat.zero_add, Nat.mul_comm]

theorem featuresWord_of_overlap {p : Params} (h : p.scope = .overlap) :
    featuresWord p = BitVec.ofNat 32 (p.lenW * 256 + 1) := by
  rw [featuresWord, h, if_pos rfl, Nat.add_comm, Nat.mul_comm]

/-- Settles O38: each aligned offset returns its register's value. -/
theorem registerReadMap : Obligations.RegisterReadMap := by
  intro s
  have reads {a : BitVec 8} {v : Word} (ha : a.toNat % 4 = 0) (hv : regValue s a = v) :
      exec (.regRead a) s = .next { s with rdata := v } := by
    rw [exec_regRead_of_aligned ha, hv]
    rfl
  exact ⟨reads rfl rfl, reads rfl (statusWord_eq _), reads rfl rfl, reads rfl rfl,
    fun hw => reads rfl (if_pos hw), fun hw => reads rfl (if_neg hw), reads rfl rfl, reads rfl rfl, reads rfl rfl,
    reads rfl rfl, reads rfl rfl, reads rfl rfl, reads rfl rfl, reads rfl rfl, reads rfl rfl, reads rfl rfl,
    fun hs => reads rfl (featuresWord_of_window hs), fun hs => reads rfl (featuresWord_of_overlap hs),
    fun a ha hr => reads ha (regValue_of_reserved hr)⟩

theorem exec_regWrite_of_aligned {a : BitVec 8} (h : a.toNat % 4 = 0) (h0 : a ≠ 0x00) (v : Word) :
    exec (.regWrite a v) s = .next { s with reg := regStore s.reg a v } :=
  (if_neg (not_not_intro h)).trans (if_neg h0)

/-- An offset of no read-write register ignores a write (10_state.md R53, R54). -/
theorem regStore_of_readOnly (r : Regs) {a : BitVec 8} (v : Word) (h₁ : a ≠ 0x08) (h₂ : a ≠ 0x0C) (h₃ : a ≠ 0x14)
    (h₄ : a ≠ 0x18) : regStore r a v = r := by
  rw [regStore, if_neg h₁, if_neg h₂, if_neg h₃, if_neg h₄]

/-- Settles O39: each aligned offset by the register it stores into, if it stores into one. -/
theorem registerWriteMap : Obligations.RegisterWriteMap := by
  intro s v
  refine ⟨rfl, rfl, rfl, rfl, fun i hi => ?_, fun a ha h₀ h₁ h₂ h₃ h₄ => ?_⟩
  · cases hi
    exact exec_regWrite_zero v s
  · rw [exec_regWrite_of_aligned ha h₀, regStore_of_readOnly _ _ h₁ h₂ h₃ h₄]

end Sys2Proof.Machine
end

section
/-! PROOFS of 45_host_interface.md section 3: the host's accesses to the bytes of IN, BS and OUT (R268 to R273). -/

namespace Sys2Proof

/-- Bit `k` of a sequence, in stream order, is bit `|xs| − 1 − k` of its value (20_memory.md R82). -/
theorem getElem?_eq_testBit_val {xs : Bits} {k : Nat} (hk : k < xs.length) :
    xs[k]? = some ((val xs).testBit (xs.length - 1 - k)) := by
  have h := getElem?_bin (val xs) xs.length k hk
  rwa [bin_val] at h

end Sys2Proof

namespace Sys2Proof.Machine

variable {s : State} {i : Nat}

/-! ### IN -/

theorem exec_inRead_of_lt (h : i < s.par.inCap) :
    exec (.inRead i) s = .next (hostReturns ((inByte s i).setWidth 32) (tick s)) :=
  if_neg (not_le.2 h)

theorem exec_inRead_of_le (h : s.par.inCap ≤ i) : exec (.inRead i) s = .next (hostReturns 0 s) := if_pos h

theorem exec_inWrite_of_encoding (h : i < s.par.inCap) (hf : s.dp.fsm = .eToken) (b : Byte) :
    exec (.inWrite i b) s = .refused .inWriteWhileEncode :=
  (if_neg (not_le.2 h)).trans (if_pos hf)

theorem exec_inWrite_of_not_encoding (h : i < s.par.inCap) (hf : s.dp.fsm ≠ .eToken) (b : Byte) :
    exec (.inWrite i b) s = .next { s with inb := Memory.set s.inb i b } :=
  (if_neg (not_le.2 h)).trans (if_neg hf)

theorem exec_inWrite_of_le (h : s.par.inCap ≤ i) (b : Byte) : exec (.inWrite i b) s = .next s := if_pos h

/-- Settles O41: the read, and the write by whether ENCODE runs. -/
theorem inByteAccess : Obligations.InByteAccess :=
  fun s i b h => ⟨⟨inByte s i, fun _ hx => inByte_of_get hx, exec_inRead_of_lt h⟩,
    fun hf => ⟨_, exec_inWrite_of_not_encoding h hf b, fun k => Memory.get_set s.inb i k b⟩,
    fun hf => exec_inWrite_of_encoding h hf b⟩

/-! ### BS -/

theorem exec_bsReadByte_of_encoding (hf : s.dp.fsm = .eToken) (h : i < s.par.bsCap / 8) :
    exec (.bsReadByte i) s = .next (hostReturns ((Config.freeHostRead s.draws i).setWidth 32) (tick s)) :=
  (if_neg (not_le.2 h)).trans (if_pos hf)

theorem exec_bsReadByte_of_le (h : s.par.bsCap / 8 ≤ i) : exec (.bsReadByte i) s = .next (hostReturns 0 s) := if_pos h

theorem exec_bsWriteByte_of_busy (h : i < s.par.bsCap / 8) (hf : s.dp.fsm ≠ .idle) (b : Byte) :
    exec (.bsWriteByte i b) s = .refused .bsWriteWhileBusy :=
  (if_neg (not_le.2 h)).trans (if_pos hf)

theorem exec_bsWriteByte_of_le (h : s.par.bsCap / 8 ≤ i) (b : Byte) : exec (.bsWriteByte i b) s = .next s := if_pos h

theorem length_bsByteBits (s : State) (j : Nat) : (bsByteBits s j).length = 8 := by simp [bsByteBits]

/-- The first bit of a byte view is its most significant (20_memory.md R84). -/
theorem getLsbD_bsByte (s : State) (j : Nat) {k : Nat} (hk : k < 8) :
    (bsByte s j).getLsbD (7 - k) = bsBit s (8 * j + k) := by
  have hbit := getElem?_eq_testBit_val (hk.trans_eq (length_bsByteBits s j).symm)
  have hget : (bsByteBits s j)[k]? = some (bsBit s (8 * j + k)) := by simp [bsByteBits, hk]
  rw [hget, length_bsByteBits] at hbit
  rw [bsByte, BitVec.getLsbD_ofNat, decide_eq_true (by omega), Bool.true_and]
  exact (Option.some.inj hbit).symm

/-- Settles O42: a free byte while ENCODE runs, else the byte view. -/
theorem bsByteRead : Obligations.BsByteRead := by
  intro s j hj
  by_cases hf : s.dp.fsm = .eToken
  · exact ⟨_, exec_bsReadByte_of_encoding hf hj, absurd hf⟩
  · exact ⟨_, exec_bsReadByte_of_not_encoding hf hj,
      fun _ k hk b hb => (getLsbD_bsByte s j hk).trans (bsBit_of_get hb)⟩

/-- A byte stored in BS is eight consecutive bits, the most significant first (45_host_interface.md R270). -/
theorem get_setMany_bin_byte (m : List (Nat × Bool)) (a i : Nat) (b : Byte) :
    Memory.get (Memory.setMany m a (bin b.toNat 8)) i =
      if a ≤ i ∧ i < a + 8 then some (b.getLsbD (7 - (i - a))) else Memory.get m i := by
  rw [Memory.get_setMany, length_bin]
  split_ifs with hi
  · rw [getElem?_bin _ _ _ (by omega), BitVec.testBit_toNat]
  · rfl

/-- Settles O43: by whether the core is IDLE. -/
theorem bsByteWrite : Obligations.BsByteWrite :=
  fun s j b hj => ⟨fun hf => ⟨_, exec_bsWriteByte_of_idle hf hj b, fun i => get_setMany_bin_byte s.bs (8 * j) i b⟩,
    fun hf => exec_bsWriteByte_of_busy hj hf b⟩

/-! ### OUT -/

theorem decoding_eq_true_iff (s : State) : decoding s = true ↔ s.dp.fsm = .dToken ∨ s.dp.fsm = .dCopy := by
  simp only [decoding, Bool.or_eq_true, decide_eq_true_eq]

theorem exec_outRead_of_decoding (h : i < s.par.outCap) (hd : decoding s = true) :
    exec (.outRead i) s = .next (hostReturns ((Config.freeHostRead s.draws i).setWidth 32) (tick s)) :=
  (if_neg (not_le.2 h)).trans (if_pos hd)

theorem exec_outRead_of_not_decoding (h : i < s.par.outCap) (hd : ¬decoding s = true) :
    exec (.outRead i) s = .next (hostReturns ((outByte s i).setWidth 32) (tick s)) :=
  (if_neg (not_le.2 h)).trans (if_neg hd)

theorem exec_outRead_of_le (h : s.par.outCap ≤ i) : exec (.outRead i) s = .next (hostReturns 0 s) := if_pos h

theorem exec_outWrite (i : Nat) (b : Byte) (s : State) : exec (.outWrite i b) s = .next s := rfl

/-- Settles O45: a free byte while DECODE runs, else the byte held; a write is ignored. -/
theorem outByteAccess : Obligations.OutByteAccess := by
  intro s i b
  refine ⟨fun hi => ?_, exec_outWrite i b s⟩
  by_cases hd : decoding s = true
  · exact ⟨_, exec_outRead_of_decoding hi hd,
      fun hnt hnc => absurd ((decoding_eq_true_iff s).1 hd) (not_or.2 ⟨hnt, hnc⟩)⟩
  · exact ⟨_, exec_outRead_of_not_decoding hi hd, fun _ _ _ hx => outByte_of_get hx⟩

/-- Settles O46: each access tests its index against the capacity first. -/
theorem outOfRangeIndexHarmless : Obligations.OutOfRangeIndexHarmless :=
  fun s i b => ⟨fun h => ⟨exec_inRead_of_le h, exec_inWrite_of_le h b⟩,
    fun h => ⟨exec_bsReadByte_of_le h, exec_bsWriteByte_of_le h b⟩,
    fun h => ⟨exec_outRead_of_le h, exec_outWrite i b s⟩⟩

end Sys2Proof.Machine
end

section
/-! PROOFS of 45_host_interface.md R277: where `dp.fsm` goes in a core step, in a host step and in a sub-block operation
presented alone, and so in every step. -/

namespace Sys2Proof.Machine

variable {s t : State}

/-! ### Core steps -/

theorem encoderStep_fsm (hc : s.dp.cur ≠ s.dp.cn) (h : encoderStep s = .next t) : t.dp.fsm = s.dp.fsm := by
  obtain ⟨u, rfl, hu⟩ := appendBits_nextToken_of_encoderStep hc h
  obtain ⟨v, hv, hvu⟩ := andThen_eq_next hu
  obtain ⟨_, _, rfl⟩ := appendBits_frame hv
  cases hvu
  rfl

/-- Before the end of the stream a token ends DECODE with an error, is a byte, or begins a copy. -/
theorem tokenStep_fsm (hr : s.dp.rptr ≠ s.dp.cn) (h : tokenStep s = .next t) :
    (t.dp.fsm = .idle ∧ t.reg.status.err = true) ∨ t.dp.fsm = s.dp.fsm ∨ t.dp.fsm = .dCopy := by
  obtain ⟨_, _, h'⟩ | ⟨_, _, _, ⟨_, _, h'⟩ | ⟨_, _, h'⟩⟩ := tokenStep_cases hr
  all_goals cases h'.symm.trans h
  · exact .inl ⟨rfl, rfl⟩
  · exact .inr (.inl rfl)
  · exact .inr (.inr rfl)

theorem copyStep_fsm (s : State) :
    (copyStep s).dp.fsm = if (copyStep s).dp.crem = 0 then .dToken else s.dp.fsm := rfl

/-- The rows of R277's table for the core's own steps. -/
theorem coreStep_transitions (h : coreStep s = .next t) :
    (s.dp.fsm = .idle → t.dp.fsm = .idle) ∧
    (s.dp.fsm = .eToken →
      (s.dp.cur = s.dp.cn → t.dp.fsm = .idle) ∧ (s.dp.cur ≠ s.dp.cn → t.dp.fsm = .eToken)) ∧
    (s.dp.fsm = .dToken →
      (t.dp.fsm = .dToken ∨ t.dp.fsm = .dCopy ∨ t.dp.fsm = .idle) ∧
      (s.dp.rptr = s.dp.cn → t.dp.fsm = .idle) ∧
      (t.dp.fsm = .idle → s.dp.rptr = s.dp.cn ∨ t.reg.status.err = true)) ∧
    (s.dp.fsm = .dCopy →
      (t.dp.crem = 0 → t.dp.fsm = .dToken) ∧ (t.dp.crem ≠ 0 → t.dp.fsm = .dCopy)) := by
  refine ⟨fun hf => ?_, fun hf => ⟨fun hc => ?_, fun hc => ?_⟩, fun hf => ?_, fun hf => ?_⟩
  · rw [coreStep, hf] at h
    cases h
    exact hf
  · cases (coreStep_of_encodeEnd hf hc).symm.trans h
    rfl
  · exact (encoderStep_fsm hc ((coreStep_of_eToken hf).symm.trans h)).trans hf
  · have htoken := (coreStep_of_dToken hf).symm.trans h
    by_cases hr : s.dp.rptr = s.dp.cn
    · cases (tokenStep_of_end hr).symm.trans htoken
      exact ⟨.inr (.inr rfl), fun _ => rfl, fun _ => .inl hr⟩
    · obtain ⟨hidle, herr⟩ | hstay | hcopy := tokenStep_fsm hr htoken
      · exact ⟨.inr (.inr hidle), (absurd · hr), fun _ => .inr herr⟩
      · simp [hstay, hf, hr]
      · simp [hcopy, hr]
  · cases (coreStep_of_dCopy hf).symm.trans h
    rw [copyStep_fsm, hf]
    exact ⟨fun hz => if_pos hz, fun hz => if_neg hz⟩

/-! ### Host steps -/

/-- What a host step other than RESET makes of `dp.fsm`: nothing, or the start of a command from IDLE. -/
abbrev HostMoves (s t : State) : Prop :=
  t.dp.fsm = s.dp.fsm ∨ (s.dp.fsm = .idle ∧ (t.dp.fsm = .eToken ∨ t.dp.fsm = .dToken))

/-- An error at the start of a command leaves an IDLE core IDLE. -/
theorem hostMoves_raiseError (hf : s.dp.fsm = .idle) {u : State} (o : Origin) (c : ErrCode) :
    HostMoves s (raiseError o c u) := by
  rw [HostMoves, raiseError_dp]
  exact .inl hf.symm

theorem exec_encode_moves (h : exec .encode s = .next t) : HostMoves s t := by
  rw [exec, execEncode] at h
  split_ifs at h with hf
  all_goals cases h
  · exact .inl rfl
  · exact hostMoves_raiseError (not_not.1 hf) _ _
  · exact hostMoves_raiseError (not_not.1 hf) _ _
  · exact .inr ⟨not_not.1 hf, .inl rfl⟩

theorem exec_decode_moves (h : exec .decode s = .next t) : HostMoves s t := by
  rw [exec, execDecode] at h
  split_ifs at h with hf
  all_goals cases h
  · exact .inl rfl
  · exact hostMoves_raiseError (not_not.1 hf) _ _
  · exact hostMoves_raiseError (not_not.1 hf) _ _
  · exact .inr ⟨not_not.1 hf, .inr rfl⟩

theorem exec_reservedCmd_moves {op : BitVec 4} (h : exec (.reservedCmd op) s = .next t) : HostMoves s t := by
  rw [exec, execReservedCmd] at h
  split_ifs at h with hf
  all_goals cases h
  · exact .inl rfl
  · exact hostMoves_raiseError (not_not.1 hf) _ _

theorem exec_decodeCmd_moves {v : Word} (h : exec (decodeCmd v) s = .next t) : HostMoves s t := by
  rw [decodeCmd_eq] at h
  split_ifs at h
  · cases h
    exact .inl rfl
  · exact exec_encode_moves h
  · exact exec_decode_moves h
  · exact exec_reservedCmd_moves h

/-! An access to a register or a buffer leaves the datapath alone. -/

theorem exec_regRead_dp {a : BitVec 8} (h : exec (.regRead a) s = .next t) : t.dp = s.dp := by
  rw [exec, execRegRead] at h
  split_ifs at h
  cases h
  rfl

theorem exec_regWrite_dp {a : BitVec 8} (ha : a ≠ 0x00) {v : Word} (h : exec (.regWrite a v) s = .next t) :
    t.dp = s.dp := by
  rw [exec, execRegWrite, if_neg ha] at h
  split_ifs at h
  cases h
  rfl

theorem exec_inRead_dp {k : Nat} (h : exec (.inRead k) s = .next t) : t.dp = s.dp := by
  rw [exec, execInRead] at h
  split_ifs at h
  all_goals cases h; rfl

theorem exec_inWrite_dp {k : Nat} {b : Byte} (h : exec (.inWrite k b) s = .next t) : t.dp = s.dp := by
  rw [exec, execInWrite] at h
  split_ifs at h
  all_goals cases h; rfl

theorem exec_bsReadByte_dp {j : Nat} (h : exec (.bsReadByte j) s = .next t) : t.dp = s.dp := by
  rw [exec, execBsReadByte] at h
  split_ifs at h
  all_goals cases h; rfl

theorem exec_bsWriteByte_dp {j : Nat} {b : Byte} (h : exec (.bsWriteByte j b) s = .next t) : t.dp = s.dp := by
  rw [exec, execBsWriteByte] at h
  split_ifs at h
  all_goals cases h; rfl

theorem exec_outRead_dp {k : Nat} (h : exec (.outRead k) s = .next t) : t.dp = s.dp := by
  rw [exec, execOutRead] at h
  split_ifs at h
  all_goals cases h; rfl

theorem hostMoves_of_dp (h : t.dp = s.dp) : HostMoves s t := .inl (congrArg Dp.fsm h)

/-- Every action of the host but RESET. -/
theorem hostMoves_of_decodeAction {a i : Instr} (hd : decodeAction a = .ok i) (ha : a ≠ .reset)
    (ht : exec i s = .next t) : HostMoves s t := by
  cases a with
  | regWrite a v =>
    rw [decodeAction] at hd
    split_ifs at hd with h0
    all_goals cases hd
    · exact exec_decodeCmd_moves ht
    · exact hostMoves_of_dp (exec_regWrite_dp h0 ht)
  | nop =>
    cases hd
    cases ht
    exact .inl rfl
  | encode =>
    cases hd
    exact exec_encode_moves ht
  | decode =>
    cases hd
    exact exec_decode_moves ht
  | reservedCmd op =>
    cases hd
    exact exec_reservedCmd_moves ht
  | regRead a =>
    cases hd
    exact hostMoves_of_dp (exec_regRead_dp ht)
  | inRead k =>
    cases hd
    exact hostMoves_of_dp (exec_inRead_dp ht)
  | inWrite k b =>
    cases hd
    exact hostMoves_of_dp (exec_inWrite_dp ht)
  | bsReadByte j =>
    cases hd
    exact hostMoves_of_dp (exec_bsReadByte_dp ht)
  | bsWriteByte j b =>
    cases hd
    exact hostMoves_of_dp (exec_bsWriteByte_dp ht)
  | outRead k =>
    cases hd
    exact hostMoves_of_dp (exec_outRead_dp ht)
  | outWrite k b =>
    cases hd
    cases ht
    exact .inl rfl
  | reset => exact absurd rfl ha
  | lit | matchTok | bsAppendBit | bsAppendUint | bsAppendBits | bsReadBit | bsReadUint | bsAtEnd | vlcEncode
  | vlcDecode | findLongestMatch => cases hd

/-- A host step is RESET, which ends in IDLE, or one of the other actions of the host. -/
theorem hostStep_fsm {a : Instr} {rest : List Instr} (hq : s.hostQ = a :: rest) (h : hostStep s = .next t) :
    (a = .reset ∧ t.dp.fsm = .idle) ∨ (a ≠ .reset ∧ HostMoves s t) := by
  rw [hostStep, hq] at h
  dsimp only at h
  split at h
  next i hd =>
    by_cases ha : a = .reset
    · subst ha
      cases hd
      cases h
      exact .inl ⟨rfl, rfl⟩
    · exact .inr ⟨ha, hostMoves_of_decodeAction (s := { s with hostQ := rest }) hd ha h⟩
  · cases h

/-! ### Sub-block operations presented alone (log 7) -/

/-- What a sub-block operation makes of `dp.fsm`: nothing, or IDLE by an error. -/
abbrev UnitMoves (s t : State) : Prop := t.dp.fsm = s.dp.fsm ∨ (t.dp.fsm = .idle ∧ t.reg.status.err = true)

theorem unitMoves_raiseError (c : ErrCode) (u : State) : UnitMoves s (raiseError .decodeStep c u) := .inr ⟨rfl, rfl⟩

theorem appendBits_moves {bits : Bits} (h : appendBits bits s = .next t) : UnitMoves s t := by
  obtain ⟨_, _, rfl⟩ := appendBits_frame h
  exact .inl rfl

theorem exec_bsAppendBit_moves {b : Bool} (h : exec (.bsAppendBit b) s = .next t) : UnitMoves s t := by
  have hone : appendBits [b] s = .next t := congrArg (andThen · .next) h
  exact appendBits_moves hone

theorem exec_bsReadBit_moves (h : exec .bsReadBit s = .next t) : UnitMoves s t := by
  rcases lt_or_ge s.dp.rptr.toNat s.dp.cn.toNat with hbefore | hend
  · cases (exec_bsReadBit_of_lt hbefore).symm.trans h
    exact .inl rfl
  · cases (exec_bsReadBit_of_le hend).symm.trans h
    exact unitMoves_raiseError _ _

theorem exec_bsReadUint_moves {w : Nat} (h : exec (.bsReadUint w) s = .next t) : UnitMoves s t := by
  by_cases hfits : w = 0 ∨ s.dp.rptr.toNat + w ≤ s.dp.cn.toNat
  · cases (exec_bsReadUint_of_le hfits).symm.trans h
    exact .inl rfl
  · cases (exec_bsReadUint_of_lt (by omega) (by omega)).symm.trans h
    exact unitMoves_raiseError _ _

theorem exec_vlcEncode_moves {n : Nat} (h : exec (.vlcEncode n) s = .next t) : UnitMoves s t := by
  rw [exec, execVlcEncode] at h
  split_ifs at h
  cases h
  exact .inl rfl

theorem exec_vlcDecode_moves (h : exec .vlcDecode s = .next t) : UnitMoves s t := by
  rw [exec, execVlcDecode] at h
  split at h
  · cases h
    exact .inl rfl
  · cases h
    exact unitMoves_raiseError _ _

theorem unitMoves_of_decodeUnit {u : UnitWord} {i : Instr} (hd : decodeUnit u = .ok i) (ht : exec i s = .next t) :
    UnitMoves s t := by
  unfold decodeUnit at hd
  split_ifs at hd
  all_goals cases hd
  · exact exec_bsAppendBit_moves ht
  · exact appendBits_moves ht
  · exact appendBits_moves ht
  · exact exec_bsReadBit_moves ht
  · exact exec_bsReadUint_moves ht
  · cases ht
    exact .inl rfl
  · exact exec_vlcEncode_moves ht
  · exact exec_vlcDecode_moves ht
  · cases ht
    exact .inl rfl

theorem unitStep_moves {u : UnitWord} (h : unitStep u s = .next t) : UnitMoves s t := by
  rw [unitStep] at h
  split at h
  next hd => exact unitMoves_of_decodeUnit (s := { s with unitOp := none }) hd h
  · cases h

/-! ### Every step -/

/-- The rows of R277's table, with the stay in each state and the error exit of a sub-block operation (log 7). -/
def fsmMoves : List (Fsm × Fsm) :=
  [(.idle, .idle), (.idle, .eToken), (.idle, .dToken),
    (.eToken, .eToken), (.eToken, .idle),
    (.dToken, .dToken), (.dToken, .dCopy), (.dToken, .idle),
    (.dCopy, .dCopy), (.dCopy, .dToken), (.dCopy, .idle)]

theorem mem_fsmMoves_self (f : Fsm) : (f, f) ∈ fsmMoves := by cases f <;> decide

theorem mem_fsmMoves_idle (f : Fsm) : (f, .idle) ∈ fsmMoves := by cases f <;> decide

theorem UnitMoves.mem_fsmMoves (h : UnitMoves s t) : (s.dp.fsm, t.dp.fsm) ∈ fsmMoves := by
  obtain hstay | ⟨hidle, -⟩ := h
  · rw [hstay]
    exact mem_fsmMoves_self _
  · rw [hidle]
    exact mem_fsmMoves_idle _

theorem HostMoves.mem_fsmMoves (h : HostMoves s t) : (s.dp.fsm, t.dp.fsm) ∈ fsmMoves := by
  obtain hstay | ⟨hidle, he | hd⟩ := h
  · rw [hstay]
    exact mem_fsmMoves_self _
  · rw [hidle, he]
    decide
  · rw [hidle, hd]
    decide

theorem hostStep_mem_fsmMoves (h : hostStep s = .next t) : (s.dp.fsm, t.dp.fsm) ∈ fsmMoves := by
  cases hq : s.hostQ with
  | nil =>
    rw [hostStep, hq] at h
    cases h
    exact mem_fsmMoves_self _
  | cons a rest =>
    obtain ⟨-, hidle⟩ | ⟨-, hmoves⟩ := hostStep_fsm hq h
    · rw [hidle]
      exact mem_fsmMoves_idle _
    · exact hmoves.mem_fsmMoves

theorem coreStep_mem_fsmMoves (h : coreStep s = .next t) : (s.dp.fsm, t.dp.fsm) ∈ fsmMoves := by
  obtain ⟨hidle, hencode, htoken, hcopy⟩ := coreStep_transitions h
  cases hf : s.dp.fsm with
  | idle =>
    rw [hidle hf]
    decide
  | eToken =>
    obtain ⟨hend, hgo⟩ := hencode hf
    by_cases hc : s.dp.cur = s.dp.cn
    · rw [hend hc]
      decide
    · rw [hgo hc]
      decide
  | dToken =>
    obtain ⟨ht | ht | ht, -⟩ := htoken hf
    all_goals rw [ht]; decide
  | dCopy =>
    obtain ⟨hlast, hmore⟩ := hcopy hf
    by_cases hc : t.dp.crem = 0
    · rw [hlast hc]
      decide
    · rw [hmore hc]
      decide

theorem takeTurn_dp (s : State) : (takeTurn s).dp = s.dp := by rw [takeTurn_eq]

theorem step_mem_fsmMoves (h : step s = .next t) : (s.dp.fsm, t.dp.fsm) ∈ fsmMoves := by
  obtain ⟨-, ⟨u, i, -, hd, ht⟩ | ⟨-, -, ht⟩ | ⟨-, -, ht⟩⟩ := step_eq_next h
  · exact (unitMoves_of_decodeUnit (s := { s with unitOp := none }) hd ht).mem_fsmMoves
  · rw [← takeTurn_dp]
    exact hostStep_mem_fsmMoves ht
  · rw [← takeTurn_dp]
    exact coreStep_mem_fsmMoves ht

/-- Settles O57: by the agent that moves. -/
theorem stateMachineTransitions : Obligations.StateMachineTransitions := by
  refine ⟨fun s t => coreStep_transitions, fun s t a rest hq h => ?_, fun s t u => unitStep_moves,
    fun s t => step_mem_fsmMoves⟩
  obtain ⟨rfl, hidle⟩ | ⟨ha, hmoves⟩ := hostStep_fsm hq h
  · simp [hidle]
  · refine ⟨fun hf => ?_, fun hf _ => ?_, (absurd · ha)⟩
    · obtain ht | ⟨-, ht | ht⟩ := hmoves
      all_goals simp [ht, hf]
    · obtain hstay | ⟨hidle, -⟩ := hmoves
      · exact hstay
      · exact absurd hidle hf
end Sys2Proof.Machine
end

section
/-! PROOFS of 45_host_interface.md R275: what BS holds at and past the stream's end does not affect DECODE. A step of
DECODE looks at BS only where it reads a token, and there only at the bits before `dp.cn`. -/

namespace Sys2Proof.Machine

variable {s : State} {m : List (Nat × Bool)}

/-- `s` with other contents of BS. -/
def withBs (m : List (Nat × Bool)) (s : State) : State := { s with bs := m }

@[simp] theorem withBs_dp (m : List (Nat × Bool)) (s : State) : (withBs m s).dp = s.dp := rfl

/-- The bits the reader can still read are those before `dp.cn`. -/
theorem streamBits_withBs (h : ∀ i < s.dp.cn.toNat, Memory.get m i = Memory.get s.bs i) :
    streamBits (withBs m s) = streamBits s := by
  refine List.map_congr_left fun i hi => ?_
  have hlt : i < s.dp.cn.toNat := by
    have hrange := List.mem_range'_1.1 hi
    rw [withBs_dp] at hrange
    omega
  exact congrArg (Option.getD · _) (h i hlt)

theorem fetchToken_withBs (h : ∀ i < s.dp.cn.toNat, Memory.get m i = Memory.get s.bs i) :
    fetchToken (withBs m s) = fetchToken s :=
  congrArg (decodeToken _ _) (streamBits_withBs h)

/-- A token that is read is executed without a look at BS. -/
theorem execLit_withBs (m : List (Nat × Bool)) (b : Byte) (s : State) :
    execLit b (withBs m s) = andThen (execLit b s) fun t => .next (withBs m t) := by
  unfold execLit withBs
  split_ifs <;> rfl

theorem execMatch_withBs (m : List (Nat × Bool)) (off len pad : Nat) (s : State) :
    execMatch off len pad (withBs m s) = andThen (execMatch off len pad s) fun t => .next (withBs m t) := by
  unfold execMatch withBs
  dsimp only
  split_ifs <;> rfl

theorem tokenStep_withBs (h : ∀ i < s.dp.cn.toNat, Memory.get m i = Memory.get s.bs i) :
    tokenStep (withBs m s) = andThen (tokenStep s) fun t => .next (withBs m t) := by
  have hend : atEnd (withBs m s) = atEnd s := rfl
  rw [tokenStep, tokenStep, hend, fetchToken_withBs h]
  by_cases hc : atEnd s = true
  · rw [if_pos hc, if_pos hc]
    rfl
  · rw [if_neg hc, if_neg hc]
    cases hfetch : fetchToken s with
    | err e used => rfl
    | ok i used rest =>
      obtain ⟨b, rfl⟩ | ⟨off, len, pad, rfl, -⟩ := decodeToken_eq_ok hfetch
      · exact execLit_withBs m b (tick s)
      · exact execMatch_withBs m off len pad (tick s)

/-- Settles O60: a token step reads the same token, and a copy step reads OUT alone. -/
theorem bitsPastEndDoNotMatter : Obligations.BitsPastEndDoNotMatter := by
  intro s t m hd hm ht
  obtain hf | hf := hd
  · have hstep := tokenStep_withBs hm
    rw [← coreStep_of_dToken hf, ht] at hstep
    exact (coreStep_of_dToken (s := withBs m s) hf).trans hstep
  · cases (coreStep_of_dCopy hf).symm.trans ht
    exact coreStep_of_dCopy hf

end Sys2Proof.Machine
end

section
/-! PROOFS of 60_exceptions.md: the errors at a command's start (R302, R306), the errors of a token that cannot be read
(R303, R307), and that no legal state reaches a model fault (R315). -/

namespace Sys2Proof

/-! ### Tokens that cannot be read -/

theorem readMatch_of_length_lt {ow : Nat} {bs : Bits} (h : bs.length < ow) (lenW : Nat) :
    readMatch lenW ow bs = .err .truncated 1 := by
  simp only [readMatch, (readUint_eq_none_iff ow 0 bs).2 h]

/-- Behind its offset field a MATCH has the errors of its length code. -/
theorem readMatch_of_readLength_err {lenW ow used : Nat} {offBits bs : Bits} {e : DecodeError}
    (hoff : offBits.length = ow) (h : readLength lenW bs = .err e used) :
    readMatch lenW ow (offBits ++ bs) = .err e (1 + ow + used) := by
  subst hoff
  simp only [readMatch, readUint_append, h]

/-- A MATCH cut behind its flag bit ends inside its offset or inside its length code. -/
theorem readMatch_take {lenW ow off len pad k : Nat} (hwf : (Instr.matchTok off len pad).wf lenW ow = true)
    (hk : k < (bin off ow ++ lenCode len pad).length) :
    ∃ used, readMatch lenW ow ((bin off ow ++ lenCode len pad).take k) = .err .truncated used := by
  obtain ⟨-, hoperands, hfit⟩ := Instr.wf_matchTok_iff.1 hwf
  rw [List.length_append, length_bin] at hk
  rcases lt_or_ge k ow with hcut | hfield
  · exact ⟨1, readMatch_of_length_lt ((List.length_take_le k _).trans_lt hcut) lenW⟩
  · have hcode : k - ow < Machine.lengthBits lenW len pad := by
      rw [Machine.lengthBits, if_pos hfit]
      omega
    obtain ⟨used, herr⟩ := readLength_take_lenCode (Instr.one_le_lenW_of_wf hwf) hoperands hcode
    rw [List.take_append, length_bin, List.take_of_length_le (by rwa [length_bin])]
    exact ⟨_, readMatch_of_readLength_err (length_bin off ow) herr⟩

/-- A proper, non-empty first part of a well-formed token is TRUNCATED_STREAM (44_decoder.md R244). -/
theorem decodeToken_take {lenW ow k : Nat} {i : Instr} {bits : Bits} (hwf : i.wf lenW ow = true)
    (henc : encode ow i = .tokenBits bits) (hpos : 0 < k) (hk : k < bits.length) :
    ∃ used, decodeToken lenW ow (bits.take k) = .err .truncated used := by
  obtain ⟨k, rfl⟩ := Nat.exists_eq_succ_of_ne_zero hpos.ne'
  obtain ⟨b, rfl, rfl⟩ | ⟨off, len, pad, rfl, rfl⟩ := encode_eq_tokenBits_iff.1 henc
  · rw [length_encodeLit] at hk
    have hcut : ((bin b.toNat 8).take k).length < 8 := (List.length_take_le k _).trans_lt (Nat.lt_of_succ_lt_succ hk)
    refine ⟨1, ?_⟩
    rw [encodeLit, List.take_succ_cons, decodeToken, readLit, (readUint_eq_none_iff 8 0 _).2 hcut]
  · exact readMatch_take hwf (Nat.lt_of_succ_lt_succ hk)

end Sys2Proof

namespace Sys2Proof.Machine

variable {s : State}

/-! ### The error exit of a token step -/

/-- A token that cannot be read ends DECODE with its error, at the token's start (60_exceptions.md R310). -/
theorem endsInError_of_decodeToken_err {e : DecodeError} {used : Nat} {bits : Bits} (hf : s.dp.fsm = .dToken)
    (hs : streamBits s = bits) (hne : bits ≠ []) (h : decodeToken s.par.lenW s.dp.cow.toNat bits = .err e used) :
    ∃ t, coreStep s = .next t ∧ EndsInError (errNumber (tokenErrCode e)) s.dp.rptr s t := by
  subst hs
  have hr : s.dp.rptr ≠ s.dp.cn := fun heq => hne ((streamBits_eq_nil_iff s).2 (congrArg BitVec.toNat heq).ge)
  have hgo : ¬(atEnd s = true) := by simpa [atEnd] using hr
  refine ⟨tokenAborted (tokenErrCode e) used (tick s), ?_, endsInError_tokenAborted _ used (tick s)⟩
  rw [coreStep_of_dToken hf, tokenStep, if_neg hgo, fetchToken, h]
  rfl

/-- A MATCH whose length code cannot fit LEN_W ends DECODE with LENGTH_OVERFLOW. -/
theorem endsInError_of_overflowCode {offBits code rest : Bits} (hf : s.dp.fsm = .dToken)
    (hoff : offBits.length = s.dp.cow.toNat) (hcode : OverflowCode s.par.lenW code)
    (hs : streamBits s = true :: (offBits ++ (code ++ rest))) :
    ∃ t, coreStep s = .next t ∧ EndsInError 4 s.dp.rptr s t :=
  endsInError_of_decodeToken_err hf hs (List.cons_ne_nil _ _)
    (readMatch_of_readLength_err hoff (readLength_overflowCode hcode rest))

/-- Settles O31: the two kinds of length code that cannot fit are the two of `OverflowCode`. -/
theorem lengthOverflowEndsDecode : Obligations.LengthOverflowEndsDecode := by
  refine ⟨fun s offBits rest hf hoff hs => endsInError_of_overflowCode hf hoff (.inl rfl) hs,
    fun s offBits blenBits rest clen hf hoff hpos hmax hlen hover hs => ?_⟩
  refine endsInError_of_overflowCode (rest := rest) hf hoff
    (.inr ⟨clen + 2, blenBits, by omega, Nat.add_le_add_right hmax 2, hlen, hover, rfl⟩) ?_
  rw [hs, List.append_assoc, List.cons_append]

/-- Settles O32: the decoder finds the cut token truncated. -/
theorem cutTokenIsTruncated : Obligations.CutTokenIsTruncated := by
  intro s i bits k hf hwf henc hpos hk hs
  obtain ⟨used, herr⟩ := decodeToken_take hwf henc hpos hk
  have hne : bits.take k ≠ [] := List.ne_nil_of_length_pos (by rw [List.length_take]; omega)
  exact endsInError_of_decodeToken_err hf hs hne herr

/-! ### The start of a command -/

theorem configLegal_eq_false_iff (s : State) : configLegal s = false ↔
    s.reg.windowSize.toNat < 1 ∨ s.par.wMax < s.reg.windowSize.toNat ∨
    s.reg.lookaheadCap.toNat < 2 ∨ s.par.laMax < s.reg.lookaheadCap.toNat := by
  rw [← Bool.not_eq_true, configLegal_iff]
  omega

theorem exec_encode_of_illegal (hf : s.dp.fsm = .idle) (hc : configLegal s = false) :
    exec .encode s = .next (raiseError .encodeStart .invalidConfiguration (beginCommand s)) := by
  rw [exec, execEncode, if_neg (not_not_intro hf), if_pos hc]

theorem exec_decode_of_illegal (hf : s.dp.fsm = .idle) (hc : configLegal s = false) :
    exec .decode s = .next (raiseError .decodeStart .invalidConfiguration (clearOutLen (beginCommand s))) := by
  rw [exec, execDecode, if_neg (not_not_intro hf), if_pos hc]

theorem exec_encode_of_long (hf : s.dp.fsm = .idle) (hc : ¬configLegal s = false)
    (hn : s.par.inCap < s.reg.inLen.toNat) :
    exec .encode s = .next (raiseError .encodeStart .bufferBound (beginCommand s)) := by
  rw [exec, execEncode, if_neg (not_not_intro hf), if_neg hc, if_pos hn]

theorem exec_decode_of_long (hf : s.dp.fsm = .idle) (hc : ¬configLegal s = false)
    (hn : s.par.bsCap < s.reg.bsLen.toNat) :
    exec .decode s = .next (raiseError .decodeStart .bufferBound (clearOutLen (beginCommand s))) := by
  rw [exec, execDecode, if_neg (not_not_intro hf), if_neg hc, if_pos hn]

theorem dp_withIdle (hf : s.dp.fsm = .idle) : { s.dp with fsm := .idle } = s.dp := by rw [← hf]

/-- An error at the start of ENCODE leaves an IDLE core's datapath as it is (60_exceptions.md R310, case (a)). -/
theorem raiseError_encodeStart_of_idle (hf : s.dp.fsm = .idle) (c : ErrCode) :
    raiseError .encodeStart c (beginCommand s) =
      { s with reg := { s.reg with status := statusError c, bsLen := 0, errBitpos := 0, errBytepos := 0 } } := by
  rw [raiseError, beginCommand_dp, dp_withIdle hf]
  rfl

/-- The same for DECODE, which leaves no output. -/
theorem raiseError_decodeStart_of_idle (hf : s.dp.fsm = .idle) (c : ErrCode) :
    raiseError .decodeStart c (clearOutLen (beginCommand s)) =
      { s with
        reg := { s.reg with status := statusError c, outLen := 0, errBitpos := 0, errBytepos := 0 }
        outb := [] } := by
  rw [raiseError, clearOutLen_dp, beginCommand_dp, dp_withIdle hf]
  rfl

/-- Settles O6: by the checks of a command start in their order. -/
theorem commandStartErrors : Obligations.CommandStartErrors := by
  intro s hf
  dsimp only
  rw [← configLegal_eq_false_iff]
  refine ⟨fun hc => ⟨?_, ?_⟩, fun hc hn => ?_, fun hc hn => ?_⟩
  · rw [exec_encode_of_illegal hf hc, raiseError_encodeStart_of_idle hf]
    rfl
  · rw [exec_decode_of_illegal hf hc, raiseError_decodeStart_of_idle hf]
    rfl
  · rw [exec_encode_of_long hf hc hn, raiseError_encodeStart_of_idle hf]
    rfl
  · rw [exec_decode_of_long hf hc hn, raiseError_decodeStart_of_idle hf]
    rfl

/-! ### No model fault -/

/-- The answer is no model fault. -/
def NoFault (r : Result) : Prop := ∀ f, r ≠ .fault f

theorem noFault_next (s : State) : NoFault (.next s) := nofun

theorem noFault_refused (r : Refusal) : NoFault (.refused r) := nofun

theorem NoFault.ite {c : Prop} [Decidable c] {r₁ r₂ : Result} (h₁ : NoFault r₁) (h₂ : NoFault r₂) :
    NoFault (if c then r₁ else r₂) := by
  split_ifs
  · exact h₁
  · exact h₂

theorem noFault_exec_encode (s : State) : NoFault (exec .encode s) :=
  .ite (noFault_next _) (.ite (noFault_next _) (.ite (noFault_next _) (noFault_next _)))

theorem noFault_exec_decode (s : State) : NoFault (exec .decode s) :=
  .ite (noFault_next _) (.ite (noFault_next _) (.ite (noFault_next _) (noFault_next _)))

theorem noFault_exec_reservedCmd (op : BitVec 4) (s : State) : NoFault (exec (.reservedCmd op) s) :=
  .ite (noFault_next _) (noFault_next _)

theorem noFault_cmdWrite (v : Word) (s : State) : NoFault (cmdWrite v s) :=
  .ite (noFault_next s) (.ite (noFault_exec_encode s) (.ite (noFault_exec_decode s)
    (noFault_exec_reservedCmd (v.extractLsb' 0 4) s)))

/-- No action of the host appends to the stream or encodes a length. -/
theorem noFault_exec_of_decodeAction {a i : Instr} (hd : decodeAction a = .ok i) (s : State) : NoFault (exec i s) := by
  cases a with
  | regWrite a v =>
    rw [decodeAction] at hd
    split_ifs at hd
    all_goals cases hd
    · exact exec_decodeCmd v s ▸ noFault_cmdWrite v s
    · exact .ite (noFault_refused _) (.ite (noFault_cmdWrite v s) (noFault_next _))
  | encode =>
    cases hd
    exact noFault_exec_encode s
  | decode =>
    cases hd
    exact noFault_exec_decode s
  | reservedCmd op =>
    cases hd
    exact noFault_exec_reservedCmd op s
  | regRead a =>
    cases hd
    exact .ite (noFault_refused _) (noFault_next _)
  | inRead k =>
    cases hd
    exact .ite (noFault_next _) (noFault_next _)
  | inWrite k b | bsWriteByte k b =>
    cases hd
    exact .ite (noFault_next _) (.ite (noFault_refused _) (noFault_next _))
  | bsReadByte k | outRead k =>
    cases hd
    exact .ite (noFault_next _) (.ite (noFault_next _) (noFault_next _))
  | nop | outWrite | reset =>
    cases hd
    exact noFault_next _
  | lit | matchTok | bsAppendBit | bsAppendUint | bsAppendBits | bsReadBit | bsReadUint | bsAtEnd | vlcEncode
  | vlcDecode | findLongestMatch => cases hd

theorem noFault_hostStep (s : State) : NoFault (hostStep s) := by
  unfold hostStep
  split
  · exact noFault_next _
  · split
    next hd => exact noFault_exec_of_decodeAction hd _
    · exact noFault_refused _

/-- A core step of a legal state answers a state: ENCODE's token fits BS and its length the codec's domain
(43_encoder.md R206, R209), and no other core step appends or encodes a length. -/
theorem Inv.exists_coreStep_eq_next (h : Inv s) : ∃ t, Machine.coreStep s = .next t := by
  cases hf : s.dp.fsm with
  | idle => exact ⟨s, by rw [Machine.coreStep, hf]⟩
  | eToken =>
    by_cases hc : s.dp.cur = s.dp.cn
    · exact ⟨_, coreStep_of_encodeEnd hf hc⟩
    · exact ⟨_, (coreStep_of_eToken hf).trans (h.encoderStep_eq_nextToken hf hc)⟩
  | dToken =>
    obtain ⟨t, ht, -⟩ := h.coreStep_lowers (.inl hf)
    exact ⟨t, ht⟩
  | dCopy => exact ⟨_, coreStep_of_dCopy hf⟩

/-- Settles O50: by the agent that moves; a legal state has no sub-block operation presented from outside. -/
theorem legalStatesNeverFault : Obligations.LegalStatesNeverFault := by
  intro s h
  change NoFault (step s)
  cases hn : nextAgent s with
  | host =>
    rw [step_of_host h.build h.latch hn]
    exact noFault_hostStep _
  | core =>
    obtain ⟨t, ht⟩ := h.takeTurn.exists_coreStep_eq_next
    rw [step_of_core h.build h.latch hn, ht]
    exact noFault_next t

end Sys2Proof.Machine
end

section
/-! PROOFS of 70_reset_and_hazards.md: what a register read depends on (10_state.md R56), and RESET from every state
(R330, R331). -/

namespace Sys2Proof.Machine

variable {s t : State}

/-- The offsets below 0x28 read the host-visible registers alone. -/
theorem regValue_congr_reg (h : s.reg = t.reg) {a : BitVec 8} (ha : a.toNat < 0x28) : regValue s a = regValue t a := by
  have hne {k : BitVec 8} (hk : 0x28 ≤ k.toNat) : a ≠ k := by
    rintro rfl
    omega
  simp [regValue, h, hne]

/-- The offsets from 0x28 on read the build alone. -/
theorem regValue_congr_par (h : s.par = t.par) {a : BitVec 8} (ha : 0x28 ≤ a.toNat) : regValue s a = regValue t a := by
  have hne {k : BitVec 8} (hk : k.toNat < 0x28) : a ≠ k := by
    rintro rfl
    omega
  simp [regValue, h, hne]

/-- Settles O2: RESET leaves the registers of the reset state, so they read as the reset table says, and keeps the
build, so the constants read as before. -/
theorem resetAbandonsCommand : Obligations.ResetAbandonsCommand := by
  intro s
  obtain ⟨-, hzero, -⟩ := resetRegistersReadAsSpecified
  have hhost : ∀ a ∈ ([0x00, 0x04, 0x08, 0x0C, 0x10, 0x14, 0x18, 0x1C, 0x20, 0x24] : List (BitVec 8)),
      a.toNat < 0x28 := by decide
  have hconst : ∀ a ∈ ([0x28, 0x2C, 0x30, 0x34, 0x38, 0x3C] : List (BitVec 8)), 0x28 ≤ a.toNat := by decide
  refine ⟨_, rfl, rfl, fun a ha => ?_, fun a ha => ?_, rfl, rfl, rfl, rfl, rfl, rfl, rfl, rfl⟩
  · exact (regValue_congr_reg (t := State.reset) (by rfl) (hhost a ha)).trans (hzero a ha)
  · exact regValue_congr_par (by rfl) (hconst a ha)

end Sys2Proof.Machine
end
